-- ==== Sys2Proof/Word.lean ====
section
/-! DEFINITION. The widths of the values the spec treats as bits (00_scope.md R8, R14): a register word, a byte, a
sextet, and the 24-bit group in which the two datapaths pack bits. -/

namespace Sys2Proof

/-- A register value, or a buffer-memory address (`ADDR_W = 32`, 00_scope.md R7). -/
abbrev Word := BitVec 32

/-- A byte of buffer memory; a character is the byte of its ASCII code (00_scope.md R11). -/
abbrev Byte := BitVec 8

/-- A 6-bit value, `0..63` (00_scope.md R14). -/
abbrev Sextet := BitVec 6

/-- The 24 bits of one group of 3 bytes or 4 sextets (41_encoder.md R131, 42_decoder.md R166). -/
abbrev Group24 := BitVec 24

/-- The offset of a register port transaction from `BASE`, `0x00..0xFF` (10_state.md R41). -/
abbrev Offset := BitVec 8

end Sys2Proof
end

