-- ==== Sys2Proof/Config.lean ====
section
/-! DEFINITION. What is fixed for one machine: the parameters of 00_scope.md R7, the constants of 10_state.md, what a
byte of memory that nothing has written reads as, and the free values the rules call `any` (00_scope.md R10). -/

namespace Sys2Proof

/-- The parameters of 00_scope.md R7 that a rule reads. They are held in State and no step changes them, so that a
statement about every state holds for every value the spec leaves `OPEN` (log entries 1 and 16).

`lastAddr` is `MEM_SIZE - 1`: with it `1 <= MEM_SIZE <= 2^ADDR_W` holds by form. -/
structure Params where
  /-- the highest address of buffer memory, `MEM_SIZE - 1` (`OPEN`) -/
  lastAddr : Word
  /-- `BASE`, the platform address of the register block (`OPEN`) -/
  base : Nat
  /-- `STRICT_UNUSED_BITS` (42_decoder.md R167) -/
  strictUnusedBits : Bool
  /-- `ALPHA_62`, the character for sextet 62 (10_state.md R38) -/
  alpha62 : Byte
  /-- `ALPHA_63`, the character for sextet 63 (10_state.md R38) -/
  alpha63 : Byte
  deriving DecidableEq, Repr

/-- `MEM_SIZE`: the number of bytes of buffer memory (00_scope.md R7, 20_memory.md R60). -/
def Params.memSize (p : Params) : Nat := p.lastAddr.toNat + 1

/-- This hardware's values of 00_scope.md R7: strict, `+` and `/`. DESIGN CHOICE (log entry 1): `MEM_SIZE` and
`BASE` are `OPEN`; the reset state takes the whole `2^ADDR_W` bytes, and 0. -/
def Params.hardware : Params :=
  { lastAddr := 0xFFFFFFFF#32, base := 0, strictUnusedBits := true, alpha62 := 0x2B#8, alpha63 := 0x2F#8 }

namespace Config

/-- The constant that ID reads (10_state.md R23): `"B64"` and the interface revision 1. -/
def idWord : Word := 0x42363401#32

/-- The pad character `=` (00_scope.md R14). -/
def padChar : Byte := 0x3D#8

/-- What an unlisted byte of buffer memory reads as. DESIGN CHOICE, unsafe (log entry 2): the content at power-on is
the platform's (70_reset_and_hazards.md R243); 95_test_vectors.md section 3 starts its programs from memory that is 0. -/
def powerOnByte : Byte := 0x00#8

/-- The free bytes the rules call `any` (00_scope.md R10): one per draw, under no law (log entry 3). -/
opaque freeByte : Nat → Byte

/-- The free numbers the rules call `any` (20_memory.md R73): one per draw, under no law (log entry 3). -/
opaque freeNat : Nat → Nat

/-- The free choices between two outcomes (20_memory.md R73): one per draw, under no law (log entry 3). -/
opaque freeBool : Nat → Bool

/-- The word of a host variable that no line has given a value, under no law (log entry 12). -/
opaque unsetVariable : Nat → Word

/-- The word of a host value of several bytes, or of none, under no law (log entry 12). -/
opaque wordOfBytes : List Byte → Word

/-- The bytes of a word in a host line that asks for bytes, under no law (log entry 12). -/
opaque byteOfWord : Word → Nat → Byte

end Config

end Sys2Proof
end

