-- ==== Sys2Proof/Syntax.lean ====
section
/-! DEFINITION. The commands of the CORE, one constructor per row of spec/opcode_table.json (30_encoding.md R91). A
command word has no operand fields (R93): the operands are the registers SRC, LEN, DST and DST_CAP. -/

namespace Sys2Proof

/-- The four commands (00_scope.md R2, 30_encoding.md R91). -/
inductive Instr where
  /-- ENCODE (41_encoder.md R135) -/
  | encode
  /-- DECODE (42_decoder.md R169) -/
  | decode
  /-- ENCODE_LEN (40_length.md R112) -/
  | encodeLen
  /-- DECODE_LEN (40_length.md R113) -/
  | decodeLen
  deriving DecidableEq, Repr

end Sys2Proof
end

