-- ==== Sys2Proof/Machine/HostSyntax.lean ====
section
/-! DEFINITION. The host's side of the machine: the register names (10_state.md R21), the lines of a host program
(30_encoding.md R96), the pseudo-instructions as the lines they expand to (R97), and the turns of a schedule, which say
which agent moves next (20_memory.md R70). -/

namespace Sys2Proof.Machine

/-- The registers of 10_state.md R21. -/
inductive RegName where
  | id | ctrl | cmd | status | src | len | dst | dstCap | resultLo | resultHi | errPos
  deriving DecidableEq, Repr

/-- The offset of a register from `BASE` (10_state.md R21). -/
def RegName.offset : RegName → Offset
  | .id => 0x00#8
  | .ctrl => 0x04#8
  | .cmd => 0x08#8
  | .status => 0x0C#8
  | .src => 0x10#8
  | .len => 0x14#8
  | .dst => 0x18#8
  | .dstCap => 0x1C#8
  | .resultLo => 0x20#8
  | .resultHi => 0x24#8
  | .errPos => 0x28#8

/-- The register at an offset; `none` at a reserved one, and at an offset that is not a multiple of 4 (R21). -/
def regAt (off : Offset) : Option RegName :=
  if off = 0x00#8 then some .id
  else if off = 0x04#8 then some .ctrl
  else if off = 0x08#8 then some .cmd
  else if off = 0x0C#8 then some .status
  else if off = 0x10#8 then some .src
  else if off = 0x14#8 then some .len
  else if off = 0x18#8 then some .dst
  else if off = 0x1C#8 then some .dstCap
  else if off = 0x20#8 then some .resultLo
  else if off = 0x24#8 then some .resultHi
  else if off = 0x28#8 then some .errPos
  else none

/-- What a host variable holds: the word an `RD` returned, or the bytes an `MR` returned (30_encoding.md R96). -/
inductive HostValue where
  | word (w : Word)
  | bytes (bs : List Byte)
  deriving DecidableEq, Repr

/-- A value in a host line: a constant word, constant bytes, or a host variable (variables are numbered). DESIGN CHOICE (log
entry 4): 30_encoding.md R96 does not say which values of a line may be host variables; here every one may, among them the
bytes of an `MW` and the count of an `MR`. What such a value stands for is in HostValues.lean. -/
inductive HostExpr where
  | imm (w : Word)
  | bytes (bs : List Byte)
  | var (x : Nat)
  deriving DecidableEq, Repr

/-- The condition of an `if … goto` (30_encoding.md R96). DESIGN CHOICE (log entry 4): R96 gives no grammar of
conditions; these are the forms its own examples use (`s[0] = 1`, `s != 0x24`), closed under not, and, and less-than. -/
inductive HostCond where
  | eq (a b : HostExpr)
  | lt (a b : HostExpr)
  | bit (a : HostExpr) (i : Nat)
  | not (c : HostCond)
  | and (c d : HostCond)
  deriving DecidableEq, Repr

/-- One line of a host program (30_encoding.md R96). A register access names a platform address and its size in bits, so
that an access the port answers with an error (10_state.md R42), and one that is not this block's, can be written down. That
`<v>`, `<a>`, `<bytes>` and `<k>` may each be a host variable is the model's choice (log entry 4). -/
inductive Line where
  /-- `WR`: a register write of `size` bits at platform address `a` -/
  | wr (a : Nat) (size : Nat) (v : HostExpr)
  /-- `RD`: a register read of `size` bits at platform address `a` into variable `x` -/
  | rd (a : Nat) (size : Nat) (x : Nat)
  /-- `MW`: the host writes the bytes to buffer memory at `a, a+1, …` -/
  | mw (a bs : HostExpr)
  /-- `MR`: the host reads `k` bytes of buffer memory from `a` into variable `x`; `k` is a 32-bit word (log entry 4) -/
  | mr (a k : HostExpr) (x : Nat)
  /-- `<label>:` -/
  | label (l : Nat)
  /-- `if <cond> goto <label>` -/
  | ifGoto (c : HostCond) (l : Nat)
  deriving DecidableEq, Repr

/-- The platform address of an offset in the register block, `BASE + off` (10_state.md R21). -/
def platformAddress (cfg : Params) (off : Offset) : Nat := cfg.base + off.toNat

/-- The offset in the register block that a platform address names; none outside the block, whose offsets are `0x00..0xFF`
(10_state.md R41). -/
def portOffset (cfg : Params) (a : Nat) : Option Offset :=
  if cfg.base ≤ a ∧ a < cfg.base + 0x100 then some (BitVec.ofNat 8 (a - cfg.base)) else none

/-- `WR <reg>, <v>` (30_encoding.md R96): a 32-bit write at `BASE + offset(<reg>)`. -/
def Line.WR (cfg : Params) (r : RegName) (v : HostExpr) : Line := .wr (platformAddress cfg r.offset) 32 v

/-- `RD <reg> -> <x>` (30_encoding.md R96): a 32-bit read at `BASE + offset(<reg>)`. -/
def Line.RD (cfg : Params) (r : RegName) (x : Nat) : Line := .rd (platformAddress cfg r.offset) 32 x

/-- `SRST` (30_encoding.md R96). -/
def Line.SRST (cfg : Params) : Line := .WR cfg .ctrl (.imm 0x00000001#32)

/-- `POLL` (30_encoding.md R96): `p: RD STATUS -> x ; if x[0] = 1 goto p`. The label and the variable are the caller's,
since a program's labels are its own. -/
def Line.POLL (cfg : Params) (p x : Nat) : List Line :=
  [.label p, .RD cfg .status x, .ifGoto (.bit (.var x) 0) p]

/-- `ENCODE s, n, d, c` (30_encoding.md R97). -/
def Line.ENCODE (cfg : Params) (p q x : Nat) (s n d c : HostExpr) : List Line :=
  Line.POLL cfg p x ++
    [.WR cfg .src s, .WR cfg .len n, .WR cfg .dst d, .WR cfg .dstCap c, .WR cfg .cmd (.imm 0x00000001#32)] ++
    Line.POLL cfg q x

/-- `DECODE s, n, d, c` (30_encoding.md R97). -/
def Line.DECODE (cfg : Params) (p q x : Nat) (s n d c : HostExpr) : List Line :=
  Line.POLL cfg p x ++
    [.WR cfg .src s, .WR cfg .len n, .WR cfg .dst d, .WR cfg .dstCap c, .WR cfg .cmd (.imm 0x00000002#32)] ++
    Line.POLL cfg q x

/-- `ENCODE_LEN n` (30_encoding.md R97). -/
def Line.ENCODE_LEN (cfg : Params) (p q x : Nat) (n : HostExpr) : List Line :=
  Line.POLL cfg p x ++ [.WR cfg .len n, .WR cfg .cmd (.imm 0x00000003#32)] ++ Line.POLL cfg q x

/-- `DECODE_LEN n` (30_encoding.md R97). -/
def Line.DECODE_LEN (cfg : Params) (p q x : Nat) (n : HostExpr) : List Line :=
  Line.POLL cfg p x ++ [.WR cfg .len n, .WR cfg .cmd (.imm 0x00000004#32)] ++ Line.POLL cfg q x

/-- Which agent moves next (10_state.md R20, 20_memory.md R70): the core (its completion step), the host (its next line),
or the platform, which drives the `rst` input (10_state.md R41). -/
inductive Turn where
  | core
  | host
  | rst (asserted : Bool)
  deriving DecidableEq, Repr

end Sys2Proof.Machine
end

