-- ==== Sys2Proof/Machine/State.lean ====
section
/-! DEFINITION. The state of the machine as plain data: the registers of 10_state.md R21, buffer memory (20_memory.md
R60), the `rst` input (R41), what the host did to a running command's buffers (R73), the host agent (R20, 30_encoding.md
R96), whose turn it is (R70), and the model's own count of free draws. Then the reasons a step can stop, and reset. -/

namespace Sys2Proof.Machine

/-- ERR_CAUSE (10_state.md R37); the codes 6..15 are never produced, so they have no name. -/
inductive ErrCause where
  | none | illegalCmd | length | badChar | badPad | nonCanon
  deriving DecidableEq, Repr

/-- FAULT_CAUSE (10_state.md R37); the codes 5..15 are never produced, so they have no name. -/
inductive FaultCause where
  | none | srcRange | dstRange | overlap | capacity
  deriving DecidableEq, Repr

/-- The fields of STATUS (10_state.md R26). Its word, with the reserved bits 0, is `Status.toWord` in Flags.lean. -/
structure Status where
  busy : Bool
  done : Bool
  err : Bool
  fault : Bool
  errCause : ErrCause
  faultCause : FaultCause
  deriving DecidableEq, Repr

/-- STATUS after reset: all 0 (10_state.md R26). -/
def Status.idle : Status :=
  { busy := false, done := false, err := false, fault := false, errCause := .none, faultCause := .none }

/-- Buffer memory (20_memory.md R60): the bytes that differ from `Config.powerOnByte`, by strictly rising address. -/
abbrev Memory := List Host.Cell

/-- The host agent (10_state.md R20): its program, the line it is at, how far it is in an `MW` or `MR` that it does byte by
byte (20_memory.md R70), the bytes an `MR` has read so far, and its variables, by strictly rising number. -/
structure HostAgent where
  program : List Line
  pc : Nat
  progress : Nat
  gathered : List Byte
  vars : List (Nat × HostValue)
  deriving DecidableEq, Repr

/-- A host with no program. -/
def HostAgent.empty : HostAgent :=
  { program := [], pc := 0, progress := 0, gathered := [], vars := [] }

/-- The machine's state. ID and CTRL hold nothing (they read a constant and 0, 10_state.md R23, R24); STATUS.BUSY is the
phase of the core (R45). -/
structure State where
  /-- the parameters of 00_scope.md R7 -/
  params : Params
  /-- CMD, the last accepted command word (10_state.md R25) -/
  cmd : Word
  /-- STATUS (10_state.md R26) -/
  status : Status
  /-- SRC (10_state.md R28) -/
  src : Word
  /-- LEN (10_state.md R30) -/
  len : Word
  /-- DST (10_state.md R31) -/
  dst : Word
  /-- DST_CAP (10_state.md R32) -/
  dstCap : Word
  /-- RESULT_LO (10_state.md R33) -/
  resultLo : Word
  /-- RESULT_HI (10_state.md R33) -/
  resultHi : Word
  /-- ERR_POS (10_state.md R34) -/
  errPos : Word
  /-- buffer memory (20_memory.md R60) -/
  mem : Memory
  /-- the `rst` input is asserted (10_state.md R41, 70_reset_and_hazards.md R244) -/
  rst : Bool
  /-- the host wrote a byte of the running command's input buffer (20_memory.md R73) -/
  srcDisturbed : Bool
  /-- the bytes of the running command's need range that the host wrote, by rising address (20_memory.md R73) -/
  outDisturbed : List Nat
  /-- how many free values have been drawn: the model's own (log entry 3) -/
  draws : Nat
  /-- the host agent -/
  host : HostAgent
  /-- the turns that are still to be taken, in order (20_memory.md R70) -/
  schedule : List Turn
  deriving DecidableEq, Repr

/-- Why the machine stops with a fault. -/
inductive Fault where
  /-- The host agent's `MW` or `MR` names an address outside `0 .. MEM_SIZE-1`, which does not exist (20_memory.md R60).
  Raised by the host's memory accesses only, never by a command. Safe (log entry 13). -/
  | hostAddressOutsideMemory (a : Nat)
  deriving DecidableEq, Repr

/-- Why the machine has no step. -/
inductive Refusal where
  /-- An instruction without a meaning; no arm of `exec` answers it. Safe. -/
  | notModelled (mnemonic : String)
  /-- A register port transaction that is not 32 bits wide or not at a multiple of 4: a bus error with no state change,
  which "the model refuses" (10_state.md R42). Raised by the host's register accesses. Safe. -/
  | busError (a : Nat) (size : Nat)
  /-- A register access at a platform address outside `BASE + 0x00 .. BASE + 0xFF`: another device of the platform, which
  the spec does not describe (60_exceptions.md R216). Raised by the host's register accesses. Safe (log entry 12). -/
  | notThisBlock (a : Nat)
  /-- A host branch names a label its program does not have (30_encoding.md R96 gives it no meaning). Raised by the
  host's lines. Safe (log entry 12). -/
  | hostLabelMissing (l : Nat)
  deriving DecidableEq, Repr

namespace State

/-- The state after reset on a platform with parameters `p` and buffer memory `m` (70_reset_and_hazards.md R240, R243),
with no host program. -/
def resetOn (p : Params) (m : Memory) : State :=
  { params := p, cmd := 0x00000000#32, status := Status.idle, src := 0x00000000#32, len := 0x00000000#32,
    dst := 0x00000000#32, dstCap := 0x00000000#32, resultLo := 0x00000000#32, resultHi := 0x00000000#32,
    errPos := 0x00000000#32, mem := m, rst := false, srcDisturbed := false, outDisturbed := [], draws := 0,
    host := HostAgent.empty, schedule := [] }

/-- The machine right after reset (70_reset_and_hazards.md R240, R241), memory with nothing listed (log entry 2). -/
def reset : State := resetOn Params.hardware []

/-! The updates the operations are made of; their laws are in Laws/State.lean. -/

/-- CMD. -/
def setCmd (s : State) (w : Word) : State := { s with cmd := w }
/-- STATUS. -/
def setStatus (s : State) (st : Status) : State := { s with status := st }
/-- SRC. -/
def setSrc (s : State) (w : Word) : State := { s with src := w }
/-- LEN. -/
def setLen (s : State) (w : Word) : State := { s with len := w }
/-- DST. -/
def setDst (s : State) (w : Word) : State := { s with dst := w }
/-- DST_CAP. -/
def setDstCap (s : State) (w : Word) : State := { s with dstCap := w }
/-- RESULT_LO and RESULT_HI. -/
def setResult (s : State) (lo hi : Word) : State := { s with resultLo := lo, resultHi := hi }
/-- ERR_POS. -/
def setErrPos (s : State) (w : Word) : State := { s with errPos := w }
/-- Buffer memory. -/
def setMem (s : State) (m : Memory) : State := { s with mem := m }
/-- The `rst` input. -/
def setRst (s : State) (b : Bool) : State := { s with rst := b }
/-- The record of the host's accesses to a running command's buffers. -/
def setDisturbance (s : State) (inS : Bool) (inW : List Nat) : State := { s with srcDisturbed := inS, outDisturbed := inW }
/-- The count of free draws. -/
def setDraws (s : State) (k : Nat) : State := { s with draws := k }
/-- The host agent. -/
def setHost (s : State) (h : HostAgent) : State := { s with host := h }
/-- The schedule. -/
def setSchedule (s : State) (ts : List Turn) : State := { s with schedule := ts }

end State

end Sys2Proof.Machine
end

