-- ==== Sys2Proof/Machine/Flags.lean ====
section
/-! DEFINITION. STATUS: the codes of its causes (10_state.md R37), its word (R26), and the flags each event leaves: an
accepted command (R25) and the four ways a command ends (60_exceptions.md R203 to R206). -/

namespace Sys2Proof.Machine

/-- The code of an error cause (10_state.md R37). -/
def ErrCause.code : ErrCause → BitVec 4
  | .none => 0#4
  | .illegalCmd => 1#4
  | .length => 2#4
  | .badChar => 3#4
  | .badPad => 4#4
  | .nonCanon => 5#4

/-- The code of a fault cause (10_state.md R37). -/
def FaultCause.code : FaultCause → BitVec 4
  | .none => 0#4
  | .srcRange => 1#4
  | .dstRange => 2#4
  | .overlap => 3#4
  | .capacity => 4#4

/-- The word STATUS reads (10_state.md R26): FAULT_CAUSE, ERR_CAUSE, FAULT, ERR, DONE, BUSY below 20 reserved bits. -/
def Status.toWord (st : Status) : Word :=
  0#20 ++ st.faultCause.code ++ st.errCause.code ++
    BitVec.ofBool st.fault ++ BitVec.ofBool st.err ++ BitVec.ofBool st.done ++ BitVec.ofBool st.busy

/-- The flags when a command is accepted (10_state.md R25). -/
def Status.accept (st : Status) : Status :=
  { st with done := false, err := false, errCause := .none, busy := true }

/-- The flags after `Finish` (60_exceptions.md R203). -/
def Status.finish (st : Status) : Status := { st with busy := false, done := true }

/-- The flags after an error of the given cause (60_exceptions.md R204, R205). -/
def Status.raiseError (st : Status) (c : ErrCause) : Status := { st with errCause := c, busy := false, err := true }

/-- The flags after a contract fault (60_exceptions.md R206). -/
def Status.raiseFault (st : Status) (c : FaultCause) : Status :=
  { st with faultCause := c, busy := false, fault := true }

end Sys2Proof.Machine
end

