-- ==== Sys2Proof/Machine/Memory.lean ====
section
/-! DEFINITION. Buffer memory (20_memory.md R60 to R67): one byte is read or written at a time, and every wider access is
made of these. Its canonical form, the writes of a run of bytes, and the filling of a range with free bytes. -/

namespace Sys2Proof.Machine

/-- `MemRead(a, 1)` (20_memory.md R63). -/
def Memory.read : Memory → Nat → Byte
  | [], _ => Config.powerOnByte
  | (k, b) :: rest, a => if a = k then b else if a < k then Config.powerOnByte else Memory.read rest a

/-- The cell of address `a` in front of `rest`, unless `v` is what an unlisted address reads as. -/
def Memory.cons (a : Nat) (v : Byte) (rest : Memory) : Memory :=
  if v = Config.powerOnByte then rest else (a, v) :: rest

/-- `MemWrite(a, 1, v)` (20_memory.md R63). -/
def Memory.write : Memory → Nat → Byte → Memory
  | [], a, v => Memory.cons a v []
  | (k, b) :: rest, a, v =>
    if a = k then Memory.cons a v rest
    else if a < k then Memory.cons a v ((k, b) :: rest)
    else (k, b) :: Memory.write rest a v

/-- Every listed address lies at or above `lo`, the addresses rise, and no cell holds what an unlisted one reads as. -/
def Memory.wfFrom : Nat → Memory → Bool
  | _, [] => true
  | lo, (k, b) :: rest => decide (lo ≤ k) && decide (b ≠ Config.powerOnByte) && Memory.wfFrom (k + 1) rest

/-- The canonical form of a memory. -/
def Memory.wf (m : Memory) : Bool := Memory.wfFrom 0 m

/-- Every listed address exists: it lies in `0 .. size-1` (20_memory.md R60). -/
def Memory.inside (size : Nat) (m : Memory) : Bool := m.all (fun c => decide (c.1 < size))

/-- Bytes written at `a, a+1, …` in order (20_memory.md R62). -/
def Memory.writeBytes : Memory → Nat → List Byte → Memory
  | m, _, [] => m
  | m, a, b :: bs => Memory.writeBytes (Memory.write m a b) (a + 1) bs

/-- The `count` bytes from `a` take free values, drawn from `d` on, each byte its own draw (00_scope.md R10). -/
def Memory.fill : Memory → Nat → Nat → Nat → Memory
  | m, _, _, 0 => m
  | m, a, d, count + 1 => Memory.fill (Memory.write m a (Config.freeByte d)) (a + 1) (d + 1) count

/-- The listed bytes take free values, drawn from `d` on, each byte its own draw (00_scope.md R10). -/
def Memory.fillAt : Memory → Nat → List Nat → Memory
  | m, _, [] => m
  | m, d, a :: rest => Memory.fillAt (Memory.write m a (Config.freeByte d)) (d + 1) rest

end Sys2Proof.Machine
end

