-- ==== Sys2Proof/Decode.lean ====
section
/-! DEFINITION. The command word: its fields (30_encoding.md R90), the decoder, total on 32-bit words (R92, R94), then the
encoder from the same map (R91), and the names a disassembler prints (R96). -/

namespace Sys2Proof

/-- `OPC`, bits 3:0 of the command word (30_encoding.md R90). -/
def opcField (w : Word) : BitVec 4 := w.extractLsb' 0 4

/-- `RSVD`, bits 31:4 of the command word (30_encoding.md R90). -/
def rsvdField (w : Word) : BitVec 28 := w.extractLsb' 4 28

/-- The command an operation code names (30_encoding.md R91). -/
def commandOfOpc (opc : BitVec 4) : Option Instr :=
  if opc = 0x1#4 then some .encode
  else if opc = 0x2#4 then some .decode
  else if opc = 0x3#4 then some .encodeLen
  else if opc = 0x4#4 then some .decodeLen
  else none

/-- The decoder (30_encoding.md R92, R94): a word with a reserved bit set names no command, nor does one whose operation
code is 0 or above 4. -/
def decode (w : Word) : Option Instr :=
  if rsvdField w = 0#28 then commandOfOpc (opcField w) else none

/-- The operation code of a command (30_encoding.md R91). -/
def opcOf : Instr → BitVec 4
  | .encode => 0x1#4
  | .decode => 0x2#4
  | .encodeLen => 0x3#4
  | .decodeLen => 0x4#4

/-- The command word: `RSVD = 0` above `OPC` (30_encoding.md R90, R91). -/
def encode (i : Instr) : Word := 0#28 ++ opcOf i

/-- The table's name of a command (30_encoding.md R91). -/
def mnemonic : Instr → String
  | .encode => "ENCODE"
  | .decode => "DECODE"
  | .encodeLen => "ENCODE_LEN"
  | .decodeLen => "DECODE_LEN"

/-- A hexadecimal digit, capital letters (30_encoding.md R96: `.word 0xXXXXXXXX`). -/
def hexDigit (d : BitVec 4) : Char :=
  if d.toNat < 10 then Char.ofNat (0x30 + d.toNat) else Char.ofNat (0x37 + d.toNat)

/-- The eight hexadecimal digits of a word, most significant first. -/
def hexWord (w : Word) : List Char :=
  [hexDigit (w.extractLsb' 28 4), hexDigit (w.extractLsb' 24 4), hexDigit (w.extractLsb' 20 4),
   hexDigit (w.extractLsb' 16 4), hexDigit (w.extractLsb' 12 4), hexDigit (w.extractLsb' 8 4),
   hexDigit (w.extractLsb' 4 4), hexDigit (w.extractLsb' 0 4)]

/-- What a disassembler prints for an accepted word: its mnemonic, or `.word 0xXXXXXXXX` (30_encoding.md R96). -/
def disassemble (w : Word) : String :=
  match decode w with
  | some i => mnemonic i
  | none => ".word 0x" ++ String.ofList (hexWord w)

/-- The instruction this decoder reads from a table row's bits: every command is one 32-bit word, so the number is the
word, and a number of more than 32 bits is none (30_encoding.md R95). -/
def decodeTableWord (_nbits w : Nat) : Option Instr :=
  if w < 2 ^ 32 then decode (BitVec.ofNat 32 w) else none

end Sys2Proof
end

