-- ==== Sys2Proof/Machine/Operands.lean ====
section
/-! DEFINITION. The operands of a command as naturals (30_encoding.md R93), the length functions (40_length.md R110,
R111), and the ranges of addresses a command reads and may write (20_memory.md R62, 00_scope.md R14). -/

namespace Sys2Proof.Machine

/-- `src = x[SRC]` (30_encoding.md R93). -/
def State.srcN (s : State) : Nat := s.src.toNat
/-- `n = x[LEN]` (30_encoding.md R93). -/
def State.lenN (s : State) : Nat := s.len.toNat
/-- `dst = x[DST]` (30_encoding.md R93). -/
def State.dstN (s : State) : Nat := s.dst.toNat
/-- `cap = x[DST_CAP]` (30_encoding.md R93). -/
def State.capN (s : State) : Nat := s.dstCap.toNat

/-- `encode_len` (40_length.md R110). -/
def encodeLen (n : Nat) : Nat := ((n + 2) / 3) * 4

/-- `decode_len` (40_length.md R111). -/
def decodeLen (n : Nat) : Nat := (n / 4) * 3

/-- A run of consecutive addresses, `[base, base + size)` (20_memory.md R62). -/
structure Range where
  base : Nat
  size : Nat
  deriving DecidableEq, Repr

/-- The address lies in the range. -/
def Range.has (r : Range) (a : Nat) : Bool := decide (r.base ≤ a) && decide (a < r.base + r.size)

/-- A range with no address, for a command that touches no memory. -/
def Range.none : Range := { base := 0, size := 0 }

/-- The part of a range that lies in a memory of `size` bytes: all of it when the contract check passes (60_exceptions.md
R207). -/
def Range.within (r : Range) (size : Nat) : Range := { base := r.base, size := min r.size (size - r.base) }

/-- The command that CMD holds; `none` for an illegal word (30_encoding.md R92, R94). -/
def State.command (s : State) : Option Instr := Sys2Proof.decode s.cmd

/-- How many bytes from DST a command may write (00_scope.md R14). -/
def needLen : Instr → Nat → Nat
  | .encode, n => encodeLen n
  | .decode, n => decodeLen n
  | .encodeLen, _ => 0
  | .decodeLen, _ => 0

/-- The command reads and writes buffer memory (20_memory.md R63). -/
def usesBuffers : Instr → Bool
  | .encode => true
  | .decode => true
  | .encodeLen => false
  | .decodeLen => false

/-- The need range `W` of a command (00_scope.md R14); empty for one that has no buffers (20_memory.md R73). -/
def needRangeOf (i : Instr) (s : State) : Range :=
  if usesBuffers i then { base := s.dstN, size := needLen i s.lenN } else Range.none

/-- The input buffer `S` of a command (20_memory.md R62); empty for one that has no buffers (R73). -/
def inputRangeOf (i : Instr) (s : State) : Range :=
  if usesBuffers i then { base := s.srcN, size := s.lenN } else Range.none

/-- The need range of the command in CMD; empty for an illegal word (20_memory.md R73). -/
def State.needRange (s : State) : Range :=
  match s.command with
  | some i => needRangeOf i s
  | Option.none => Range.none

/-- The input buffer of the command in CMD; empty for an illegal word (20_memory.md R73). -/
def State.inputRange (s : State) : Range :=
  match s.command with
  | some i => inputRangeOf i s
  | Option.none => Range.none

end Sys2Proof.Machine
end

