-- ==== Sys2Proof/Machine/Ops.lean ====
section
/-! DEFINITION. The shared operations: the contract check (60_exceptions.md R207), the acceptance of a command (10_state.md
R25), the four ways a command ends (R203 to R206), the free values of a disturbed or aborted command (20_memory.md R73,
70_reset_and_hazards.md R242), and reset (R240). -/

namespace Sys2Proof.Machine

/-- `CheckContract` (60_exceptions.md R207, R208): the first condition that fails, in the order of the rule. -/
def checkContract (p : Params) (src n dst cap need : Nat) : Option FaultCause :=
  if src + n > p.memSize then some .srcRange
  else if dst + cap > p.memSize then some .dstRange
  else if n > 0 ∧ cap > 0 ∧ src < dst + cap ∧ dst < src + n then some .overlap
  else if cap < need then some .capacity
  else none

/-- `CheckContract` on a command's operands: ENCODE asks for `encode_len(n)` bytes, DECODE for `decode_len(n)`; the
length commands check nothing (60_exceptions.md R207, 40_length.md R112, R113). -/
def contractOf (i : Instr) (s : State) : Option FaultCause :=
  if usesBuffers i then checkContract s.params s.srcN s.lenN s.dstN s.capN (needLen i s.lenN) else none

/-- The record of the host's accesses is empty: no buffer of the running command was touched (20_memory.md R73). -/
def State.clearDisturbance (s : State) : State := s.setDisturbance false []

/-- A command word is accepted (10_state.md R25). -/
def acceptCommand (w : Word) (s : State) : State :=
  (((s.setCmd w).setStatus s.status.accept).setResult 0#32 0#32).setErrPos 0#32 |>.clearDisturbance

/-- `Finish(r)` (60_exceptions.md R203). The command is over, so the record of R73 is dropped (10_state.md R45). -/
def finish (r : Nat) (s : State) : State :=
  ((s.setResult (BitVec.ofNat 32 r) (BitVec.ofNat 32 (r / 2 ^ 32))).setStatus s.status.finish).clearDisturbance

/-- The bytes of a range take free values (00_scope.md R10), and the draws are counted. -/
def scramble (r : Range) (s : State) : State :=
  (s.setMem (Memory.fill s.mem r.base s.draws r.size)).setDraws (s.draws + r.size)

/-- Every byte of a command's need range that exists takes a free value: what a host write to its input while it runs
leaves (20_memory.md R73). -/
def scrambleNeed (i : Instr) (s : State) : State := scramble ((needRangeOf i s).within s.params.memSize) s

/-- The bytes of the need range that the host wrote while the command ran hold free values after it, whatever its outcome
(20_memory.md R73, log entry 8). -/
def redrawDisturbed (s : State) : State :=
  (s.setMem (Memory.fillAt s.mem s.draws s.outDisturbed)).setDraws (s.draws + s.outDisturbed.length)

/-- An error ends the command, with no memory touched: the register part of 60_exceptions.md R204, and all of R205. -/
def endWithError (c : ErrCause) (pos : Nat) (s : State) : State :=
  (((s.setResult 0#32 0#32).setErrPos (BitVec.ofNat 32 pos)).setStatus (s.status.raiseError c)).clearDisturbance

/-- `raise DecodeError(cause, pos)` (60_exceptions.md R204): for every cause but LENGTH the bytes
`[DST, DST + decode_len(LEN))` take free values. -/
def raiseDecodeError (c : ErrCause) (pos : Nat) (s : State) : State :=
  endWithError c pos (if c = .length then s else scramble { base := s.dstN, size := decodeLen s.lenN } s)

/-- `raise IllegalCommand()` (60_exceptions.md R205). -/
def raiseIllegalCommand (s : State) : State := endWithError .illegalCmd 0 s

/-- `raise ContractFault(cause)` (60_exceptions.md R206). -/
def raiseContractFault (c : FaultCause) (s : State) : State :=
  (((s.setResult 0#32 0#32).setErrPos 0#32).setStatus (s.status.raiseFault c)).clearDisturbance

/-- What an abort leaves in memory (70_reset_and_hazards.md R242): the need range of a running ENCODE or DECODE whose
operands pass the contract check takes free values; otherwise memory is unchanged. -/
def abortRunning (s : State) : State :=
  if s.status.busy then
    match s.command with
    | some i => if contractOf i s = none then scramble (needRangeOf i s) s else s
    | none => s
  else s

/-- Every register at its reset value, and the phase IDLE (70_reset_and_hazards.md R240). -/
def clearRegisters (s : State) : State :=
  ((((((((s.setCmd 0#32).setStatus Status.idle).setSrc 0#32).setLen 0#32).setDst 0#32).setDstCap 0#32).setResult 0#32
    0#32).setErrPos 0#32).clearDisturbance

/-- Reset, from the `rst` input or CTRL.SRST (70_reset_and_hazards.md R240). -/
def resetCore (s : State) : State := clearRegisters (abortRunning s)

end Sys2Proof.Machine
end

