-- ==== Sys2Proof/WellFormed.lean ====
section
/-! DEFINITION. The well-formedness of what is given to the machine: commands, parameters (10_state.md R38) and the
register accesses of host lines (10_state.md R42). -/

namespace Sys2Proof

/-- A command has no operand fields, so every one is well formed (30_encoding.md R93, R95). -/
def Instr.wellFormed : Instr → Bool
  | .encode => true
  | .decode => true
  | .encodeLen => true
  | .decodeLen => true

/-- The 62 data characters that are no parameter: `A..Z`, `a..z`, `0..9` (10_state.md R38). -/
def isFixedDataChar (c : Byte) : Bool :=
  (decide (0x41 ≤ c.toNat) && decide (c.toNat ≤ 0x5A)) ||
  (decide (0x61 ≤ c.toNat) && decide (c.toNat ≤ 0x7A)) ||
  (decide (0x30 ≤ c.toNat) && decide (c.toNat ≤ 0x39))

/-- The constraint of 10_state.md R38 on `ALPHA_62` and `ALPHA_63`: distinct from each other, from the other 62 entries
and from the pad. -/
def Params.wellFormed (p : Params) : Bool :=
  decide (p.alpha62 ≠ p.alpha63) &&
  !isFixedDataChar p.alpha62 && !isFixedDataChar p.alpha63 &&
  decide (p.alpha62 ≠ Config.padChar) && decide (p.alpha63 ≠ Config.padChar)

namespace Machine

/-- A register port transaction that has a meaning: 32 bits, at a multiple of 4 (10_state.md R42). -/
def regularAccess (off : Offset) (size : Nat) : Bool :=
  decide (size = 32) && decide (off.toNat % 4 = 0)

/-- A host line whose register access, if it makes one, is of this block's port (10_state.md R41, R42). -/
def Line.wellFormed (cfg : Params) : Line → Bool
  | .wr a size _ => (portOffset cfg a).any (regularAccess · size)
  | .rd a size _ => (portOffset cfg a).any (regularAccess · size)
  | .mw _ _ => true
  | .mr _ _ _ => true
  | .label _ => true
  | .ifGoto _ _ => true

end Machine

end Sys2Proof
end

