-- ==== Sys2Proof/Machine/Tables.lean ====
section
/-! DEFINITION. The two constant tables (10_state.md R38 to R40): the alphabet `A` and the reverse table `Rv`. They are
functions of the parameters alone, which no step changes, so they are ROM. -/

namespace Sys2Proof.Machine

/-- The encode table `A` (10_state.md R38). -/
def alphabet (p : Params) (v : Sextet) : Byte :=
  if v.toNat ≤ 25 then BitVec.ofNat 8 (0x41 + v.toNat)
  else if v.toNat ≤ 51 then BitVec.ofNat 8 (0x47 + v.toNat)
  else if v.toNat ≤ 61 then BitVec.ofNat 8 (v.toNat - 4)
  else if v.toNat = 62 then p.alpha62
  else p.alpha63

/-- The classes of an input character (42_decoder.md R160). -/
inductive CharClass where
  | data (v : Sextet)
  | pad
  | invalid
  deriving DecidableEq, Repr

/-- The reverse table `Rv` (10_state.md R39). -/
def reverse (p : Params) (c : Byte) : CharClass :=
  if 0x41 ≤ c.toNat ∧ c.toNat ≤ 0x5A then .data (BitVec.ofNat 6 (c.toNat - 0x41))
  else if 0x61 ≤ c.toNat ∧ c.toNat ≤ 0x7A then .data (BitVec.ofNat 6 (c.toNat - 0x47))
  else if 0x30 ≤ c.toNat ∧ c.toNat ≤ 0x39 then .data (BitVec.ofNat 6 (c.toNat + 4))
  else if c = p.alpha62 then .data 62#6
  else if c = p.alpha63 then .data 63#6
  else if c = Config.padChar then .pad
  else .invalid

end Sys2Proof.Machine
end

