-- ==== Sys2Proof/Machine/Encoder.lean ====
section
/-! DEFINITION. The encoder datapath (41_encoder.md R130 to R134) and ENCODE (R135). -/

namespace Sys2Proof.Machine

/-- The number of encode groups, `ceil(n/3)` (41_encoder.md R130). -/
def encodeGroups (n : Nat) : Nat := (n + 2) / 3

/-- How many input bytes group `g` has (41_encoder.md R130). -/
def groupBytes (n g : Nat) : Nat := min 3 (n - 3 * g)

/-- The 24 bits of a group, first byte most significant (41_encoder.md R131). -/
def packBytes (b0 b1 b2 : Byte) : Group24 := b0 ++ b1 ++ b2

/-- The four sextets of a group (41_encoder.md R131). -/
structure Sextets where
  s0 : Sextet
  s1 : Sextet
  s2 : Sextet
  s3 : Sextet
  deriving DecidableEq, Repr

/-- The bitfield split of 24 bits (41_encoder.md R131). -/
def splitSextets (w : Group24) : Sextets :=
  { s0 := w.extractLsb' 18 6, s1 := w.extractLsb' 12 6, s2 := w.extractLsb' 6 6, s3 := w.extractLsb' 0 6 }

/-- `ENC_GROUP(b0, b1, b2, k)`: the four characters of a group of `k` bytes (41_encoder.md R131 to R134). -/
def encGroup (p : Params) (b0 b1 b2 : Byte) (k : Nat) : List Byte :=
  let c := splitSextets (packBytes b0 (if k < 2 then 0#8 else b1) (if k < 3 then 0#8 else b2))
  [alphabet p c.s0,
   alphabet p c.s1,
   if k ≥ 2 then alphabet p c.s2 else Config.padChar,
   if k = 3 then alphabet p c.s3 else Config.padChar]

/-- The characters of group `g` of the `n` input bytes at `src`: the reads of one turn of the loop of 41_encoder.md
R135. -/
def encodedGroup (p : Params) (m : Memory) (src n g : Nat) : List Byte :=
  let k := groupBytes n g
  encGroup p (m.read (src + 3 * g)) (if k ≥ 2 then m.read (src + 3 * g + 1) else 0#8)
    (if k = 3 then m.read (src + 3 * g + 2) else 0#8) k

/-- The loop of 41_encoder.md R135 over `count` groups from group `g` on, in increasing `g`. -/
def encodeLoop (p : Params) (src n dst : Nat) : Nat → Nat → Memory → Memory
  | 0, _, m => m
  | count + 1, g, m =>
    encodeLoop p src n dst count (g + 1) (m.writeBytes (dst + 4 * g) (encodedGroup p m src n g))

/-- ENCODE of an input buffer the host wrote while the command ran (20_memory.md R73): DONE, with every byte of the need
range free. When the contract fails, R73 and 60_exceptions.md R207 disagree, and which of DONE and the fault happens is a
free choice; never a DONE whose RESULT_HI is not 0, which 10_state.md R33 excludes (log entry 8). -/
def encodeDisturbed (s : State) : State :=
  let u := scrambleNeed .encode s
  match contractOf .encode s with
  | none => finish (encodeLen s.lenN) u
  | some c =>
    if encodeLen s.lenN < 2 ^ 32 ∧ Config.freeBool u.draws = true then
      finish (encodeLen s.lenN) (u.setDraws (u.draws + 1))
    else raiseContractFault c (u.setDraws (u.draws + 1))

/-- ENCODE of an input buffer that stood still: the contract check, then the loop (41_encoder.md R135). The bytes of the need
range that the host wrote hold free values after it (20_memory.md R73). -/
def encodeExact (s : State) : State :=
  match contractOf .encode s with
  | some c => raiseContractFault c (redrawDisturbed s)
  | none =>
    finish (4 * encodeGroups s.lenN)
      (redrawDisturbed (s.setMem (encodeLoop s.params s.srcN s.lenN s.dstN (encodeGroups s.lenN) 0 s.mem)))

/-- ENCODE (41_encoder.md R135). -/
def execEncode (s : State) : Host.Outcome State Fault Refusal :=
  if s.srcDisturbed then .next (encodeDisturbed s) else .next (encodeExact s)

end Sys2Proof.Machine
end

