-- ==== Sys2Proof/Machine/Decoder.lean ====
section
/-! DEFINITION. The decoder datapath: the validation state machine of a group (42_decoder.md R163, R164), the pack (R166),
the unused-bits check (R167), the group function (R168), and DECODE (R169). -/

namespace Sys2Proof.Machine

/-- The states of the validation of one group (42_decoder.md R163). -/
inductive DecState where
  | expectChar1
  | expectChar2
  | expectChar3OrPad
  | expectChar4OrPad
  | expectPad4
  | done (cnt : Nat)
  | error (cause : ErrCause)
  deriving DecidableEq, Repr

/-- A pad where no pad may stand, or a character that is neither data nor pad (42_decoder.md R164). -/
def misplaced : CharClass → DecState
  | .invalid => .error .badChar
  | .pad => .error .badPad
  | .data _ => .error .badPad

/-- The transition table of 42_decoder.md R164: the next state, and the group's sextets. The cell the rule says cannot
occur (a pad in EXPECT_PAD_4 of a group that is not final) is an error as the rest of its column (log entry 9). -/
def decTransition (final : Bool) : DecState → Sextets → CharClass → DecState × Sextets
  | .expectChar1, r, .data v => (.expectChar2, { r with s0 := v })
  | .expectChar1, r, c => (misplaced c, r)
  | .expectChar2, r, .data v => (.expectChar3OrPad, { r with s1 := v })
  | .expectChar2, r, c => (misplaced c, r)
  | .expectChar3OrPad, r, .data v => (.expectChar4OrPad, { r with s2 := v })
  | .expectChar3OrPad, r, .pad => if final then (.expectPad4, { r with s2 := 0#6 }) else (misplaced .pad, r)
  | .expectChar3OrPad, r, .invalid => (misplaced .invalid, r)
  | .expectChar4OrPad, r, .data v => (.done 3, { r with s3 := v })
  | .expectChar4OrPad, r, .pad => if final then (.done 2, { r with s3 := 0#6 }) else (misplaced .pad, r)
  | .expectChar4OrPad, r, .invalid => (misplaced .invalid, r)
  | .expectPad4, r, .pad => if final then (.done 1, { r with s3 := 0#6 }) else (misplaced .pad, r)
  | .expectPad4, r, c => (misplaced c, r)
  | .done cnt, r, _ => (.done cnt, r)
  | .error e, r, _ => (.error e, r)

/-- What the group function answers (42_decoder.md R168). -/
inductive GroupResult where
  | ok (o0 o1 o2 : Byte) (cnt : Nat)
  | err (cause : ErrCause) (pos : Nat)
  deriving DecidableEq, Repr

/-- The pack: three bytes of four sextets (42_decoder.md R166). -/
def packSextets (r : Sextets) : Group24 := r.s0 ++ r.s1 ++ r.s2 ++ r.s3

/-- The position whose unused bits are not zero in a group that yields `cnt` bytes (42_decoder.md R167). -/
def unusedBitsAt (r : Sextets) (cnt : Nat) : Option Nat :=
  if cnt = 1 ∧ r.s1.extractLsb' 0 4 ≠ 0#4 then some 1
  else if cnt = 2 ∧ r.s2.extractLsb' 0 2 ≠ 0#2 then some 2
  else none

/-- A group in DONE(cnt): the unused-bits check and the pack (42_decoder.md R166, R167). -/
def closeGroup (p : Params) (r : Sextets) (cnt : Nat) : GroupResult :=
  match (if p.strictUnusedBits then unusedBitsAt r cnt else none) with
  | some pos => .err .nonCanon pos
  | none =>
    let w := packSextets r
    .ok (w.extractLsb' 16 8) (w.extractLsb' 8 8) (w.extractLsb' 0 8) cnt

/-- The scan of a group's characters from position `pos` on, in order (42_decoder.md R165, R168): the first character
whose transition is ERROR ends it. -/
def decScan (p : Params) (final : Bool) : List Byte → Nat → DecState → Sextets → GroupResult
  | [], pos, st, r =>
    match st with
    | .done cnt => closeGroup p r cnt
    | _ => .err .badPad pos
  | c :: cs, pos, st, r =>
    match decTransition final st r (reverse p c) with
    | (.error cause, _) => .err cause pos
    | (st', r') => decScan p final cs (pos + 1) st' r'

/-- `DEC_GROUP(c0, c1, c2, c3, final)` (42_decoder.md R168). -/
def decGroup (p : Params) (c0 c1 c2 c3 : Byte) (final : Bool) : GroupResult :=
  decScan p final [c0, c1, c2, c3] 0 .expectChar1 { s0 := 0#6, s1 := 0#6, s2 := 0#6, s3 := 0#6 }

/-- The number of decode groups (42_decoder.md R162). -/
def decodeGroups (n : Nat) : Nat := n / 4

/-- The group function on group `g` of the characters at `src` (42_decoder.md R169). -/
def decodedGroup (p : Params) (m : Memory) (src groups g : Nat) : GroupResult :=
  decGroup p (m.read (src + 4 * g)) (m.read (src + 4 * g + 1)) (m.read (src + 4 * g + 2)) (m.read (src + 4 * g + 3))
    (decide (g = groups - 1))

/-- What the loop of 42_decoder.md R169 comes to: the bytes written and memory, or the first error and its offset. -/
inductive DecodeRun where
  | ok (total : Nat) (m : Memory)
  | err (cause : ErrCause) (pos : Nat)
  deriving DecidableEq, Repr

/-- The loop of 42_decoder.md R169 over `count` groups from group `g` on, in increasing `g`. -/
def decodeLoop (p : Params) (src dst groups : Nat) : Nat → Nat → Nat → Memory → DecodeRun
  | 0, _, total, m => .ok total m
  | count + 1, g, total, m =>
    match decodedGroup p m src groups g with
    | .err cause pos => .err cause (4 * g + pos)
    | .ok o0 o1 o2 cnt =>
      decodeLoop p src dst groups count (g + 1) (total + cnt) (m.writeBytes (dst + 3 * g) ([o0, o1, o2].take cnt))

/-- An error cause drawn from BAD_CHAR, BAD_PAD and NONCANON, the codes 3, 4 and 5 (20_memory.md R73). -/
def freeErrCause (k : Nat) : ErrCause :=
  if Config.freeNat k % 3 = 0 then .badChar else if Config.freeNat k % 3 = 1 then .badPad else .nonCanon

/-- The end of a DECODE whose input the host wrote (20_memory.md R73), its memory set: DONE with a free result in
`[0, decode_len(n)]`, or ERR with a free cause and a free position in `[0, n)`, from draw `k` on (log entry 15). -/
def freeDecodeOutcome (k : Nat) (s : State) : State :=
  if Config.freeBool k then finish (Config.freeNat (k + 1) % (decodeLen s.lenN + 1)) s
  else endWithError (freeErrCause (k + 1)) (Config.freeNat (k + 2) % s.lenN) s

/-- DECODE of an input buffer the host wrote while the command ran (20_memory.md R73): one of that rule's outcomes, with every
byte of the need range free. When the contract fails or the length is no multiple of 4, R73 disagrees with 60_exceptions.md
R207 or 42_decoder.md R161, and whether the fault or LENGTH happens instead is a free choice (log entry 8). -/
def decodeDisturbed (s : State) : State :=
  let u := scrambleNeed .decode s
  let v := u.setDraws (u.draws + 4)
  match contractOf .decode s with
  | some c => if Config.freeBool u.draws then raiseContractFault c v else freeDecodeOutcome (u.draws + 1) v
  | none =>
    if s.lenN % 4 ≠ 0 ∧ Config.freeBool u.draws = true then raiseDecodeError .length 0 v
    else freeDecodeOutcome (u.draws + 1) v

/-- The characters of DECODE, after its checks (42_decoder.md R169). -/
def decodeGroupsExact (s : State) : State :=
  match decodeLoop s.params s.srcN s.dstN (decodeGroups s.lenN) (decodeGroups s.lenN) 0 0 s.mem with
  | .err cause pos => raiseDecodeError cause pos s
  | .ok total m => finish total (redrawDisturbed (s.setMem m))

/-- DECODE of an input buffer that stood still: the contract check, then the length, then the characters (42_decoder.md R169,
60_exceptions.md R208). The bytes of the need range that the host wrote hold free values after it (20_memory.md R73). -/
def decodeExact (s : State) : State :=
  match contractOf .decode s with
  | some c => raiseContractFault c (redrawDisturbed s)
  | none => if s.lenN % 4 ≠ 0 then raiseDecodeError .length 0 (redrawDisturbed s) else decodeGroupsExact s

/-- DECODE (42_decoder.md R169). -/
def execDecode (s : State) : Host.Outcome State Fault Refusal :=
  if s.srcDisturbed then .next (decodeDisturbed s) else .next (decodeExact s)

end Sys2Proof.Machine
end

