-- ==== Sys2Proof/Machine/Length.lean ====
section
/-! DEFINITION. The length calculators: ENCODE_LEN (40_length.md R112) and DECODE_LEN (R113). -/

namespace Sys2Proof.Machine

/-- ENCODE_LEN (40_length.md R112). -/
def execEncodeLen (s : State) : Host.Outcome State Fault Refusal := .next (finish (encodeLen s.lenN) s)

/-- DECODE_LEN (40_length.md R113). -/
def execDecodeLen (s : State) : Host.Outcome State Fault Refusal := .next (finish (decodeLen s.lenN) s)

end Sys2Proof.Machine
end

