-- ==== Sys2Proof/Machine/HostValues.lean ====
section
/-! DEFINITION. Host variables, and what the expressions and conditions of a host line stand for (30_encoding.md R96). Every
expression has a word and a byte string: where R96 does not say which, it is a free value of Config (log entry 12). -/

namespace Sys2Proof.Machine

/-- A host variable's value. -/
def getVar : List (Nat × HostValue) → Nat → Option HostValue
  | [], _ => none
  | (k, v) :: rest, x => if x = k then some v else getVar rest x

/-- A host variable is given a value; the list stays by strictly rising number. -/
def putVar : List (Nat × HostValue) → Nat → HostValue → List (Nat × HostValue)
  | [], x, v => [(x, v)]
  | (k, u) :: rest, x, v =>
    if x = k then (x, v) :: rest else if x < k then (x, v) :: (k, u) :: rest else (k, u) :: putVar rest x v

/-- The word a host value stands for. A single byte is its value, with zeros above; the word of any other byte string is
free (log entry 12). -/
def HostValue.toWord : HostValue → Word
  | .word w => w
  | .bytes [b] => b.setWidth 32
  | .bytes bs => Config.wordOfBytes bs

/-- The bytes a host value stands for. The four bytes of a word are free, since no rule gives a word an order of bytes
(20_memory.md R65; log entry 12). -/
def HostValue.toBytes : HostValue → List Byte
  | .word w => [Config.byteOfWord w 0, Config.byteOfWord w 1, Config.byteOfWord w 2, Config.byteOfWord w 3]
  | .bytes bs => bs

/-- The value of a host expression. A variable that no line has given a value holds a free word (log entry 12). -/
def HostExpr.value (e : HostExpr) (h : HostAgent) : HostValue :=
  match e with
  | .imm w => .word w
  | .bytes bs => .bytes bs
  | .var x => (getVar h.vars x).getD (.word (Config.unsetVariable x))

/-- The word of a host expression. -/
def HostExpr.word (e : HostExpr) (h : HostAgent) : Word := (e.value h).toWord

/-- The bytes of a host expression. -/
def HostExpr.byteList (e : HostExpr) (h : HostAgent) : List Byte := (e.value h).toBytes

/-- Equality of two host values: of two byte strings as strings, and otherwise of their words (log entry 4). -/
def HostValue.same : HostValue → HostValue → Bool
  | .bytes bs, .bytes cs => decide (bs = cs)
  | u, v => decide (u.toWord = v.toWord)

/-- The truth of a host condition (log entry 4). -/
def HostCond.eval (c : HostCond) (h : HostAgent) : Bool :=
  match c with
  | .eq a b => (a.value h).same (b.value h)
  | .lt a b => decide ((a.word h).toNat < (b.word h).toNat)
  | .bit a i => (a.word h).getLsbD i
  | .not d => !d.eval h
  | .and d e => d.eval h && e.eval h

/-- The index of a label's first line in a program, counted from `i` on (log entry 4). -/
def findLabel (l : Nat) : List Line → Nat → Option Nat
  | [], _ => none
  | .label k :: rest, i => if k = l then some i else findLabel l rest (i + 1)
  | .wr _ _ _ :: rest, i => findLabel l rest (i + 1)
  | .rd _ _ _ :: rest, i => findLabel l rest (i + 1)
  | .mw _ _ :: rest, i => findLabel l rest (i + 1)
  | .mr _ _ _ :: rest, i => findLabel l rest (i + 1)
  | .ifGoto _ _ :: rest, i => findLabel l rest (i + 1)

end Sys2Proof.Machine
end

