-- ==== Sys2Proof/Machine/HostPort.lean ====
section
/-! DEFINITION. What the host and the platform can do to the machine: the register port (10_state.md R42), the host's own
accesses to buffer memory (20_memory.md R70, R73), the `rst` input (70_reset_and_hazards.md R244), and the lines of a host
program (30_encoding.md R96). -/

namespace Sys2Proof.Machine

/-- The value a register reads (10_state.md R21 to R34). -/
def registerValue (s : State) : RegName → Word
  | .id => Config.idWord
  | .ctrl => 0x00000000#32
  | .cmd => s.cmd
  | .status => s.status.toWord
  | .src => s.src
  | .len => s.len
  | .dst => s.dst
  | .dstCap => s.dstCap
  | .resultLo => s.resultLo
  | .resultHi => s.resultHi
  | .errPos => s.errPos

/-- The reset value of a register (10_state.md R21). -/
def registerResetValue : RegName → Word
  | .id => Config.idWord
  | .ctrl => 0x00000000#32
  | .cmd => 0x00000000#32
  | .status => 0x00000000#32
  | .src => 0x00000000#32
  | .len => 0x00000000#32
  | .dst => 0x00000000#32
  | .dstCap => 0x00000000#32
  | .resultLo => 0x00000000#32
  | .resultHi => 0x00000000#32
  | .errPos => 0x00000000#32

/-- A 32-bit register read (10_state.md R42): a reserved offset reads 0. While `rst` is asserted, reads return the reset
values (70_reset_and_hazards.md R244). -/
def readRegister (s : State) (off : Offset) : Word :=
  match regAt off with
  | some r => if s.rst then registerResetValue r else registerValue s r
  | none => 0x00000000#32

/-- A host write to CMD (10_state.md R25): ignored while BUSY or FAULT is 1, accepted otherwise. -/
def writeCmd (v : Word) (s : State) : State :=
  if s.status.busy || s.status.fault then s else acceptCommand v s

/-- A host write to CTRL (10_state.md R24): SRST, bit 0, resets in every state. -/
def writeCtrl (v : Word) (s : State) : State := if v.getLsbD 0 then resetCore s else s

/-- A host write to a register (10_state.md R21): RO registers ignore it, and the operand registers do while a command
runs (R35). -/
def writeNamed (r : RegName) (v : Word) (s : State) : State :=
  match r with
  | .ctrl => writeCtrl v s
  | .cmd => writeCmd v s
  | .src => if s.status.busy then s else s.setSrc v
  | .len => if s.status.busy then s else s.setLen v
  | .dst => if s.status.busy then s else s.setDst v
  | .dstCap => if s.status.busy then s else s.setDstCap v
  | .id => s
  | .status => s
  | .resultLo => s
  | .resultHi => s
  | .errPos => s

/-- A 32-bit register write (10_state.md R42): ignored at a reserved offset, and while `rst` is asserted
(70_reset_and_hazards.md R244). -/
def writeRegister (off : Offset) (v : Word) (s : State) : State :=
  if s.rst then s
  else
    match regAt off with
    | some r => writeNamed r v s
    | none => s

/-- The address list with `a` in it, rising and without repeats. -/
def insertAddress (a : Nat) : List Nat → List Nat
  | [] => [a]
  | k :: rest => if a = k then k :: rest else if a < k then a :: k :: rest else k :: insertAddress a rest

/-- The host reads a byte of buffer memory (20_memory.md R70): the memory value, but a free value for a byte of the need
range of a running command (R73). DESIGN CHOICE (log entry 8): a byte that is also in the command's input, which only a
command whose contract fails can have, is read as a byte of the need range. -/
def hostMemRead (a : Nat) (s : State) : Byte × State :=
  if s.status.busy && s.needRange.has a then (Config.freeByte s.draws, s.setDraws (s.draws + 1))
  else (s.mem.read a, s)

/-- The host writes a byte of buffer memory (20_memory.md R70). While a command runs, a write to its input buffer or need
range is recorded for its completion (R73). -/
def hostMemWrite (a : Nat) (v : Byte) (s : State) : State :=
  (s.setMem (s.mem.write a v)).setDisturbance
    (s.srcDisturbed || (s.status.busy && s.inputRange.has a))
    (if s.status.busy && s.needRange.has a then insertAddress a s.outDisturbed else s.outDisturbed)

/-- The `rst` input changes (10_state.md R41, 70_reset_and_hazards.md R240, R244). -/
def driveRst (asserted : Bool) (s : State) : State :=
  if asserted then (resetCore s).setRst true else s.setRst false

/-- The host goes on to its next line. -/
def HostAgent.advance (h : HostAgent) : HostAgent := { h with pc := h.pc + 1, progress := 0, gathered := [] }

/-- The host stores a value in a variable and goes on to its next line. -/
def HostAgent.assign (h : HostAgent) (x : Nat) (v : HostValue) : HostAgent :=
  { h.advance with vars := putVar h.vars x v }

/-- A host register access at a platform address: `k` of the offset it names. Refused when the port has no meaning for the
access (10_state.md R42), and when the address is outside the register block (log entry 12). -/
def hostAccess (a size : Nat) (s : State) (k : Offset → State) : Host.Outcome State Fault Refusal :=
  match portOffset s.params a with
  | some off => if regularAccess off size then .next (k off) else .refused (.busError a size)
  | none => .refused (.notThisBlock a)

/-- `WR` (30_encoding.md R96). -/
def hostWr (a size : Nat) (v : HostExpr) (s : State) : Host.Outcome State Fault Refusal :=
  hostAccess a size s (fun off => (writeRegister off (v.word s.host) s).setHost s.host.advance)

/-- `RD` (30_encoding.md R96); it has no side effect on the CORE (10_state.md R42). -/
def hostRd (a size x : Nat) (s : State) : Host.Outcome State Fault Refusal :=
  hostAccess a size s (fun off => s.setHost (s.host.assign x (.word (readRegister s off))))

/-- The address of the byte a host memory line comes to next (30_encoding.md R96): the line's address and the bytes it has
moved. -/
def hostByteAddress (a : HostExpr) (s : State) : Nat := (a.word s.host).toNat + s.host.progress

/-- One byte of `MW` (30_encoding.md R96, 20_memory.md R70; log entry 19); the line is over after its last byte. -/
def hostMw (a bs : HostExpr) (s : State) : Host.Outcome State Fault Refusal :=
  match (bs.byteList s.host)[s.host.progress]? with
  | none => .next (s.setHost s.host.advance)
  | some b =>
    if hostByteAddress a s < s.params.memSize then
      .next ((hostMemWrite (hostByteAddress a s) b s).setHost
        (if s.host.progress + 1 < (bs.byteList s.host).length then { s.host with progress := s.host.progress + 1 }
         else s.host.advance))
    else .fault (.hostAddressOutsideMemory (hostByteAddress a s))

/-- One byte of `MR` (30_encoding.md R96, 20_memory.md R70; log entry 19); after its last byte the variable holds them
all. DESIGN CHOICE (log entry 4): the count is a 32-bit word, so one line reads at most `2^32 - 1` bytes. -/
def hostMr (a k : HostExpr) (x : Nat) (s : State) : Host.Outcome State Fault Refusal :=
  if s.host.progress < (k.word s.host).toNat then
    if hostByteAddress a s < s.params.memSize then
      let r := hostMemRead (hostByteAddress a s) s
      let got := s.host.gathered ++ [r.1]
      .next (r.2.setHost
        (if s.host.progress + 1 < (k.word s.host).toNat then
           { s.host with progress := s.host.progress + 1, gathered := got }
         else s.host.assign x (.bytes got)))
    else .fault (.hostAddressOutsideMemory (hostByteAddress a s))
  else .next (s.setHost (s.host.assign x (.bytes s.host.gathered)))

/-- `if <cond> goto <label>` (30_encoding.md R96). -/
def hostBranch (c : HostCond) (l : Nat) (s : State) : Host.Outcome State Fault Refusal :=
  if c.eval s.host then
    match findLabel l s.host.program 0 with
    | some j => .next (s.setHost { s.host.advance with pc := j })
    | none => .refused (.hostLabelMissing l)
  else .next (s.setHost s.host.advance)

/-- One line of the host's program, or one byte of it for `MW` and `MR`. -/
def hostLine (l : Line) (s : State) : Host.Outcome State Fault Refusal :=
  match l with
  | .wr a size v => hostWr a size v s
  | .rd a size x => hostRd a size x s
  | .mw a bs => hostMw a bs s
  | .mr a k x => hostMr a k x s
  | .label _ => .next (s.setHost s.host.advance)
  | .ifGoto c j => hostBranch c j s

/-- The host has executed its last line (70_reset_and_hazards.md R252). -/
def State.hostEnded (s : State) : Bool := decide (s.host.program.length ≤ s.host.pc)

/-- The host's turn: its next line; a host that has ended does nothing (70_reset_and_hazards.md R252). -/
def hostTurn (s : State) : Host.Outcome State Fault Refusal :=
  match s.host.program[s.host.pc]? with
  | some l => hostLine l s
  | none => .next s

end Sys2Proof.Machine
end

