-- ==== Sys2Proof/Machine/Turns.lean ====
section
/-! DEFINITION. The completion step (60_exceptions.md R220), the turns of the agents (20_memory.md R70), whose turn it is,
and how a command word is placed for the completion step to run. -/

namespace Sys2Proof.Machine

/-- `Execute(x[CMD])` (30_encoding.md R92): the meaning of the latched word's command, or IllegalCommand. -/
def execute (s : State) : Host.Outcome State Fault Refusal :=
  match s.command with
  | some i => exec i s
  | none => .next (raiseIllegalCommand s)

/-- The core's turn (60_exceptions.md R220): the completion step while BUSY is 1; it has no step while BUSY is 0, nor while
`rst` is asserted (70_reset_and_hazards.md R244). -/
def coreTurn (s : State) : Host.Outcome State Fault Refusal :=
  if s.status.busy && !s.rst then execute s else .next s

/-- One turn (20_memory.md R70). -/
def runTurn (t : Turn) (s : State) : Host.Outcome State Fault Refusal :=
  match t with
  | .core => coreTurn s
  | .host => hostTurn s
  | .rst asserted => .next (driveRst asserted s)

/-- Whose turn it is when the schedule says nothing more: the core's while a command runs, so that no run leaves BUSY at 1
forever (60_exceptions.md R220), and the host's otherwise. DESIGN CHOICE (log entry 5). -/
def defaultTurn (s : State) : Turn := if s.status.busy then .core else .host

/-- The next turn, and the state with that turn taken off the schedule. -/
def nextTurn (s : State) : Turn × State :=
  match s.schedule with
  | t :: rest => (t, s.setSchedule rest)
  | [] => (defaultTurn s, s)

/-- The state in which the core's next turn completes the command word `w`: accepted as a CMD write accepts it (10_state.md
R25), with the core's turn next. -/
def placeCommand (w : Word) (s : State) : State :=
  (acceptCommand w (s.setRst false)).setSchedule (.core :: s.schedule)

end Sys2Proof.Machine
end

