-- ==== Sys2Proof/Machine/Step.lean ====
section
/-! DEFINITION. The step of the machine: the agent whose turn it is moves once (20_memory.md R70). -/

namespace Sys2Proof.Machine

/-- One step (20_memory.md R70): one host line, or one byte of it; one completion step; or one change of `rst`. -/
def step (s : State) : Host.Outcome State Fault Refusal := runTurn (nextTurn s).1 (nextTurn s).2

/-- `s` with the command word `w` accepted and the core's turn next (log entry 6): the very next step completes it. -/
def State.withFetchWord (s : State) (_nbits w : Nat) : State := placeCommand (BitVec.ofNat 32 w) s

end Sys2Proof.Machine
end

