-- ==== Sys2Proof/Safety.lean ====
section
/-! DEFINITION. The terms in which claims speak of states and runs: the rules about STATUS (10_state.md R27), the outcomes
a command can have (60_exceptions.md R202), the invariant every step keeps, the end of a run (70_reset_and_hazards.md
R252), and the host's duty about a running command's buffers (R249). -/

namespace Sys2Proof.Machine

/-- At most one of BUSY, DONE, ERR and FAULT is 1, and a cause is nonzero exactly when its flag is (10_state.md R27). -/
def Status.consistent (st : Status) : Prop :=
  ((st.busy = true → st.done = false ∧ st.err = false ∧ st.fault = false) ∧
    (st.done = true → st.err = false ∧ st.fault = false) ∧ (st.err = true → st.fault = false)) ∧
  (st.errCause ≠ .none ↔ st.err = true) ∧ (st.faultCause ≠ .none ↔ st.fault = true)

/-- RESULT, the 64-bit number in RESULT_HI and RESULT_LO (10_state.md R33). -/
def State.resultN (s : State) : Nat := (s.resultHi ++ s.resultLo).toNat

/-- Every register has its reset value, and the record of R73 is empty (70_reset_and_hazards.md R240). -/
def State.registersAtReset (s : State) : Prop :=
  s.cmd = 0#32 ∧ s.status = Status.idle ∧ s.src = 0#32 ∧ s.len = 0#32 ∧ s.dst = 0#32 ∧ s.dstCap = 0#32 ∧
  s.resultLo = 0#32 ∧ s.resultHi = 0#32 ∧ s.errPos = 0#32

/-- The host has touched no buffer of the running command (20_memory.md R73). -/
def State.undisturbed (s : State) : Prop := s.srcDisturbed = false ∧ s.outDisturbed = []

/-- The operands of `i` pass the contract check (60_exceptions.md R207). -/
def contractHolds (i : Instr) (s : State) : Prop := contractOf i s = none

/-- The outcome in STATUS, RESULT and ERR_POS is one the command in CMD can have (60_exceptions.md R201, R202; 10_state.md
R33, R34). -/
structure State.outcomeFits (s : State) : Prop where
  /-- only a command succeeds -/
  done : s.status.done = true → s.command ≠ none
  /-- ILLEGAL_CMD is the outcome of an illegal word only, and the other errors are DECODE's only -/
  err : s.status.err = true →
    (s.status.errCause = .illegalCmd ∧ s.command = none) ∨ (s.status.errCause ≠ .illegalCmd ∧ s.command = some .decode)
  /-- only ENCODE and DECODE fault -/
  fault : s.status.fault = true → s.command = some .encode ∨ s.command = some .decode
  /-- RESULT is nonzero only after a success -/
  result : s.status.done = false → s.resultLo = 0#32 ∧ s.resultHi = 0#32
  /-- only ENCODE_LEN can make RESULT_HI nonzero -/
  resultHi : s.resultHi ≠ 0#32 → s.command = some .encodeLen
  /-- ERR_POS is nonzero only after an error of BAD_CHAR, BAD_PAD or NONCANON -/
  errPos : s.errPos ≠ 0#32 → s.status.errCause = .badChar ∨ s.status.errCause = .badPad ∨ s.status.errCause = .nonCanon

/-- The record of R73 names only what it can name: bytes of the buffers of a running command (20_memory.md R73). -/
structure State.disturbanceFits (s : State) : Prop where
  idle : s.status.busy = false → s.undisturbed
  input : s.srcDisturbed = true → 0 < s.lenN ∧ (s.command = some .encode ∨ s.command = some .decode)
  rising : s.outDisturbed.Pairwise (· < ·)
  output : ∀ a ∈ s.outDisturbed, s.needRange.has a = true ∧ a < s.params.memSize

/-- What every step keeps. -/
structure State.Inv (s : State) : Prop where
  /-- ALPHA_62 and ALPHA_63 meet 10_state.md R38 -/
  params : s.params.wellFormed = true
  /-- memory has its canonical form -/
  memCanonical : s.mem.wf = true
  /-- no byte outside buffer memory holds anything (20_memory.md R60) -/
  memInside : s.mem.inside s.params.memSize = true
  /-- 10_state.md R27 -/
  status : s.status.consistent
  /-- 60_exceptions.md R202 -/
  outcome : s.outcomeFits
  /-- 20_memory.md R73 -/
  disturbance : s.disturbanceFits
  /-- while `rst` is asserted the CORE is held in the reset state (10_state.md R41) -/
  rstHeld : s.rst = true → s.registersAtReset

/-- The end of a run (70_reset_and_hazards.md R252): the host has executed its last line and the core has no step. -/
def State.runEnded (s : State) : Prop := s.hostEnded = true ∧ s.status.busy = false

/-- A run that ends with FAULT = 1 is a faulted run (70_reset_and_hazards.md R252). -/
def State.runFaulted (s : State) : Prop := s.runEnded ∧ s.status.fault = true

/-- The host keeps its duty at an address (70_reset_and_hazards.md R249, R253): no command that runs has it in a
buffer. -/
def State.hostMayTouch (s : State) (a : Nat) : Prop :=
  s.status.busy = true → s.inputRange.has a = false ∧ s.needRange.has a = false

/-- CMD and the operand registers keep their values (60_exceptions.md R209). -/
def keepsOperands (s t : State) : Prop :=
  t.cmd = s.cmd ∧ t.src = s.src ∧ t.len = s.len ∧ t.dst = s.dst ∧ t.dstCap = s.dstCap

/-- Nothing outside the CORE's registers and buffer memory changes: the parameters, the `rst` input, the host agent and
the schedule. -/
def keepsSurroundings (s t : State) : Prop :=
  t.params = s.params ∧ t.rst = s.rst ∧ t.host = s.host ∧ t.schedule = s.schedule

/-- Every byte outside a range reads as before. -/
def keepsMemoryOutside (r : Range) (s t : State) : Prop := ∀ a, r.has a = false → t.mem.read a = s.mem.read a

/-- Every byte of a range holds a free value, each of its own draw, from draw `k` on (00_scope.md R10). -/
def rangeFree (r : Range) (k : Nat) (t : State) : Prop :=
  ∀ i, i < r.size → t.mem.read (r.base + i) = Config.freeByte (k + i)

/-- Every byte the record of R73 names lies in the command's need range (20_memory.md R73). -/
def disturbedInside (i : Instr) (s : State) : Prop := ∀ a ∈ s.outDisturbed, (needRangeOf i s).has a = true

/-- Every group of the input of a DECODE is accepted (42_decoder.md R168). -/
def allGroupsAccepted (s : State) : Prop :=
  ∀ g, g < decodeGroups s.lenN →
    ∃ o0 o1 o2 cnt, decodedGroup s.params s.mem s.srcN (decodeGroups s.lenN) g = .ok o0 o1 o2 cnt

end Sys2Proof.Machine
end

