-- ==== Sys2Proof/Certificates/Slice0/Obligations.lean ====
section
/-! DEFINITION. The statements about the model, from the spec's numbered rules. -/

open Sys2Proof Sys2Proof.Machine

/-! ## The command word -/

/-- The opcode map (30_encoding.md R91), and words that name no command (R94). -/
def Obligations.CommandWordsDecode : Prop :=
  decode 0x00000001#32 = some .encode ∧ decode 0x00000002#32 = some .decode ∧
  decode 0x00000003#32 = some .encodeLen ∧ decode 0x00000004#32 = some .decodeLen ∧
  decode 0x00000000#32 = none ∧ decode 0x00000005#32 = none ∧ decode 0x0000000F#32 = none ∧
  decode 0x00000011#32 = none ∧ decode 0x80000003#32 = none

/-- Decoding an encoded command gives it back, and a command has one word (30_encoding.md R91, R92). -/
def Obligations.DecodeEncodeAgree : Prop :=
  ∀ i : Instr, i.wellFormed = true → decode (encode i) = some i ∧ ∀ w : Word, decode w = some i → w = encode i

/-- The illegal words (30_encoding.md R94): OPC 0, OPC 5 to 15, and any word with RSVD not 0. -/
def Obligations.IllegalWordsNameNoCommand : Prop :=
  ∀ w : Word, decode w = none ↔
    w.extractLsb' 4 28 ≠ 0#28 ∨ w.extractLsb' 0 4 = 0#4 ∨ 5 ≤ (w.extractLsb' 0 4).toNat

/-- The completion step decodes the latched word against the whole 32 bits (30_encoding.md R92). -/
def Obligations.DispatchOnWholeWord : Prop :=
  ∀ s : State, execute s =
    if s.cmd = 0x00000001#32 then exec .encode s
    else if s.cmd = 0x00000002#32 then exec .decode s
    else if s.cmd = 0x00000003#32 then exec .encodeLen s
    else if s.cmd = 0x00000004#32 then exec .decodeLen s
    else .next (raiseIllegalCommand s)

/-- The illegal words (30_encoding.md R94): a reserved bit set, OPC 0, or OPC 5 to 15. An accepted one ends in ERR with
ILLEGAL_CMD, reads no operand and touches nothing else (60_exceptions.md R205). -/
def Obligations.IllegalCommandEndsInError : Prop :=
  ∀ s : State, s.cmd.extractLsb' 4 28 ≠ 0#28 ∨ s.cmd.extractLsb' 0 4 = 0#4 ∨ 5 ≤ (s.cmd.extractLsb' 0 4).toNat →
    execute s = .next
      { s with
        resultLo := 0#32, resultHi := 0#32, errPos := 0#32,
        status := { s.status with errCause := .illegalCmd, busy := false, err := true },
        srcDisturbed := false, outDisturbed := [] }

/-! ## The length calculators -/

/-- ENCODE_LEN (40_length.md R112): its word, its result, and all it changes. It completes in every state. -/
def Obligations.EncodeLenCompletes : Prop :=
  decode 0x00000003#32 = some .encodeLen ∧
  ∀ s : State, exec .encodeLen s = .next
    { s with
      resultLo := BitVec.ofNat 32 (((s.len.toNat + 2) / 3) * 4),
      resultHi := BitVec.ofNat 32 ((((s.len.toNat + 2) / 3) * 4) / 2 ^ 32),
      status := { s.status with busy := false, done := true },
      srcDisturbed := false, outDisturbed := [] }

/-- DECODE_LEN (40_length.md R113): its word, its result, and all it changes. It completes in every state. -/
def Obligations.DecodeLenCompletes : Prop :=
  decode 0x00000004#32 = some .decodeLen ∧
  ∀ s : State, exec .decodeLen s = .next
    { s with
      resultLo := BitVec.ofNat 32 ((s.len.toNat / 4) * 3), resultHi := 0#32,
      status := { s.status with busy := false, done := true },
      srcDisturbed := false, outDisturbed := [] }

/-- The result of a length command is exact: it never wraps, and RESULT_HI is nonzero from `n = 0xBFFF_FFFE` on for
ENCODE_LEN only (40_length.md R110 to R113). -/
def Obligations.LengthResultsAreExact : Prop :=
  ∀ s : State,
    (∃ t, exec .encodeLen s = .next t ∧ t.resultN = 4 * ((s.len.toNat + 2) / 3) ∧ t.resultN < 2 ^ 33 ∧
      (t.resultHi ≠ 0#32 ↔ 0xBFFFFFFE ≤ s.len.toNat)) ∧
    (∃ t, exec .decodeLen s = .next t ∧ t.resultN = 3 * (s.len.toNat / 4) ∧ t.resultHi = 0#32)

/-- The length functions (40_length.md R110, R111): their formulas, `encode_len(n)` as four times the least number of
groups of 3 that hold `n`, and the bounds of their values on 32-bit lengths; then the laws of R114 (a) to (d). -/
def Obligations.LengthLaws : Prop :=
  ∀ n : Nat,
    encodeLen n = ((n + 2) / 3) * 4 ∧ decodeLen n = (n / 4) * 3 ∧
    (∀ k, n ≤ 3 * k ↔ encodeLen n ≤ 4 * k) ∧
    (n < 2 ^ 32 → encodeLen n ≤ 0x155555554 ∧ decodeLen n ≤ 0xBFFFFFFD) ∧
    encodeLen n % 4 = 0 ∧ (∀ m, n ≤ m → encodeLen n ≤ encodeLen m) ∧ (1 ≤ n → n + 1 ≤ encodeLen n) ∧
    decodeLen (encodeLen n) = 3 * ((n + 2) / 3) ∧ n ≤ decodeLen (encodeLen n) ∧ decodeLen (encodeLen n) ≤ n + 2 ∧
    4 * decodeLen n ≤ 3 * n

/-! ## The tables and the groups -/

/-- The encode table (10_state.md R38): this hardware's listing in full, index 0 first; for other values of ALPHA_62 and
ALPHA_63 the same first 62 entries; what those values must meet; and that the table is then injective and avoids `=`. -/
def Obligations.AlphabetTable : Prop :=
  (List.range 64).map (fun v => alphabet Params.hardware (BitVec.ofNat 6 v)) =
    "ABCDEFGHIJKLMNOPQRSTUVWXYZabcdefghijklmnopqrstuvwxyz0123456789+/".toList.map (fun c => BitVec.ofNat 8 c.toNat) ∧
  ∀ p : Params,
    (∀ v : Sextet, v.toNat < 62 → alphabet p v = alphabet Params.hardware v) ∧
    alphabet p 62#6 = p.alpha62 ∧ alphabet p 63#6 = p.alpha63 ∧
    (p.wellFormed = true ↔
      p.alpha62 ≠ p.alpha63 ∧ p.alpha62 ≠ 0x3D#8 ∧ p.alpha63 ≠ 0x3D#8 ∧
      ∀ v : Sextet, v.toNat < 62 → alphabet p v ≠ p.alpha62 ∧ alphabet p v ≠ p.alpha63) ∧
    (p.wellFormed = true → ∀ v w : Sextet, alphabet p v = alphabet p w → v = w) ∧
    (p.wellFormed = true → ∀ v : Sextet, alphabet p v ≠ 0x3D#8)

/-- `Rv` inverts `A`, the pad is `=` alone, and every other byte is INVALID (10_state.md R39), for every choice of
ALPHA_62 and ALPHA_63 that R38 allows. -/
def Obligations.ReverseTableInvertsAlphabet : Prop :=
  ∀ p : Params, p.wellFormed = true →
    (∀ v : Sextet, reverse p (alphabet p v) = .data v) ∧
    (∀ (c : Byte) (v : Sextet), reverse p c = .data v ↔ alphabet p v = c) ∧
    (∀ c : Byte, reverse p c = .pad ↔ c = 0x3D#8) ∧
    (∀ c : Byte, reverse p c = .invalid ↔ c ≠ 0x3D#8 ∧ ∀ v : Sextet, alphabet p v ≠ c)

/-- The bitfield split and the padding of an encode group (41_encoder.md R131, R133), for each number of bytes. -/
def Obligations.EncodeGroupBits : Prop :=
  ∀ (p : Params) (b0 b1 b2 : Byte),
    encGroup p b0 b1 b2 3 =
      [alphabet p (b0.extractLsb' 2 6), alphabet p (b0.extractLsb' 0 2 ++ b1.extractLsb' 4 4),
       alphabet p (b1.extractLsb' 0 4 ++ b2.extractLsb' 6 2), alphabet p (b2.extractLsb' 0 6)] ∧
    encGroup p b0 b1 b2 2 =
      [alphabet p (b0.extractLsb' 2 6), alphabet p (b0.extractLsb' 0 2 ++ b1.extractLsb' 4 4),
       alphabet p (b1.extractLsb' 0 4 ++ 0#2), 0x3D#8] ∧
    encGroup p b0 b1 b2 1 =
      [alphabet p (b0.extractLsb' 2 6), alphabet p (b0.extractLsb' 0 2 ++ 0#4), 0x3D#8, 0x3D#8]

/-- The group function (42_decoder.md R168), on characters by their class: the errors of the transition table (R164), each
with its cause and its character; and of a group in DONE the pack (R166) and the unused-bits check under either value of
STRICT_UNUSED_BITS. -/
def Obligations.DecodeGroupFunction : Prop :=
  ∀ (p : Params) (c0 c1 c2 c3 : Byte) (final : Bool) (v0 v1 v2 v3 : Sextet),
    (reverse p c0 = .pad → decGroup p c0 c1 c2 c3 final = .err .badPad 0) ∧
    (reverse p c0 = .invalid → decGroup p c0 c1 c2 c3 final = .err .badChar 0) ∧
    (reverse p c0 = .data v0 →
      (reverse p c1 = .pad → decGroup p c0 c1 c2 c3 final = .err .badPad 1) ∧
      (reverse p c1 = .invalid → decGroup p c0 c1 c2 c3 final = .err .badChar 1) ∧
      (reverse p c1 = .data v1 →
        (reverse p c2 = .pad → final = false → decGroup p c0 c1 c2 c3 final = .err .badPad 2) ∧
        (reverse p c2 = .invalid → decGroup p c0 c1 c2 c3 final = .err .badChar 2) ∧
        (reverse p c2 = .data v2 →
          (reverse p c3 = .pad → final = false → decGroup p c0 c1 c2 c3 final = .err .badPad 3) ∧
          (reverse p c3 = .invalid → decGroup p c0 c1 c2 c3 final = .err .badChar 3)) ∧
        (reverse p c2 = .pad → final = true →
          (reverse p c3 = .data v3 → decGroup p c0 c1 c2 c3 final = .err .badPad 3) ∧
          (reverse p c3 = .invalid → decGroup p c0 c1 c2 c3 final = .err .badChar 3)))) ∧
    (reverse p c0 = .data v0 → reverse p c1 = .data v1 →
      (reverse p c2 = .data v2 → reverse p c3 = .data v3 →
        decGroup p c0 c1 c2 c3 final = .ok (v0 ++ v1.extractLsb' 4 2) (v1.extractLsb' 0 4 ++ v2.extractLsb' 2 4)
          (v2.extractLsb' 0 2 ++ v3) 3) ∧
      (reverse p c2 = .data v2 → reverse p c3 = .pad →
        if p.strictUnusedBits = true ∧ v2.extractLsb' 0 2 ≠ 0#2 then decGroup p c0 c1 c2 c3 true = .err .nonCanon 2
        else decGroup p c0 c1 c2 c3 true =
          .ok (v0 ++ v1.extractLsb' 4 2) (v1.extractLsb' 0 4 ++ v2.extractLsb' 2 4) (v2.extractLsb' 0 2 ++ 0#6) 2) ∧
      (reverse p c2 = .pad → reverse p c3 = .pad →
        if p.strictUnusedBits = true ∧ v1.extractLsb' 0 4 ≠ 0#4 then decGroup p c0 c1 c2 c3 true = .err .nonCanon 1
        else decGroup p c0 c1 c2 c3 true = .ok (v0 ++ v1.extractLsb' 4 2) (v1.extractLsb' 0 4 ++ 0#4) 0#8 1))

/-! ## The contract check -/

/-- `CheckContract` (60_exceptions.md R207) reports the first condition of its order that fails: SRC_RANGE, DST_RANGE,
OVERLAP (the buffers share a byte), CAPACITY. It runs first in ENCODE and in DECODE: when the host touched no buffer of the
running command, a condition that fails ends it in a fault of its cause, with no memory touched. -/
def Obligations.ContractCheck : Prop :=
  (∀ (p : Params) (src n dst cap need : Nat),
    (checkContract p src n dst cap need = some .srcRange ↔ p.memSize < src + n) ∧
    (checkContract p src n dst cap need = some .dstRange ↔ src + n ≤ p.memSize ∧ p.memSize < dst + cap) ∧
    (checkContract p src n dst cap need = some .overlap ↔ src + n ≤ p.memSize ∧ dst + cap ≤ p.memSize ∧
      ∃ a, (src ≤ a ∧ a < src + n) ∧ dst ≤ a ∧ a < dst + cap) ∧
    (checkContract p src n dst cap need = some .capacity ↔ src + n ≤ p.memSize ∧ dst + cap ≤ p.memSize ∧
      (¬ ∃ a, (src ≤ a ∧ a < src + n) ∧ dst ≤ a ∧ a < dst + cap) ∧ cap < need) ∧
    (checkContract p src n dst cap need = none ↔ src + n ≤ p.memSize ∧ dst + cap ≤ p.memSize ∧
      (¬ ∃ a, (src ≤ a ∧ a < src + n) ∧ dst ≤ a ∧ a < dst + cap) ∧ need ≤ cap)) ∧
  ∀ (s : State) (c : FaultCause), s.undisturbed →
    (checkContract s.params s.src.toNat s.len.toNat s.dst.toNat s.dstCap.toNat (encodeLen s.len.toNat) = some c →
      exec .encode s = .next
        { s with
          resultLo := 0#32, resultHi := 0#32, errPos := 0#32,
          status := { s.status with faultCause := c, busy := false, fault := true },
          srcDisturbed := false, outDisturbed := [] }) ∧
    (checkContract s.params s.src.toNat s.len.toNat s.dst.toNat s.dstCap.toNat (decodeLen s.len.toNat) = some c →
      exec .decode s = .next
        { s with
          resultLo := 0#32, resultHi := 0#32, errPos := 0#32,
          status := { s.status with faultCause := c, busy := false, fault := true },
          srcDisturbed := false, outDisturbed := [] })

/-! ## ENCODE -/

/-- ENCODE completes whenever its contract holds and the host did not write its input while it ran (41_encoder.md R135):
DONE, RESULT is `encode_len(n)`, each group's four characters stand at `dst + 4g`, and nothing else changes. A byte of the
need range that the host wrote while it ran is another statement's (20_memory.md R73). -/
def Obligations.EncodeCompletes : Prop :=
  ∀ s : State, s.mem.wf = true → contractHolds .encode s → s.srcDisturbed = false → disturbedInside .encode s →
    ∃ t, exec .encode s = .next t ∧
      t.status = { s.status with busy := false, done := true } ∧
      t.resultN = encodeLen s.lenN ∧ t.resultHi = 0#32 ∧ t.errPos = s.errPos ∧
      (∀ g j, g < (s.lenN + 2) / 3 → j < 4 → s.dstN + 4 * g + j ∉ s.outDisturbed →
        (encGroup s.params (s.mem.read (s.srcN + 3 * g)) (s.mem.read (s.srcN + 3 * g + 1))
          (s.mem.read (s.srcN + 3 * g + 2)) (min 3 (s.lenN - 3 * g)))[j]? = some (t.mem.read (s.dstN + 4 * g + j))) ∧
      keepsMemoryOutside { base := s.dstN, size := encodeLen s.lenN } s t ∧
      keepsOperands s t ∧ keepsSurroundings s t

/-- The output of ENCODE (41_encoder.md R137 (a) to (d)): characters of the alphabet, and `=` exactly in the last position
when `n % 3 = 2` and in the last two when `n % 3 = 1`. -/
def Obligations.EncodeOutputShape : Prop :=
  ∀ s : State, s.params.wellFormed = true → s.mem.wf = true → contractHolds .encode s → s.undisturbed →
    ∃ t, exec .encode s = .next t ∧ t.resultN = encodeLen s.lenN ∧ t.resultN % 4 = 0 ∧
      ∀ j, j < t.resultN →
        (t.mem.read (s.dstN + j) = 0x3D#8 ↔
          (s.lenN % 3 = 1 ∧ t.resultN ≤ j + 2) ∨ (s.lenN % 3 = 2 ∧ t.resultN ≤ j + 1)) ∧
        (t.mem.read (s.dstN + j) ≠ 0x3D#8 → ∃ v : Sextet, t.mem.read (s.dstN + j) = alphabet s.params v)

/-! ## DECODE -/

/-- DECODE completes whenever its contract holds, the length is a multiple of 4, every group is accepted, and the host did
not write its input while it ran (42_decoder.md R169): DONE, RESULT is the exact count, each group's bytes stand at
`dst + 3g`, and nothing else changes. -/
def Obligations.DecodeCompletes : Prop :=
  ∀ s : State, s.mem.wf = true → contractHolds .decode s → s.lenN % 4 = 0 → s.srcDisturbed = false →
    disturbedInside .decode s → allGroupsAccepted s →
    ∃ t, exec .decode s = .next t ∧
      t.status = { s.status with busy := false, done := true } ∧ t.resultHi = 0#32 ∧ t.errPos = s.errPos ∧
      (s.lenN = 0 → t.resultN = 0) ∧
      (∀ o0 o1 o2 cnt, 0 < s.lenN →
        decodedGroup s.params s.mem s.srcN (s.lenN / 4) (s.lenN / 4 - 1) = .ok o0 o1 o2 cnt →
        t.resultN = 3 * (s.lenN / 4 - 1) + cnt) ∧
      (∀ g o0 o1 o2 cnt k, g < s.lenN / 4 → decodedGroup s.params s.mem s.srcN (s.lenN / 4) g = .ok o0 o1 o2 cnt →
        k < cnt → s.dstN + 3 * g + k ∉ s.outDisturbed →
        [o0, o1, o2][k]? = some (t.mem.read (s.dstN + 3 * g + k))) ∧
      (∀ a, a < s.dstN ∨ s.dstN + t.resultN ≤ a → a ∉ s.outDisturbed → t.mem.read a = s.mem.read a) ∧
      keepsOperands s t ∧ keepsSurroundings s t

/-- A length that is no multiple of 4 (42_decoder.md R161), when the host touched no buffer of the running command: LENGTH at
position 0, with no memory touched. -/
def Obligations.DecodeLengthError : Prop :=
  ∀ s : State, contractHolds .decode s → s.len.toNat % 4 ≠ 0 → s.undisturbed →
    exec .decode s = .next
      { s with
        resultLo := 0#32, resultHi := 0#32, errPos := 0#32,
        status := { s.status with errCause := .length, busy := false, err := true },
        srcDisturbed := false, outDisturbed := [] }

/-- The first group at an error ends DECODE (42_decoder.md R165, 60_exceptions.md R204): ERR with its cause, ERR_POS is the
offset of the failing character, RESULT is 0, every byte of the need range is free, and every other byte is unchanged. -/
def Obligations.DecodeFirstErrorEnds : Prop :=
  ∀ (s : State) (g pos : Nat) (cause : ErrCause), s.mem.wf = true → contractHolds .decode s → s.lenN % 4 = 0 →
    s.srcDisturbed = false → g < s.lenN / 4 →
    (∀ g', g' < g → ∃ o0 o1 o2 cnt, decodedGroup s.params s.mem s.srcN (s.lenN / 4) g' = .ok o0 o1 o2 cnt) →
    decodedGroup s.params s.mem s.srcN (s.lenN / 4) g = .err cause pos →
    ∃ t, exec .decode s = .next t ∧
      t.status = { s.status with errCause := cause, busy := false, err := true } ∧
      (cause = .badChar ∨ cause = .badPad ∨ cause = .nonCanon) ∧
      t.errPos.toNat = 4 * g + pos ∧ 4 * g + pos < s.lenN ∧ t.resultLo = 0#32 ∧ t.resultHi = 0#32 ∧
      rangeFree { base := s.dstN, size := decodeLen s.lenN } s.draws t ∧
      keepsMemoryOutside { base := s.dstN, size := decodeLen s.lenN } s t ∧
      keepsOperands s t ∧ keepsSurroundings s t

/-- The count of DECODE (40_length.md R114 (e)): at most `decode_len(n)`, with equality exactly when the last character is
no pad; and it is `decode_len(n)` minus the pads of the final group (42_decoder.md R169). -/
def Obligations.DecodeCountAgainstPads : Prop :=
  ∀ s : State, s.params.wellFormed = true → s.mem.wf = true → contractHolds .decode s → s.lenN % 4 = 0 → s.undisturbed →
    allGroupsAccepted s → 0 < s.lenN →
    ∃ t, exec .decode s = .next t ∧ t.status.done = true ∧ t.resultN ≤ decodeLen s.lenN ∧
      t.resultN + (if s.mem.read (s.srcN + s.lenN - 1) = 0x3D#8 then 1 else 0) +
        (if s.mem.read (s.srcN + s.lenN - 2) = 0x3D#8 then 1 else 0) = decodeLen s.lenN ∧
      (t.resultN = decodeLen s.lenN ↔ s.mem.read (s.srcN + s.lenN - 1) ≠ 0x3D#8)

/-- The outcome of DECODE is a function of `n`, the input bytes and the parameters alone (42_decoder.md R171 (d)). -/
def Obligations.DecodeIsDeterminedByInput : Prop :=
  ∀ s s' : State, s.mem.wf = true → s'.mem.wf = true → contractHolds .decode s → contractHolds .decode s' →
    s.undisturbed → s'.undisturbed → s.status.consistent → s.status.busy = true → s.status = s'.status → s.len = s'.len →
    s.params.strictUnusedBits = s'.params.strictUnusedBits → s.params.alpha62 = s'.params.alpha62 →
    s.params.alpha63 = s'.params.alpha63 →
    (∀ i, i < s.lenN → s.mem.read (s.srcN + i) = s'.mem.read (s'.srcN + i)) →
    ∃ t t', exec .decode s = .next t ∧ exec .decode s' = .next t' ∧ t.status = t'.status ∧ t.resultN = t'.resultN ∧
      (t.status.err = true → t.errPos = t'.errPos) ∧
      (t.status.done = true →
        ∀ i, i < t.resultN → t.mem.read (s.dstN + i) = t'.mem.read (s'.dstN + i))

/-- Round trip (42_decoder.md R171 (a)): DECODE of the output of ENCODE succeeds and writes exactly the bytes ENCODE read,
under either value of STRICT_UNUSED_BITS. `u` is any state that holds ENCODE's memory and names its output as input. -/
def Obligations.DecodeInvertsEncode : Prop :=
  ∀ s t u : State, s.params.wellFormed = true → s.mem.wf = true → contractHolds .encode s → s.undisturbed →
    exec .encode s = .next t →
    u.params = t.params → u.mem = t.mem → u.src = s.dst → u.lenN = encodeLen s.lenN → contractHolds .decode u →
    u.undisturbed →
    ∃ v, exec .decode u = .next v ∧ v.status = { u.status with busy := false, done := true } ∧
      v.resultN = s.lenN ∧ ∀ i, i < s.lenN → v.mem.read (u.dstN + i) = s.mem.read (s.srcN + i)

/-- Canonical inverse (42_decoder.md R171 (b)): with STRICT_UNUSED_BITS, ENCODE of what DECODE wrote gives back exactly
the characters DECODE accepted. -/
def Obligations.EncodeInvertsStrictDecode : Prop :=
  ∀ s t u : State, s.params.wellFormed = true → s.params.strictUnusedBits = true → s.mem.wf = true →
    contractHolds .decode s → s.undisturbed → s.status.done = false → exec .decode s = .next t → t.status.done = true →
    u.params = t.params → u.mem = t.mem → u.src = s.dst → u.lenN = t.resultN → contractHolds .encode u →
    u.undisturbed →
    ∃ v, exec .encode u = .next v ∧ v.status = { u.status with busy := false, done := true } ∧
      v.resultN = s.lenN ∧ ∀ i, i < s.lenN → v.mem.read (u.dstN + i) = s.mem.read (s.srcN + i)

/-- The lenient inverse (42_decoder.md R171 (c)): without STRICT_UNUSED_BITS, ENCODE of what DECODE wrote gives back the
characters DECODE accepted, except that the last data character of a padded final group may differ, in its unused bits
only: the low two of its sextet with one pad, the low four with two. -/
def Obligations.EncodeInvertsLenientDecode : Prop :=
  ∀ s t u : State, s.params.wellFormed = true → s.params.strictUnusedBits = false → s.mem.wf = true →
    contractHolds .decode s → s.undisturbed → s.status.done = false → exec .decode s = .next t → t.status.done = true →
    u.params = t.params → u.mem = t.mem → u.src = s.dst → u.lenN = t.resultN → contractHolds .encode u →
    u.undisturbed →
    ∃ v, exec .encode u = .next v ∧ v.status = { u.status with busy := false, done := true } ∧
      v.resultN = s.lenN ∧ ∀ i, i < s.lenN →
        v.mem.read (u.dstN + i) = s.mem.read (s.srcN + i) ∨
        ∃ a b : Sextet, s.mem.read (s.srcN + i) = alphabet s.params a ∧ v.mem.read (u.dstN + i) = alphabet s.params b ∧
          ((i + 2 = s.lenN ∧ s.mem.read (s.srcN + i + 1) = 0x3D#8 ∧ a.extractLsb' 2 4 = b.extractLsb' 2 4) ∨
           (i + 3 = s.lenN ∧ s.mem.read (s.srcN + i + 1) = 0x3D#8 ∧ a.extractLsb' 4 2 = b.extractLsb' 4 2))

/-! ## Every command -/

/-- Every command answers a next state, with one of the outcomes the table gives it (60_exceptions.md R202). -/
def Obligations.CommandOutcomes : Prop :=
  ∀ (i : Instr) (s : State), s.status.consistent → s.status.busy = true →
    ∃ t, exec i s = .next t ∧ t.status.consistent ∧ t.status.busy = false ∧
      (t.status.done = true ∨
        (t.status.fault = true ∧ (i = .encode ∨ i = .decode)) ∨
        (t.status.err = true ∧ i = .decode ∧ (t.status.errCause = .length ∨ t.status.errCause = .badChar ∨
          t.status.errCause = .badPad ∨ t.status.errCause = .nonCanon)))

/-- CMD and the operand registers keep their values after every outcome (60_exceptions.md R209). -/
def Obligations.OutcomesKeepOperands : Prop :=
  ∀ (i : Instr) (s t : State), exec i s = .next t → keepsOperands s t ∧ keepsSurroundings s t

/-- The CORE never writes a byte outside its need range, nor one of its input buffer when the contract holds (20_memory.md
R64); and when the host touched no buffer of the running command, an outcome that is neither a success nor one of BAD_CHAR,
BAD_PAD and NONCANON changes no memory (60_exceptions.md R209). That `disturbedInside` speaks of the record of host writes
is the model's form of 20_memory.md R73 (log entry 14). -/
def Obligations.OnlyNeedRangeWritten : Prop :=
  ∀ (i : Instr) (s t : State), s.mem.wf = true → disturbedInside i s → s.status.consistent → s.status.busy = true →
    exec i s = .next t →
    keepsMemoryOutside (needRangeOf i s) s t ∧
    (contractHolds i s → ∀ a, (inputRangeOf i s).has a = true → t.mem.read a = s.mem.read a) ∧
    (s.undisturbed → t.status.fault = true ∨ t.status.errCause = .length → t.mem = s.mem)

/-! ## Host accesses while a command runs -/

/-- A host write to the input buffer of a running ENCODE whose contract holds (20_memory.md R73): DONE, RESULT is
`encode_len(n)`, every byte of the need range is free, every other byte unchanged. That `srcDisturbed` records such a write
is the model's choice (log entry 14). -/
def Obligations.DisturbedEncodeInput : Prop :=
  ∀ s : State, s.mem.wf = true → contractHolds .encode s → s.srcDisturbed = true →
    ∃ t, exec .encode s = .next t ∧ t.status = { s.status with busy := false, done := true } ∧
      t.resultN = encodeLen s.lenN ∧
      rangeFree { base := s.dstN, size := encodeLen s.lenN } s.draws t ∧
      keepsMemoryOutside { base := s.dstN, size := encodeLen s.lenN } s t

/-- A host write to the input buffer of a running DECODE whose contract holds and whose length is a multiple of 4
(20_memory.md R73): DONE with a result in `[0, decode_len(n)]`, or ERR with BAD_CHAR, BAD_PAD or NONCANON and ERR_POS in
`[0, n)`; every byte of the need range is free, every other byte unchanged. The record `srcDisturbed` is the model's choice
(log entry 14), and so is how the outcome is drawn (log entry 15). -/
def Obligations.DisturbedDecodeInput : Prop :=
  ∀ s : State, s.mem.wf = true → contractHolds .decode s → s.lenN % 4 = 0 → 0 < s.lenN → s.srcDisturbed = true →
    ∃ t k, exec .decode s = .next t ∧
      ((t.status = { s.status with busy := false, done := true } ∧ t.resultN ≤ decodeLen s.lenN) ∨
       (∃ c, t.status = { s.status with errCause := c, busy := false, err := true } ∧
          (c = .badChar ∨ c = .badPad ∨ c = .nonCanon) ∧ t.resultN = 0 ∧ t.errPos.toNat < s.lenN)) ∧
      rangeFree { base := s.dstN, size := decodeLen s.lenN } k t ∧
      keepsMemoryOutside { base := s.dstN, size := decodeLen s.lenN } s t

/-- A host write to the input buffer of a running command that its checks would stop, for which 20_memory.md R73 and
60_exceptions.md R207 or 42_decoder.md R161 disagree: the outcome is the fault, or LENGTH, or one that R73 lists, and every
byte of the need range that exists is free. Allowing both is the model's choice (log entries 8, 14 and 15). -/
def Obligations.DisturbedInputBeforeChecks : Prop :=
  ∀ s : State, s.mem.wf = true → s.srcDisturbed = true → 0 < s.lenN →
    (¬ contractHolds .encode s → ∃ t k, exec .encode s = .next t ∧
      ((∃ c, contractOf .encode s = some c ∧ t.status = { s.status with faultCause := c, busy := false, fault := true } ∧
          t.resultN = 0) ∨
       (t.status = { s.status with busy := false, done := true } ∧ t.resultN = encodeLen s.lenN ∧ t.resultHi = 0#32)) ∧
      rangeFree ((needRangeOf .encode s).within s.params.memSize) k t ∧ keepsMemoryOutside (needRangeOf .encode s) s t) ∧
    (¬ contractHolds .decode s ∨ s.lenN % 4 ≠ 0 → ∃ t k, exec .decode s = .next t ∧
      ((∃ c, contractOf .decode s = some c ∧ t.status = { s.status with faultCause := c, busy := false, fault := true } ∧
          t.resultN = 0) ∨
       (contractHolds .decode s ∧ t.status = { s.status with errCause := .length, busy := false, err := true } ∧
          t.resultN = 0 ∧ t.errPos = 0#32) ∨
       (t.status = { s.status with busy := false, done := true } ∧ t.resultN ≤ decodeLen s.lenN) ∨
       (∃ c, t.status = { s.status with errCause := c, busy := false, err := true } ∧
          (c = .badChar ∨ c = .badPad ∨ c = .nonCanon) ∧ t.resultN = 0 ∧ t.errPos.toNat < s.lenN)) ∧
      rangeFree ((needRangeOf .decode s).within s.params.memSize) k t ∧ keepsMemoryOutside (needRangeOf .decode s) s t)

/-- A byte of the need range that the host wrote while the command ran holds a free value after a success of ENCODE or
DECODE, after a contract fault, and after LENGTH (20_memory.md R73), each byte of its own draw; the last two leave every other
byte as it was (60_exceptions.md R209). That it is free after a contract fault and after LENGTH, where R201 and R209 say that
memory is unchanged, is the model's choice (log entry 8), and so is the record `outDisturbed` (log entry 14). -/
def Obligations.DisturbedOutputBytesAreFree : Prop :=
  ∀ s : State, s.mem.wf = true → s.outDisturbed.Nodup → s.srcDisturbed = false →
    (contractHolds .encode s → ∃ t, exec .encode s = .next t ∧ t.status.done = true ∧
      ∀ k (h : k < s.outDisturbed.length), t.mem.read s.outDisturbed[k] = Config.freeByte (s.draws + k)) ∧
    (contractHolds .decode s → s.lenN % 4 = 0 → allGroupsAccepted s → ∃ t, exec .decode s = .next t ∧
      t.status.done = true ∧
      ∀ k (h : k < s.outDisturbed.length), t.mem.read s.outDisturbed[k] = Config.freeByte (s.draws + k)) ∧
    (∀ i, i = .encode ∨ i = .decode → ¬ contractHolds i s → ∃ t, exec i s = .next t ∧ t.status.fault = true ∧
      (∀ k (h : k < s.outDisturbed.length), t.mem.read s.outDisturbed[k] = Config.freeByte (s.draws + k)) ∧
      ∀ a, a ∉ s.outDisturbed → t.mem.read a = s.mem.read a) ∧
    (contractHolds .decode s → s.lenN % 4 ≠ 0 → ∃ t, exec .decode s = .next t ∧ t.status.errCause = .length ∧
      (∀ k (h : k < s.outDisturbed.length), t.mem.read s.outDisturbed[k] = Config.freeByte (s.draws + k)) ∧
      ∀ a, a ∉ s.outDisturbed → t.mem.read a = s.mem.read a)

/-- The host's reads and writes of a byte that is in no need range of a running command are exact (20_memory.md R70,
R73): a write is read back, and leaves every other byte alone. When the byte is in no input buffer of a running command
either, or no command runs, the write changes memory alone. -/
def Obligations.HostMemoryAccessIsExact : Prop :=
  ∀ (s : State) (a : Nat) (v : Byte), s.mem.wf = true → (s.status.busy = true → s.needRange.has a = false) →
    hostMemRead a s = (s.mem.read a, s) ∧
    hostMemRead a (hostMemWrite a v s) = (v, hostMemWrite a v s) ∧
    (∀ a', a' ≠ a → (hostMemWrite a v s).mem.read a' = s.mem.read a') ∧
    keepsOperands s (hostMemWrite a v s) ∧ (hostMemWrite a v s).status = s.status ∧
    ((s.status.busy = true → s.inputRange.has a = false) → hostMemWrite a v s = { s with mem := s.mem.write a v })

/-- The host's accesses to the buffers of a running command (20_memory.md R73): a read of the need range is a free value and
changes nothing but the count of draws (log entry 3), also of a byte that is in the input too (log entry 8); a write is done,
and the model records it for the completion: a byte of the input in `srcDisturbed`, a byte of the need range, and that byte
alone, in `outDisturbed`, and nothing of any other byte. The record is the model's choice (log entry 14), which R73 does not
have. -/
def Obligations.HostAccessToRunningBuffers : Prop :=
  ∀ (s : State) (a : Nat) (v : Byte), s.mem.wf = true → s.status.busy = true →
    (s.needRange.has a = true → hostMemRead a s = (Config.freeByte s.draws, { s with draws := s.draws + 1 })) ∧
    (s.needRange.has a = true →
      (∀ b, b ∈ (hostMemWrite a v s).outDisturbed ↔ b = a ∨ b ∈ s.outDisturbed) ∧
      (s.outDisturbed.Pairwise (· < ·) → (hostMemWrite a v s).outDisturbed.Pairwise (· < ·))) ∧
    (s.needRange.has a = false → (hostMemWrite a v s).outDisturbed = s.outDisturbed) ∧
    (s.inputRange.has a = true → (hostMemWrite a v s).srcDisturbed = true) ∧
    (s.inputRange.has a = false → (hostMemWrite a v s).srcDisturbed = s.srcDisturbed) ∧
    (hostMemWrite a v s).mem.read a = v ∧ (∀ b, b ≠ a → (hostMemWrite a v s).mem.read b = s.mem.read b) ∧
    hostMemWrite a v s =
      { s with
        mem := s.mem.write a v, srcDisturbed := (hostMemWrite a v s).srcDisturbed,
        outDisturbed := (hostMemWrite a v s).outDisturbed }

/-- A host line that comes to an address outside buffer memory stops the run (20_memory.md R60: it does not exist); that it
stops is the model's choice (log entry 13). -/
def Obligations.HostAddressOutsideMemoryFaults : Prop :=
  ∀ (s : State) (a bs k : HostExpr) (x : Nat), s.params.memSize ≤ (a.word s.host).toNat + s.host.progress →
    (s.host.program[s.host.pc]? = some (.mw a bs) → s.host.progress < (bs.byteList s.host).length →
      hostTurn s = .fault (.hostAddressOutsideMemory ((a.word s.host).toNat + s.host.progress))) ∧
    (s.host.program[s.host.pc]? = some (.mr a k x) → s.host.progress < (k.word s.host).toNat →
      hostTurn s = .fault (.hostAddressOutsideMemory ((a.word s.host).toNat + s.host.progress)))

/-! ## The register port -/

/-- A host write to CMD (10_state.md R25): ignored while BUSY or FAULT is 1, accepted otherwise. CMD reads the last
accepted word, and its reset value names no command. -/
def Obligations.CmdWriteStartsCommand : Prop :=
  (∀ (s : State) (v : Word), s.rst = false →
    readRegister s 0x08#8 = s.cmd ∧
    writeRegister 0x08#8 v s =
      if s.status.busy = true ∨ s.status.fault = true then s
      else
        { s with
          cmd := v,
          status := { s.status with done := false, err := false, errCause := .none, busy := true },
          resultLo := 0#32, resultHi := 0#32, errPos := 0#32, srcDisturbed := false, outDisturbed := [] }) ∧
  ∀ (p : Params) (m : Memory), (State.resetOn p m).cmd = 0#32 ∧ decode (State.resetOn p m).cmd = none

/-- While BUSY is 1 host writes to CMD, SRC, LEN, DST and DST_CAP are ignored, and a soft reset is honoured (10_state.md
R35); otherwise the operand registers take all 32 bits. -/
def Obligations.OperandWrites : Prop :=
  ∀ (s : State) (v : Word), s.rst = false →
    (s.status.busy = true → writeRegister 0x08#8 v s = s ∧ writeRegister 0x10#8 v s = s ∧ writeRegister 0x14#8 v s = s ∧
      writeRegister 0x18#8 v s = s ∧ writeRegister 0x1C#8 v s = s ∧
      (v.getLsbD 0 = true → (writeRegister 0x04#8 v s).registersAtReset)) ∧
    (s.status.busy = false → writeRegister 0x10#8 v s = { s with src := v } ∧
      writeRegister 0x14#8 v s = { s with len := v } ∧ writeRegister 0x18#8 v s = { s with dst := v } ∧
      writeRegister 0x1C#8 v s = { s with dstCap := v })

/-- Host writes to ID, STATUS, RESULT_LO, RESULT_HI, ERR_POS and every reserved offset are ignored (10_state.md R21, R42),
and so is a write to CTRL with SRST 0 (R24). -/
def Obligations.IgnoredRegisterWrites : Prop :=
  ∀ (s : State) (off : Offset) (v : Word),
    (off = 0x00#8 ∨ off = 0x0C#8 ∨ off = 0x20#8 ∨ off = 0x24#8 ∨ off = 0x28#8 ∨ 0x2C ≤ off.toNat →
      writeRegister off v s = s) ∧
    (v.getLsbD 0 = false → writeRegister 0x04#8 v s = s)

/-- What each register reads (10_state.md R21 to R34, R42). -/
def Obligations.RegisterReads : Prop :=
  ∀ (s : State), s.rst = false →
    readRegister s 0x00#8 = 0x42363401#32 ∧ readRegister s 0x04#8 = 0#32 ∧ readRegister s 0x08#8 = s.cmd ∧
    readRegister s 0x10#8 = s.src ∧ readRegister s 0x14#8 = s.len ∧ readRegister s 0x18#8 = s.dst ∧
    readRegister s 0x1C#8 = s.dstCap ∧ readRegister s 0x20#8 = s.resultLo ∧ readRegister s 0x24#8 = s.resultHi ∧
    readRegister s 0x28#8 = s.errPos ∧ ∀ off : Offset, 0x2C ≤ off.toNat → readRegister s off = 0#32

/-- The fields of the word STATUS reads (10_state.md R26), with the codes of R37. -/
def Obligations.StatusWordLayout : Prop :=
  ∀ (s : State), s.rst = false →
    (readRegister s 0x0C#8).getLsbD 0 = s.status.busy ∧ (readRegister s 0x0C#8).getLsbD 1 = s.status.done ∧
    (readRegister s 0x0C#8).getLsbD 2 = s.status.err ∧ (readRegister s 0x0C#8).getLsbD 3 = s.status.fault ∧
    (readRegister s 0x0C#8).extractLsb' 4 4 =
      (match s.status.errCause with
        | .none => 0#4 | .illegalCmd => 1#4 | .length => 2#4 | .badChar => 3#4 | .badPad => 4#4 | .nonCanon => 5#4) ∧
    (readRegister s 0x0C#8).extractLsb' 8 4 =
      (match s.status.faultCause with
        | .none => 0#4 | .srcRange => 1#4 | .dstRange => 2#4 | .overlap => 3#4 | .capacity => 4#4) ∧
    (readRegister s 0x0C#8).extractLsb' 12 20 = 0#20

/-- The register port (10_state.md R42): a 32-bit read or write at a multiple of 4 from `BASE` is done whole in one turn, and
a read has no side effect; any other access has no meaning and is refused; a reserved offset reads 0 and ignores writes. A
write's value is any expression of a host line, constant or variable; the word of a byte string or of an unset variable is a
free value (log entry 12). -/
def Obligations.RegisterPort : Prop :=
  ∀ (s : State) (off : Offset) (size x : Nat) (v : Word) (e : HostExpr),
    (off.toNat % 4 = 0 → s.host.program[s.host.pc]? = some (.rd (s.params.base + off.toNat) 32 x) →
      hostTurn s = .next
        { s with
          host := { s.host with
            pc := s.host.pc + 1, progress := 0, gathered := [],
            vars := putVar s.host.vars x (.word (readRegister s off)) } }) ∧
    (off.toNat % 4 = 0 → s.host.program[s.host.pc]? = some (.wr (s.params.base + off.toNat) 32 e) →
      hostTurn s = .next
        { writeRegister off (e.word s.host) s with
          host := { s.host with pc := s.host.pc + 1, progress := 0, gathered := [] } }) ∧
    (size ≠ 32 ∨ off.toNat % 4 ≠ 0 →
      (s.host.program[s.host.pc]? = some (.rd (s.params.base + off.toNat) size x) →
        hostTurn s = .refused (.busError (s.params.base + off.toNat) size)) ∧
      (s.host.program[s.host.pc]? = some (.wr (s.params.base + off.toNat) size e) →
        hostTurn s = .refused (.busError (s.params.base + off.toNat) size))) ∧
    (0x2C ≤ off.toNat → readRegister s off = 0#32 ∧ writeRegister off v s = s)

/-- The register block is `BASE + 0x00 .. BASE + 0xFF` (10_state.md R21, R41): a host register access at any other platform
address is not this block's. It is another device's, which the spec does not describe (60_exceptions.md R216), and that the
run stops there is the model's choice (log entry 12). -/
def Obligations.AccessOutsideRegisterBlock : Prop :=
  ∀ (s : State) (a size x : Nat) (e : HostExpr), a < s.params.base ∨ s.params.base + 0x100 ≤ a →
    (s.host.program[s.host.pc]? = some (.rd a size x) → hostTurn s = .refused (.notThisBlock a)) ∧
    (s.host.program[s.host.pc]? = some (.wr a size e) → hostTurn s = .refused (.notThisBlock a))

/-- `POLL` and `SRST` (30_encoding.md R96), and the pseudo-instructions as the lines they expand to (R97): a POLL before, the
operand writes, the CMD write of the command's word, and a POLL after. -/
def Obligations.PseudoInstructionLines : Prop :=
  ∀ (cfg : Params) (p q x : Nat) (s n d c : HostExpr),
    Line.POLL cfg p x = [.label p, .rd (cfg.base + 0x0C) 32 x, .ifGoto (.bit (.var x) 0) p] ∧
    Line.SRST cfg = .wr (cfg.base + 0x04) 32 (.imm 0x00000001#32) ∧
    Line.ENCODE cfg p q x s n d c = Line.POLL cfg p x ++
      [.wr (cfg.base + 0x10) 32 s, .wr (cfg.base + 0x14) 32 n, .wr (cfg.base + 0x18) 32 d, .wr (cfg.base + 0x1C) 32 c,
       .wr (cfg.base + 0x08) 32 (.imm 0x00000001#32)] ++ Line.POLL cfg q x ∧
    Line.DECODE cfg p q x s n d c = Line.POLL cfg p x ++
      [.wr (cfg.base + 0x10) 32 s, .wr (cfg.base + 0x14) 32 n, .wr (cfg.base + 0x18) 32 d, .wr (cfg.base + 0x1C) 32 c,
       .wr (cfg.base + 0x08) 32 (.imm 0x00000002#32)] ++ Line.POLL cfg q x ∧
    Line.ENCODE_LEN cfg p q x n = Line.POLL cfg p x ++
      [.wr (cfg.base + 0x14) 32 n, .wr (cfg.base + 0x08) 32 (.imm 0x00000003#32)] ++ Line.POLL cfg q x ∧
    Line.DECODE_LEN cfg p q x n = Line.POLL cfg p x ++
      [.wr (cfg.base + 0x14) 32 n, .wr (cfg.base + 0x08) 32 (.imm 0x00000004#32)] ++ Line.POLL cfg q x

/-- `MW` and `MR` (30_encoding.md R96) move one byte a turn, at the line's address plus the bytes already moved; after the
last byte the host goes on to its next line, and an `MR` then has all its bytes in its variable. That it is one byte a turn
is deduced from 20_memory.md R70; the increasing order and the gathering of an `MR` until its last byte are the model's
choice (log entry 19), and so is that address, bytes and count may be constants or variables (log entry 4). -/
def Obligations.HostMemoryLines : Prop :=
  ∀ (s : State) (a bs k : HostExpr) (x : Nat), (a.word s.host).toNat + s.host.progress < s.params.memSize →
    (∀ h : s.host.progress < (bs.byteList s.host).length, s.host.program[s.host.pc]? = some (.mw a bs) →
      hostTurn s = .next
        { hostMemWrite ((a.word s.host).toNat + s.host.progress) (bs.byteList s.host)[s.host.progress] s with
          host :=
            if s.host.progress + 1 < (bs.byteList s.host).length then { s.host with progress := s.host.progress + 1 }
            else { s.host with pc := s.host.pc + 1, progress := 0, gathered := [] } }) ∧
    (s.host.progress < (k.word s.host).toNat → s.host.program[s.host.pc]? = some (.mr a k x) →
      hostTurn s = .next
        { (hostMemRead ((a.word s.host).toNat + s.host.progress) s).2 with
          host :=
            if s.host.progress + 1 < (k.word s.host).toNat then
              { s.host with
                progress := s.host.progress + 1,
                gathered := s.host.gathered ++ [(hostMemRead ((a.word s.host).toNat + s.host.progress) s).1] }
            else
              { s.host with
                pc := s.host.pc + 1, progress := 0, gathered := [],
                vars := putVar s.host.vars x
                  (.bytes (s.host.gathered ++ [(hostMemRead ((a.word s.host).toNat + s.host.progress) s).1])) } })

/-- A label does nothing, and a branch (30_encoding.md R96) goes to its label's line when its condition holds and on to the
next line otherwise; neither touches the CORE or memory. That the line is the first one with that label, and the forms of
conditions, are the model's choice (log entry 4), and so is that a taken branch to a label the program does not have is
refused (log entry 12). -/
def Obligations.HostBranchLines : Prop :=
  ∀ (s : State) (l : Nat),
    (s.host.program[s.host.pc]? = some (.label l) →
      hostTurn s = .next { s with host := { s.host with pc := s.host.pc + 1, progress := 0, gathered := [] } }) ∧
    ∀ c : HostCond, s.host.program[s.host.pc]? = some (.ifGoto c l) →
      (c.eval s.host = false →
        hostTurn s = .next { s with host := { s.host with pc := s.host.pc + 1, progress := 0, gathered := [] } }) ∧
      (∀ j, c.eval s.host = true → s.host.program[j]? = some (.label l) →
        (∀ i, i < j → s.host.program[i]? ≠ some (.label l)) →
        hostTurn s = .next { s with host := { s.host with pc := j, progress := 0, gathered := [] } }) ∧
      (c.eval s.host = true → (∀ i : Nat, s.host.program[i]? ≠ some (.label l)) →
        hostTurn s = .refused (.hostLabelMissing l))

/-- Host variables and conditions (30_encoding.md R96, whose examples are `s[0] = 1` and `s != 0x24`): an assigned variable
holds its value and no other variable changes; a condition on words, on a byte an `MR` read, and on byte strings. The forms
of conditions are the model's choice (log entry 4), and so is that a single byte stands for its number (log entry 12). -/
def Obligations.HostVariablesAndConditions : Prop :=
  (∀ (vars : List (Nat × HostValue)) (x : Nat) (v : HostValue), getVar (putVar vars x v) x = some v ∧
    ∀ y, y ≠ x → getVar (putVar vars x v) y = getVar vars y) ∧
  ∀ (h : HostAgent) (x y z : Nat) (u w : Word) (b : Byte) (bs cs : List Byte) (i : Nat) (c d : HostCond),
    getVar h.vars x = some (.word u) → getVar h.vars y = some (.bytes [b]) → getVar h.vars z = some (.bytes bs) →
    (((HostCond.eq (.var x) (.imm w)).eval h = true ↔ u = w) ∧
     ((HostCond.not (.eq (.var x) (.imm w))).eval h = true ↔ u ≠ w) ∧
     ((HostCond.bit (.var x) i).eval h = true ↔ u.getLsbD i = true) ∧
     ((HostCond.lt (.var x) (.imm w)).eval h = true ↔ u.toNat < w.toNat) ∧
     ((HostCond.lt (.var y) (.var x)).eval h = true ↔ b.toNat < u.toNat) ∧
     ((HostCond.eq (.var y) (.imm w)).eval h = true ↔ b.toNat = w.toNat) ∧
     ((HostCond.eq (.var z) (.bytes cs)).eval h = true ↔ bs = cs) ∧
     ((HostCond.not c).eval h = true ↔ c.eval h = false) ∧
     ((HostCond.and c d).eval h = true ↔ c.eval h = true ∧ d.eval h = true))

/-! ## Reset -/

/-- What reset leaves (70_reset_and_hazards.md R240, R241): every register at its reset value, idle, and ready to accept a
command; buffer memory is the platform's. It holds for every platform, and so for `State.reset`, whose parameters and
memory are the model's choice (log entries 1 and 2). -/
def Obligations.ResetState : Prop :=
  (∀ (p : Params) (m : Memory), (State.resetOn p m).registersAtReset ∧ (State.resetOn p m).undisturbed ∧
    (State.resetOn p m).mem = m ∧ readRegister (State.resetOn p m) 0x00#8 = 0x42363401#32 ∧
    ∀ v : Word, (writeRegister 0x08#8 v (State.resetOn p m)).status.busy = true ∧
      (writeRegister 0x08#8 v (State.resetOn p m)).cmd = v) ∧
  ∃ p m, State.reset = State.resetOn p m

/-- Reset (70_reset_and_hazards.md R240), from a write to CTRL with SRST 1 and from the `rst` input, in every state: every
register at its reset value, ID at its constant, the tables and the rest of the platform as before. When no command runs,
memory is unchanged too (R243). -/
def Obligations.ResetClearsRegisters : Prop :=
  ∀ s : State,
    (∀ v : Word, s.rst = false → v.getLsbD 0 = true →
      (writeRegister 0x04#8 v s).registersAtReset ∧ (writeRegister 0x04#8 v s).undisturbed ∧
      readRegister (writeRegister 0x04#8 v s) 0x00#8 = 0x42363401#32 ∧
      keepsSurroundings s (writeRegister 0x04#8 v s) ∧
      (s.status.busy = false → (writeRegister 0x04#8 v s).mem = s.mem)) ∧
    ∃ t, runTurn (.rst true) s = .next t ∧ t.registersAtReset ∧ t.undisturbed ∧
      readRegister t 0x00#8 = 0x42363401#32 ∧ t.params = s.params ∧ t.host = s.host ∧ t.schedule = s.schedule ∧
      t.rst = true ∧ (s.status.busy = false → t.mem = s.mem)

/-- The deassertion of `rst` (10_state.md R41; step 2 of 70_reset_and_hazards.md R245): it lowers the input and changes
nothing else, and the CORE that was held in reset then accepts a command. That it is a turn of the schedule is the model's
choice (log entry 20). -/
def Obligations.DeassertedRstReleasesTheCore : Prop :=
  ∀ s : State, runTurn (.rst false) s = .next { s with rst := false } ∧
    (s.Inv → s.rst = true → ({ s with rst := false } : State).registersAtReset ∧
      ∀ v : Word, (writeRegister 0x08#8 v { s with rst := false }).cmd = v ∧
        (writeRegister 0x08#8 v { s with rst := false }).status.busy = true)

/-- A reset while a command runs (70_reset_and_hazards.md R242), from SRST and from the `rst` input: the registers take
their reset values, with no completion step. The need range of a
running ENCODE or DECODE whose operands pass the contract check is free and every other byte unchanged; otherwise memory
is unchanged. -/
def Obligations.AbortLeavesNeedRangeFree : Prop :=
  ∀ (s : State), s.mem.wf = true → s.status.busy = true →
    (resetCore s).registersAtReset ∧
    (∀ i, (i = .encode ∨ i = .decode) → s.command = some i → contractHolds i s →
      rangeFree (needRangeOf i s) s.draws (resetCore s) ∧ keepsMemoryOutside (needRangeOf i s) s (resetCore s)) ∧
    (∀ i, s.command = some i → ¬ contractHolds i s → (resetCore s).mem = s.mem) ∧
    (s.command = some .encodeLen ∨ s.command = some .decodeLen ∨ s.command = none → (resetCore s).mem = s.mem) ∧
    (∀ v : Word, s.rst = false → v.getLsbD 0 = true → writeRegister 0x04#8 v s = resetCore s) ∧
    runTurn (.rst true) s = .next { resetCore s with rst := true }

/-- The timing of reset (70_reset_and_hazards.md R244): a CTRL write with SRST 1 takes effect with that write; while `rst` is
asserted register writes are ignored, reads return the reset values, and the core has no step; CTRL always reads 0. R244 says
only that there is no step: that the core's turn then answers the same state is the model's choice (log entry 21). -/
def Obligations.AssertedRstHoldsTheCore : Prop :=
  ∀ s : State,
    (∀ v : Word, s.rst = false → v.getLsbD 0 = true → (writeRegister 0x04#8 v s).registersAtReset) ∧
    (s.rst = true →
      (∀ (off : Offset) (v : Word), writeRegister off v s = s) ∧
      (∀ off : Offset, readRegister s off = if off = 0x00#8 then 0x42363401#32 else 0#32) ∧
      coreTurn s = .next s) ∧
    readRegister s 0x04#8 = 0#32

/-! ## The step, and what every step keeps -/

/-- A step is one turn, and the completion step is the core's (20_memory.md R70, 60_exceptions.md R220). The turn at the head
of the schedule is taken off it: a host's turn, a change of `rst`, or, while BUSY is 1 and `rst` is low, `execute` of the word
in CMD, and nothing otherwise (log entry 21). With an empty schedule it is the core's turn while BUSY is 1 and the host's
otherwise (log entry 5). `execute` is `exec` of the command that the word decodes to (30_encoding.md R92), and IllegalCommand
for every other word (R94). `withFetchWord` places a word so that the very next step is its command's, with memory, operands
and parameters as they were (log entry 6). -/
def Obligations.StepRunsDecodedCommand : Prop :=
  (∀ (s : State) (rest : List Turn), s.schedule = .core :: rest →
    (s.status.busy = true → s.rst = false → step s = execute { s with schedule := rest } ∧
      ∀ i, decode s.cmd = some i → step s = exec i { s with schedule := rest }) ∧
    (s.status.busy = false ∨ s.rst = true → step s = .next { s with schedule := rest })) ∧
  (∀ (s : State) (rest : List Turn), s.schedule = .host :: rest → step s = hostTurn { s with schedule := rest }) ∧
  (∀ (s : State) (b : Bool) (rest : List Turn), s.schedule = .rst b :: rest →
    step s = runTurn (.rst b) { s with schedule := rest }) ∧
  (∀ s : State, s.schedule = [] →
    (s.status.busy = true → s.rst = false → step s = execute s ∧ ∀ i, decode s.cmd = some i → step s = exec i s) ∧
    (s.status.busy = true → s.rst = true → step s = .next s) ∧
    (s.status.busy = false → step s = hostTurn s)) ∧
  (∀ s : State, (∀ i, decode s.cmd = some i → execute s = exec i s) ∧
    (decode s.cmd = none → execute s = .next (raiseIllegalCommand s))) ∧
  (∀ (s : State) (w : Nat), w < 2 ^ 32 →
    (∀ i, decodeTableWord 32 w = some i →
      step (s.withFetchWord 32 w) = exec i { s.withFetchWord 32 w with schedule := s.schedule }) ∧
    (decodeTableWord 32 w = none →
      step (s.withFetchWord 32 w) = .next (raiseIllegalCommand { s.withFetchWord 32 w with schedule := s.schedule })) ∧
    (s.withFetchWord 32 w).cmd = BitVec.ofNat 32 w ∧ (s.withFetchWord 32 w).status.busy = true ∧
    (s.withFetchWord 32 w).mem = s.mem ∧ (s.withFetchWord 32 w).params = s.params ∧
    (s.withFetchWord 32 w).src = s.src ∧ (s.withFetchWord 32 w).len = s.len ∧ (s.withFetchWord 32 w).dst = s.dst ∧
    (s.withFetchWord 32 w).dstCap = s.dstCap)

/-- While BUSY is 0 the core has no step (60_exceptions.md R220), and a run ends when the host has ended too
(70_reset_and_hazards.md R252). That a turn with nothing to do answers the same state, so that an ended run stays as it is,
is the model's choice (log entry 21), and so is whose turn it is past the schedule (log entry 5). -/
def Obligations.IdleCoreHasNoStep : Prop :=
  ∀ s : State, (s.status.busy = false → coreTurn s = .next s) ∧
    (s.runEnded → s.schedule = [] → step s = .next s)

/-- BUSY does not stay 1 (60_exceptions.md R220): within one step more than the schedule has turns, the machine is at a
state with BUSY 0, unless a host line stopped the run. It rests on whose turn it is past the schedule (log entry 5). -/
def Obligations.BusyEndsWithinSchedule : Prop :=
  ∀ s : State, s.Inv → ∃ k, k ≤ s.schedule.length + 1 ∧
    ((∃ t : State, Host.Core.run core k s = .next t ∧ t.status.busy = false) ∨ ∀ t : State, Host.Core.run core k s ≠ .next t)

/-- Every step keeps the invariant: the memory's canonical form, the STATUS rule of 10_state.md R27, the outcomes of
60_exceptions.md R202, and the rest of `State.Inv`. -/
def Obligations.StepKeepsInvariant : Prop :=
  ∀ s t : State, s.Inv → step s = .next t → t.Inv

/-- Reset meets the invariant, on every platform whose parameters and memory are well formed. -/
def Obligations.ResetMeetsInvariant : Prop :=
  State.reset.Inv ∧
  ∀ (p : Params) (m : Memory), p.wellFormed = true → m.wf = true → m.inside p.memSize = true → (State.resetOn p m).Inv

/-- No command, host access or reset changes the tables (10_state.md R40): no step changes the parameters they are made
of. -/
def Obligations.TablesAreReadOnly : Prop :=
  ∀ s t : State, step s = .next t → t.params = s.params ∧
    (∀ v, alphabet t.params v = alphabet s.params v) ∧ ∀ c, reverse t.params c = reverse s.params c

/-- While FAULT is 1 (10_state.md R36): CMD writes are ignored, operand writes take effect as usual, and in a step FAULT
stays, with its cause and CMD, unless the step is a reset, from the `rst` input or from a write to CTRL with SRST 1. -/
def Obligations.OnlyResetClearsFault : Prop :=
  ∀ s : State, s.Inv → s.status.fault = true →
    (∀ v : Word, s.rst = false →
      writeRegister 0x08#8 v s = s ∧ writeRegister 0x10#8 v s = { s with src := v } ∧
      writeRegister 0x14#8 v s = { s with len := v } ∧ writeRegister 0x18#8 v s = { s with dst := v } ∧
      writeRegister 0x1C#8 v s = { s with dstCap := v }) ∧
    ∀ t : State, step s = .next t →
      (t.status = s.status ∧ t.cmd = s.cmd) ∨
      (t.registersAtReset ∧
        ((∃ rest, s.schedule = .rst true :: rest) ∨
         ∃ e, s.host.program[s.host.pc]? = some (.wr (s.params.base + 0x04) 32 e) ∧ (e.word s.host).getLsbD 0 = true))

/-- While a command runs, CMD and its operands stand (10_state.md R35): a step after which BUSY is still 1 changes none of
them, nor any result register. -/
def Obligations.RunningCommandKeepsOperands : Prop :=
  ∀ s t : State, s.status.busy = true → step s = .next t → t.status.busy = true →
    keepsOperands s t ∧ t.status = s.status ∧ t.resultLo = s.resultLo ∧ t.resultHi = s.resultHi ∧ t.errPos = s.errPos

/-- While BUSY is 1, RESULT and ERR_POS read 0 and STATUS shows no cause (70_reset_and_hazards.md R248). -/
def Obligations.ResultsReadZeroWhileBusy : Prop :=
  ∀ s : State, s.Inv → s.status.busy = true →
    readRegister s 0x20#8 = 0#32 ∧ readRegister s 0x24#8 = 0#32 ∧ readRegister s 0x28#8 = 0#32 ∧
    readRegister s 0x0C#8 = 0x00000001#32
end

