-- ==== Sys2Proof/Laws/Memory.lean ====
section
/-! SUPPORT. The laws of buffer memory: a write is read back, it leaves every other byte alone, it keeps the canonical form
and stays inside the memory; then the same of runs of bytes and of filled ranges. -/

namespace Sys2Proof.Machine.Memory

theorem wfFrom_mono {lo lo' : Nat} (h : lo' ≤ lo) : ∀ {m : Memory}, wfFrom lo m = true → wfFrom lo' m = true
  | [], _ => rfl
  | (k, b) :: rest, hm => by
    simp only [wfFrom, Bool.and_eq_true, decide_eq_true_eq] at hm ⊢
    exact ⟨⟨by omega, hm.1.2⟩, hm.2⟩

theorem read_below {lo a : Nat} (ha : a < lo) : ∀ {m : Memory}, wfFrom lo m = true → read m a = Config.powerOnByte
  | [], _ => rfl
  | (k, b) :: rest, hm => by
    simp only [wfFrom, Bool.and_eq_true, decide_eq_true_eq] at hm
    have h1 : ¬ a = k := by omega
    have h2 : a < k := by omega
    simp only [read, if_neg h1, if_pos h2]

theorem wfFrom_cons {lo a : Nat} {v : Byte} {rest : Memory} (ha : lo ≤ a) (hr : wfFrom (a + 1) rest = true) :
    wfFrom lo (cons a v rest) = true := by
  unfold cons
  split
  · exact wfFrom_mono (by omega) hr
  · rename_i hv
    simp only [wfFrom, Bool.and_eq_true, decide_eq_true_eq]
    exact ⟨⟨ha, hv⟩, hr⟩

theorem read_cons_self {a : Nat} {v : Byte} {rest : Memory} (hr : wfFrom (a + 1) rest = true) :
    read (cons a v rest) a = v := by
  unfold cons
  split
  · rename_i hv
    rw [read_below (Nat.lt_succ_self a) hr, hv]
  · simp [read]

theorem read_cons_other {a a' : Nat} {v : Byte} {rest : Memory} (hr : wfFrom (a + 1) rest = true) (h : a' ≠ a) :
    read (cons a v rest) a' = read rest a' := by
  unfold cons
  split
  · rfl
  · simp only [read, if_neg h]
    split
    · rename_i hlt
      exact (read_below (by omega) hr).symm
    · rfl

theorem wfFrom_write {lo : Nat} : ∀ {m : Memory} {a : Nat} {v : Byte}, wfFrom lo m = true → lo ≤ a →
    wfFrom lo (write m a v) = true := by
  intro m
  induction m generalizing lo with
  | nil => intro a v _ ha; exact wfFrom_cons ha rfl
  | cons c rest ih =>
    intro a v hm ha
    obtain ⟨k, b⟩ := c
    have hm' := hm
    simp only [wfFrom, Bool.and_eq_true, decide_eq_true_eq] at hm
    unfold write
    split
    · rename_i h; exact wfFrom_cons ha (h ▸ hm.2)
    · split
      · rename_i h1 h2
        refine wfFrom_cons ha ?_
        simp only [wfFrom, Bool.and_eq_true, decide_eq_true_eq]
        exact ⟨⟨h2, hm.1.2⟩, hm.2⟩
      · simp only [wfFrom, Bool.and_eq_true, decide_eq_true_eq]
        exact ⟨hm.1, ih hm.2 (by omega)⟩

theorem read_write_from {lo : Nat} : ∀ {m : Memory} {a a' : Nat} {v : Byte}, wfFrom lo m = true →
    read (write m a v) a' = if a' = a then v else read m a' := by
  intro m
  induction m generalizing lo with
  | nil =>
    intro a a' v _
    by_cases h : a' = a
    · subst h; simp [write, read_cons_self (rest := []) rfl]
    · simp [write, read_cons_other (rest := []) rfl h, h]
  | cons c rest ih =>
    intro a a' v hm
    obtain ⟨k, b⟩ := c
    simp only [wfFrom, Bool.and_eq_true, decide_eq_true_eq] at hm
    unfold write
    split
    · rename_i h
      subst h
      by_cases h : a' = a
      · subst h; simp [read_cons_self hm.2]
      · rw [read_cons_other hm.2 h, if_neg h]
        simp only [read, if_neg h]
        split
        · rename_i hlt; exact read_below (by omega) hm.2
        · rfl
    · split
      · rename_i h1 h2
        have hr : wfFrom (a + 1) ((k, b) :: rest) = true := by
          simp only [wfFrom, Bool.and_eq_true, decide_eq_true_eq]
          exact ⟨⟨h2, hm.1.2⟩, hm.2⟩
        by_cases h : a' = a
        · subst h; simp [read_cons_self hr]
        · rw [read_cons_other hr h, if_neg h]
      · rename_i h1 h2
        simp only [read]
        split
        · rename_i h; subst h; rw [if_neg (fun e => h1 e.symm)]
        · split
          · rw [if_neg (by omega)]
          · exact ih hm.2

/-- A write keeps the canonical form. -/
theorem write_wf {m : Memory} {a : Nat} {v : Byte} (hm : m.wf = true) : (write m a v).wf = true :=
  wfFrom_write hm (Nat.zero_le a)

/-- A byte reads as it was last written, and every other byte as before. -/
theorem read_write {m : Memory} {a a' : Nat} {v : Byte} (hm : m.wf = true) :
    read (write m a v) a' = if a' = a then v else read m a' := read_write_from hm

theorem read_write_same {m : Memory} {a : Nat} {v : Byte} (hm : m.wf = true) : read (write m a v) a = v := by
  rw [read_write hm, if_pos rfl]

theorem read_write_other {m : Memory} {a a' : Nat} {v : Byte} (hm : m.wf = true) (h : a' ≠ a) :
    read (write m a v) a' = read m a' := by rw [read_write hm, if_neg h]

theorem cons_inside {size a : Nat} {v : Byte} {rest : Memory} (ha : a < size) (hr : inside size rest = true) :
    inside size (cons a v rest) = true := by
  unfold cons
  split
  · exact hr
  · simpa [inside, ha] using hr

/-- A write to an address that exists lists no address that does not. -/
theorem write_inside {size a : Nat} {v : Byte} (ha : a < size) : ∀ {m : Memory}, inside size m = true →
    inside size (write m a v) = true
  | [], _ => cons_inside ha rfl
  | (k, b) :: rest, hm => by
    have hr : inside size rest = true := by
      simp only [inside, List.all_cons, Bool.and_eq_true] at hm; exact hm.2
    unfold write
    split
    · exact cons_inside ha hr
    · split
      · exact cons_inside ha hm
      · have := write_inside (v := v) ha hr
        simp only [inside, List.all_cons, Bool.and_eq_true] at hm this ⊢
        exact ⟨hm.1, this⟩

/-- An address that does not exist reads as nothing was written. -/
theorem read_outside {size a : Nat} (ha : size ≤ a) : ∀ {m : Memory}, inside size m = true →
    read m a = Config.powerOnByte
  | [], _ => rfl
  | (k, b) :: rest, hm => by
    simp only [inside, List.all_cons, Bool.and_eq_true, decide_eq_true_eq] at hm
    have hk : k < size := hm.1
    have h1 : ¬ a = k := by omega
    have h2 : ¬ a < k := by omega
    simp only [read, if_neg h1, if_neg h2]
    exact read_outside ha hm.2

theorem writeBytes_wf : ∀ {bs : List Byte} {m : Memory} {a : Nat}, m.wf = true → (writeBytes m a bs).wf = true
  | [], _, _, h => h
  | _ :: bs, _, _, h => writeBytes_wf (bs := bs) (write_wf h)

/-- Bytes written in a row read back in a row, and every other byte reads as before. -/
theorem read_writeBytes : ∀ {bs : List Byte} {m : Memory} {a a' : Nat}, m.wf = true →
    read (writeBytes m a bs) a' = if h : a ≤ a' ∧ a' < a + bs.length then bs[a' - a]'(by omega) else read m a'
  | [], m, a, a', _ => by
    have : ¬ (a ≤ a' ∧ a' < a + ([] : List Byte).length) := by simp
    rw [dif_neg this]; rfl
  | b :: bs, m, a, a', hm => by
    show read (writeBytes (write m a b) (a + 1) bs) a' = _
    rw [read_writeBytes (write_wf hm), read_write hm]
    by_cases h1 : a' = a
    · subst h1
      have h2 : ¬ (a' + 1 ≤ a' ∧ a' < a' + 1 + bs.length) := by omega
      have h3 : a' ≤ a' ∧ a' < a' + (b :: bs).length := by simp
      rw [dif_neg h2, dif_pos h3]
      simp
    · by_cases h2 : a + 1 ≤ a' ∧ a' < a + 1 + bs.length
      · have h3 : a ≤ a' ∧ a' < a + (b :: bs).length := by simp only [List.length_cons]; omega
        rw [dif_pos h2, dif_pos h3]
        have h4 : a' - a = (a' - (a + 1)) + 1 := by omega
        simp only [h4, List.getElem_cons_succ]
      · have h3 : ¬ (a ≤ a' ∧ a' < a + (b :: bs).length) := by simp only [List.length_cons]; omega
        rw [dif_neg h2, dif_neg h3, if_neg h1]

theorem read_writeBytes_other {bs : List Byte} {m : Memory} {a a' : Nat} (hm : m.wf = true)
    (h : a' < a ∨ a + bs.length ≤ a') : read (writeBytes m a bs) a' = read m a' := by
  rw [read_writeBytes hm, dif_neg (by omega)]

theorem writeBytes_inside {size : Nat} : ∀ {bs : List Byte} {m : Memory} {a : Nat}, a + bs.length ≤ size →
    inside size m = true → inside size (writeBytes m a bs) = true
  | [], _, _, _, h => h
  | _ :: bs, _, _, ha, h => by
    simp only [List.length_cons] at ha
    exact writeBytes_inside (bs := bs) (by omega) (write_inside (by omega) h)

theorem fill_wf : ∀ {count : Nat} {m : Memory} {a d : Nat}, m.wf = true → (fill m a d count).wf = true
  | 0, _, _, _, h => h
  | count + 1, _, _, _, h => fill_wf (count := count) (write_wf h)

/-- A filled range holds one free value per byte, in order, and every other byte reads as before. -/
theorem read_fill : ∀ {count : Nat} {m : Memory} {a d a' : Nat}, m.wf = true →
    read (fill m a d count) a' = if a ≤ a' ∧ a' < a + count then Config.freeByte (d + (a' - a)) else read m a'
  | 0, m, a, d, a', _ => by
    have : ¬ (a ≤ a' ∧ a' < a + 0) := by omega
    rw [if_neg this]; rfl
  | count + 1, m, a, d, a', hm => by
    show read (fill (write m a (Config.freeByte d)) (a + 1) (d + 1) count) a' = _
    rw [read_fill (write_wf hm), read_write hm]
    by_cases h1 : a' = a
    · subst h1
      rw [if_neg (by omega), if_pos rfl, if_pos (by omega)]
      simp
    · by_cases h2 : a + 1 ≤ a' ∧ a' < a + 1 + count
      · rw [if_pos h2, if_pos (by omega)]
        congr 1; omega
      · rw [if_neg h2, if_neg h1, if_neg (by omega)]

theorem fill_inside {size : Nat} : ∀ {count : Nat} {m : Memory} {a d : Nat}, a + count ≤ size →
    inside size m = true → inside size (fill m a d count) = true
  | 0, _, _, _, _, h => h
  | count + 1, _, _, _, ha, h => fill_inside (count := count) (by omega) (write_inside (by omega) h)

theorem fillAt_wf : ∀ {l : List Nat} {m : Memory} {d : Nat}, m.wf = true → (fillAt m d l).wf = true
  | [], _, _, h => h
  | _ :: l, _, _, h => fillAt_wf (l := l) (write_wf h)

/-- Filling the bytes of a list leaves every other byte alone. -/
theorem read_fillAt_other : ∀ {l : List Nat} {m : Memory} {d a' : Nat}, m.wf = true → a' ∉ l →
    read (fillAt m d l) a' = read m a'
  | [], _, _, _, _, _ => rfl
  | a :: l, m, d, a', hm, h => by
    simp only [List.mem_cons, not_or] at h
    show read (fillAt (write m a (Config.freeByte d)) (d + 1) l) a' = _
    rw [read_fillAt_other (write_wf hm) h.2, read_write_other hm h.1]

/-- Each byte of the list holds a free value of its own draw. -/
theorem read_fillAt_mem : ∀ {l : List Nat} {m : Memory} {d : Nat}, m.wf = true → l.Nodup → ∀ i (hi : i < l.length),
    read (fillAt m d l) l[i] = Config.freeByte (d + i)
  | [], _, _, _, _, _, hi => absurd hi (by simp)
  | a :: l, m, d, hm, hn, 0, _ => by
    show read (fillAt (write m a (Config.freeByte d)) (d + 1) l) a = _
    rw [read_fillAt_other (write_wf hm) (List.nodup_cons.1 hn).1, read_write_same hm]; rfl
  | a :: l, m, d, hm, hn, i + 1, hi => by
    show read (fillAt (write m a (Config.freeByte d)) (d + 1) l) (l[i]'(by simpa using hi)) = _
    rw [read_fillAt_mem (write_wf hm) (List.nodup_cons.1 hn).2 i (by simpa using hi)]
    congr 1; omega

theorem fillAt_inside {size : Nat} : ∀ {l : List Nat} {m : Memory} {d : Nat}, (∀ a ∈ l, a < size) →
    inside size m = true → inside size (fillAt m d l) = true
  | [], _, _, _, h => h
  | a :: l, _, _, ha, h =>
    fillAt_inside (l := l) (fun x hx => ha x (List.mem_cons_of_mem a hx)) (write_inside (ha a List.mem_cons_self) h)

/-- Equal bytes at every address make equal memories: the canonical form is one. -/
theorem ext_from {lo : Nat} : ∀ {m m' : Memory}, wfFrom lo m = true → wfFrom lo m' = true →
    (∀ a, read m a = read m' a) → m = m'
  | [], [], _, _, _ => rfl
  | [], (k, b) :: rest, _, hm', h => by
    simp only [wfFrom, Bool.and_eq_true, decide_eq_true_eq] at hm'
    have := h k
    simp only [read] at this
    exact absurd this.symm hm'.1.2
  | (k, b) :: rest, [], hm, _, h => by
    simp only [wfFrom, Bool.and_eq_true, decide_eq_true_eq] at hm
    have := h k
    simp only [read] at this
    exact absurd this hm.1.2
  | (k, b) :: rest, (k', b') :: rest', hm, hm', h => by
    simp only [wfFrom, Bool.and_eq_true, decide_eq_true_eq] at hm hm'
    have hk : k = k' := by
      rcases Nat.lt_trichotomy k k' with hlt | heq | hgt
      · have := h k
        rw [read, if_pos rfl, read, if_neg (by omega), if_pos hlt] at this
        exact absurd this hm.1.2
      · exact heq
      · have := h k'
        rw [read, if_neg (by omega), if_pos hgt, read, if_pos rfl] at this
        exact absurd this.symm hm'.1.2
    subst hk
    have hb : b = b' := by simpa [read] using h k
    subst hb
    congr 1
    refine ext_from hm.2 hm'.2 (fun a => ?_)
    by_cases ha : k + 1 ≤ a
    · have := h a
      rwa [read, if_neg (by omega), if_neg (by omega), read, if_neg (by omega), if_neg (by omega)] at this
    · rw [read_below (by omega) hm.2, read_below (by omega) hm'.2]

end Sys2Proof.Machine.Memory
end

