-- ==== Sys2Proof/Laws/Tables.lean ====
section
/-! SUPPORT. The laws of the two tables (10_state.md R38, R39): `Rv` inverts `A`, nothing else is data, and the pad is the
pad character alone. -/

namespace Sys2Proof.Machine

theorem wellFormed_alphas {p : Params} (hp : p.wellFormed = true) :
    p.alpha62 ≠ p.alpha63 ∧ isFixedDataChar p.alpha62 = false ∧ isFixedDataChar p.alpha63 = false ∧
      p.alpha62 ≠ Config.padChar ∧ p.alpha63 ≠ Config.padChar := by
  simp only [Params.wellFormed, Bool.and_eq_true, decide_eq_true_eq, Bool.not_eq_true'] at hp
  exact ⟨hp.1.1.1.1, hp.1.1.1.2, hp.1.1.2, hp.1.2, hp.2⟩

/-- Outside the three ranges, `Rv` looks at the two parameters and the pad. -/
theorem reverse_of_not_fixed {p : Params} {c : Byte} (hc : isFixedDataChar c = false) :
    reverse p c = if c = p.alpha62 then .data 62#6 else if c = p.alpha63 then .data 63#6
      else if c = Config.padChar then .pad else .invalid := by
  simp only [isFixedDataChar, Bool.or_eq_false_iff, Bool.and_eq_false_iff, decide_eq_false_iff_not] at hc
  unfold reverse
  rw [if_neg (by omega), if_neg (by omega), if_neg (by omega)]

/-- `Rv[A[v]] = DATA(v)` (10_state.md R39). -/
theorem reverse_alphabet {p : Params} (hp : p.wellFormed = true) (v : Sextet) :
    reverse p (alphabet p v) = .data v := by
  obtain ⟨h1, h2, h3, h4, h5⟩ := wellFormed_alphas hp
  have hv := v.isLt
  unfold alphabet
  split
  · rename_i h
    have : (BitVec.ofNat 8 (0x41 + v.toNat)).toNat = 0x41 + v.toNat := by
      rw [BitVec.toNat_ofNat]; omega
    unfold reverse
    rw [if_pos (by omega), this]
    congr 1
    rw [Nat.add_sub_cancel_left]; simp
  · split
    · have : (BitVec.ofNat 8 (0x47 + v.toNat)).toNat = 0x47 + v.toNat := by
        rw [BitVec.toNat_ofNat]; omega
      unfold reverse
      rw [if_neg (by omega), if_pos (by omega), this]
      congr 1
      rw [Nat.add_sub_cancel_left]; simp
    · split
      · have : (BitVec.ofNat 8 (v.toNat - 4)).toNat = v.toNat - 4 := by
          rw [BitVec.toNat_ofNat]; omega
        unfold reverse
        rw [if_neg (by omega), if_neg (by omega), if_pos (by omega), this]
        congr 1
        rw [Nat.sub_add_cancel (by omega)]; simp
      · split
        · rename_i h
          rw [reverse_of_not_fixed h2, if_pos rfl]
          congr 1
          exact BitVec.eq_of_toNat_eq (by simpa using h.symm)
        · rw [reverse_of_not_fixed h3, if_neg (Ne.symm h1), if_pos rfl]
          congr 1
          exact BitVec.eq_of_toNat_eq (by simp; omega)

/-- The pad character is the pad (10_state.md R39). -/
theorem reverse_pad {p : Params} (hp : p.wellFormed = true) : reverse p Config.padChar = .pad := by
  obtain ⟨_, _, _, h4, h5⟩ := wellFormed_alphas hp
  rw [reverse_of_not_fixed (by decide), if_neg (Ne.symm h4), if_neg (Ne.symm h5), if_pos rfl]

/-- `A` inverts `Rv` on data characters: no other byte is data (10_state.md R39). -/
theorem alphabet_of_reverse {p : Params} {c : Byte} {v : Sextet} (h : reverse p c = .data v) : alphabet p v = c := by
  have hc := c.isLt
  unfold reverse at h
  split at h
  · rename_i hr
    obtain rfl := CharClass.data.inj h
    have : (BitVec.ofNat 6 (c.toNat - 0x41)).toNat = c.toNat - 0x41 := by rw [BitVec.toNat_ofNat]; omega
    unfold alphabet
    rw [this, if_pos (by omega), Nat.add_sub_cancel' hr.1]; simp
  · split at h
    · rename_i hr
      obtain rfl := CharClass.data.inj h
      have : (BitVec.ofNat 6 (c.toNat - 0x47)).toNat = c.toNat - 0x47 := by rw [BitVec.toNat_ofNat]; omega
      unfold alphabet
      rw [this, if_neg (by omega), if_pos (by omega), Nat.add_sub_cancel' (by omega)]; simp
    · split at h
      · rename_i hr
        obtain rfl := CharClass.data.inj h
        have : (BitVec.ofNat 6 (c.toNat + 4)).toNat = c.toNat + 4 := by rw [BitVec.toNat_ofNat]; omega
        unfold alphabet
        rw [this, if_neg (by omega), if_neg (by omega), if_pos (by omega), Nat.add_sub_cancel]
        simp
      · split at h
        · rename_i he
          obtain rfl := CharClass.data.inj h
          rw [he]; rfl
        · split at h
          · rename_i he
            obtain rfl := CharClass.data.inj h
            rw [he]; rfl
          · split at h <;> cases h

/-- Only the pad character is the pad. -/
theorem eq_pad_of_reverse {p : Params} {c : Byte} (h : reverse p c = .pad) : c = Config.padChar := by
  unfold reverse at h
  repeat' split at h
  all_goals first | assumption | cases h

/-- No data character is the pad (10_state.md R38). -/
theorem alphabet_ne_pad {p : Params} (hp : p.wellFormed = true) (v : Sextet) : alphabet p v ≠ Config.padChar := by
  intro h
  have := reverse_alphabet hp v
  rw [h, reverse_pad hp] at this
  cases this

/-- The table is injective (10_state.md R38). -/
theorem alphabet_injective {p : Params} (hp : p.wellFormed = true) {v w : Sextet} (h : alphabet p v = alphabet p w) :
    v = w := by
  have := reverse_alphabet hp v
  rw [h, reverse_alphabet hp w] at this
  exact (CharClass.data.inj this).symm

end Sys2Proof.Machine
end

