-- ==== Sys2Proof/Laws/Encoder.lean ====
section
/-! SUPPORT. The laws of the encoder datapath: the shape of a group, what the loop of 41_encoder.md R135 leaves in memory,
and the group function's inverse bits. -/

namespace Sys2Proof.Machine

theorem encodeLen_eq (n : Nat) : encodeLen n = 4 * encodeGroups n := by
  unfold encodeLen encodeGroups; omega

/-- Group `g` of the input has its first byte (41_encoder.md R130). -/
theorem group_lt {n g : Nat} (h : g < encodeGroups n) : 3 * g < n := by
  unfold encodeGroups at h; omega

@[simp] theorem encGroup_length (p : Params) (b0 b1 b2 : Byte) (k : Nat) : (encGroup p b0 b1 b2 k).length = 4 := rfl

@[simp] theorem encodedGroup_length (p : Params) (m : Memory) (src n g : Nat) :
    (encodedGroup p m src n g).length = 4 := rfl

/-- A group's characters depend on the input buffer alone. -/
theorem encodedGroup_congr {p : Params} {m m' : Memory} {src n g : Nat} (hg : 3 * g < n)
    (h : ∀ a, src ≤ a → a < src + n → m.read a = m'.read a) :
    encodedGroup p m src n g = encodedGroup p m' src n g := by
  unfold encodedGroup groupBytes
  simp only
  rw [h (src + 3 * g) (by omega) (by omega)]
  congr 1
  · split
    · exact h _ (by omega) (by omega)
    · rfl
  · split
    · exact h _ (by omega) (by omega)
    · rfl

theorem encodeLoop_wf {p : Params} {src n dst : Nat} : ∀ {count g : Nat} {m : Memory}, m.wf = true →
    (encodeLoop p src n dst count g m).wf = true
  | 0, _, _, h => h
  | count + 1, _, _, h => encodeLoop_wf (count := count) (Memory.writeBytes_wf h)

theorem encodeLoop_inside {p : Params} {src n dst size : Nat} : ∀ {count g : Nat} {m : Memory},
    dst + 4 * (g + count) ≤ size → m.inside size = true → (encodeLoop p src n dst count g m).inside size = true
  | 0, _, _, _, h => h
  | count + 1, g, _, hs, h =>
    encodeLoop_inside (count := count) (by omega) (Memory.writeBytes_inside (by simp; omega) h)

/-- The loop writes only the bytes of its groups. -/
theorem read_encodeLoop_other {p : Params} {src n dst : Nat} : ∀ {count g : Nat} {m : Memory} {a : Nat}, m.wf = true →
    (a < dst + 4 * g ∨ dst + 4 * (g + count) ≤ a) → (encodeLoop p src n dst count g m).read a = m.read a
  | 0, _, _, _, _, _ => rfl
  | count + 1, g, m, a, hm, h => by
    show (encodeLoop p src n dst count (g + 1) _).read a = _
    rw [read_encodeLoop_other (Memory.writeBytes_wf hm) (by omega),
      Memory.read_writeBytes_other hm (by simp; omega)]

/-- The loop writes, for each of its groups, that group's four characters, as the input stood before the loop. -/
theorem read_encodeLoop {p : Params} {src n dst : Nat} : ∀ {count g : Nat} {m : Memory} {i j : Nat}, m.wf = true →
    g + count ≤ encodeGroups n → (src + n ≤ dst ∨ dst + 4 * (g + count) ≤ src) → i < count → (hj : j < 4) →
    (encodeLoop p src n dst count g m).read (dst + 4 * (g + i) + j) =
      (encodedGroup p m src n (g + i))[j]'(by simpa using hj)
  | 0, _, _, _, _, _, _, _, hi, _ => absurd hi (Nat.not_lt_zero _)
  | count + 1, g, m, 0, j, hm, hg, hd, _, hj => by
    show (encodeLoop p src n dst count (g + 1) _).read _ = _
    rw [read_encodeLoop_other (Memory.writeBytes_wf hm) (by omega), Memory.read_writeBytes hm]
    rw [dif_pos (by simp; omega)]
    congr 1; omega
  | count + 1, g, m, i + 1, j, hm, hg, hd, hi, hj => by
    show (encodeLoop p src n dst count (g + 1) _).read _ = _
    have e : dst + 4 * (g + (i + 1)) + j = dst + 4 * (g + 1 + i) + j := by omega
    rw [e, read_encodeLoop (Memory.writeBytes_wf hm) (by omega) (by omega) (by omega) hj]
    have hc : encodedGroup p (m.writeBytes (dst + 4 * g) (encodedGroup p m src n g)) src n (g + 1 + i) =
        encodedGroup p m src n (g + (i + 1)) := by
      rw [show g + 1 + i = g + (i + 1) by omega]
      refine encodedGroup_congr (group_lt (by omega)) (fun a h1 h2 => ?_)
      exact Memory.read_writeBytes_other hm (by simp; omega)
    simp only [hc]

end Sys2Proof.Machine
end

