-- ==== Sys2Proof/Laws/Decoder.lean ====
section
/-! SUPPORT. The laws of the decoder datapath: what the group function answers on each pattern of character classes, and
what the loop of 42_decoder.md R169 comes to. -/

namespace Sys2Proof.Machine

/-- The bytes of three full sextets of data and a fourth (42_decoder.md R166). -/
def packedByte (r : Sextets) : Fin 3 → Byte
  | 0 => (packSextets r).extractLsb' 16 8
  | 1 => (packSextets r).extractLsb' 8 8
  | 2 => (packSextets r).extractLsb' 0 8

section Group
variable {p : Params} {c0 c1 c2 c3 : Byte} {final : Bool} {v0 v1 v2 v3 : Sextet}

theorem decGroup_char1 (h0 : ∀ v, reverse p c0 ≠ .data v) :
    decGroup p c0 c1 c2 c3 final = .err (if reverse p c0 = .pad then .badPad else .badChar) 0 := by
  cases h : reverse p c0 <;> simp_all [decGroup, decScan, decTransition, misplaced]

theorem decGroup_char2 (h0 : reverse p c0 = .data v0) (h1 : ∀ v, reverse p c1 ≠ .data v) :
    decGroup p c0 c1 c2 c3 final = .err (if reverse p c1 = .pad then .badPad else .badChar) 1 := by
  cases h : reverse p c1 <;> simp_all [decGroup, decScan, decTransition, misplaced]

theorem decGroup_char3 (h0 : reverse p c0 = .data v0) (h1 : reverse p c1 = .data v1)
    (h2 : ∀ v, reverse p c2 ≠ .data v) (hf : final = false ∨ reverse p c2 ≠ .pad) :
    decGroup p c0 c1 c2 c3 final = .err (if reverse p c2 = .pad then .badPad else .badChar) 2 := by
  cases h : reverse p c2 <;> simp_all [decGroup, decScan, decTransition, misplaced]

theorem decGroup_char4 (h0 : reverse p c0 = .data v0) (h1 : reverse p c1 = .data v1) (h2 : reverse p c2 = .data v2)
    (h3 : ∀ v, reverse p c3 ≠ .data v) (hf : final = false ∨ reverse p c3 ≠ .pad) :
    decGroup p c0 c1 c2 c3 final = .err (if reverse p c3 = .pad then .badPad else .badChar) 3 := by
  cases h : reverse p c3 <;> simp_all [decGroup, decScan, decTransition, misplaced]

theorem decGroup_afterPad (h0 : reverse p c0 = .data v0) (h1 : reverse p c1 = .data v1) (h2 : reverse p c2 = .pad)
    (h3 : reverse p c3 ≠ .pad) (hf : final = true) :
    decGroup p c0 c1 c2 c3 final = .err (if reverse p c3 = .invalid then .badChar else .badPad) 3 := by
  subst hf
  cases h : reverse p c3 <;> simp_all [decGroup, decScan, decTransition, misplaced]

theorem decGroup_full (h0 : reverse p c0 = .data v0) (h1 : reverse p c1 = .data v1) (h2 : reverse p c2 = .data v2)
    (h3 : reverse p c3 = .data v3) : decGroup p c0 c1 c2 c3 final = closeGroup p ⟨v0, v1, v2, v3⟩ 3 := by
  simp [decGroup, decScan, decTransition, h0, h1, h2, h3]

theorem decGroup_onePad (h0 : reverse p c0 = .data v0) (h1 : reverse p c1 = .data v1) (h2 : reverse p c2 = .data v2)
    (h3 : reverse p c3 = .pad) : decGroup p c0 c1 c2 c3 true = closeGroup p ⟨v0, v1, v2, 0#6⟩ 2 := by
  simp [decGroup, decScan, decTransition, h0, h1, h2, h3]

theorem decGroup_twoPads (h0 : reverse p c0 = .data v0) (h1 : reverse p c1 = .data v1) (h2 : reverse p c2 = .pad)
    (h3 : reverse p c3 = .pad) : decGroup p c0 c1 c2 c3 true = closeGroup p ⟨v0, v1, 0#6, 0#6⟩ 1 := by
  simp [decGroup, decScan, decTransition, h0, h1, h2, h3]

theorem closeGroup_full (r : Sextets) : closeGroup p r 3 = .ok (packedByte r 0) (packedByte r 1) (packedByte r 2) 3 := by
  unfold closeGroup unusedBitsAt packedByte
  cases p.strictUnusedBits <;> simp

theorem closeGroup_onePad (r : Sextets) : closeGroup p r 2 =
    if p.strictUnusedBits = true ∧ r.s2.extractLsb' 0 2 ≠ 0#2 then .err .nonCanon 2
    else .ok (packedByte r 0) (packedByte r 1) (packedByte r 2) 2 := by
  unfold closeGroup unusedBitsAt packedByte
  cases p.strictUnusedBits <;> by_cases h : r.s2.extractLsb' 0 2 = 0#2 <;> simp [h]

theorem closeGroup_twoPads (r : Sextets) : closeGroup p r 1 =
    if p.strictUnusedBits = true ∧ r.s1.extractLsb' 0 4 ≠ 0#4 then .err .nonCanon 1
    else .ok (packedByte r 0) (packedByte r 1) (packedByte r 2) 1 := by
  unfold closeGroup unusedBitsAt packedByte
  cases p.strictUnusedBits <;> by_cases h : r.s1.extractLsb' 0 4 = 0#4 <;> simp [h]

/-- The three patterns of classes that a group can end in DONE with (42_decoder.md R164). -/
inductive Accepts (p : Params) (c0 c1 c2 c3 : Byte) (final : Bool) : Sextets → Nat → Prop where
  | full {v0 v1 v2 v3 : Sextet} (h0 : reverse p c0 = .data v0) (h1 : reverse p c1 = .data v1)
      (h2 : reverse p c2 = .data v2) (h3 : reverse p c3 = .data v3) : Accepts p c0 c1 c2 c3 final ⟨v0, v1, v2, v3⟩ 3
  | onePad {v0 v1 v2 : Sextet} (h0 : reverse p c0 = .data v0) (h1 : reverse p c1 = .data v1)
      (h2 : reverse p c2 = .data v2) (h3 : reverse p c3 = .pad) (hf : final = true)
      (hu : p.strictUnusedBits = true → v2.extractLsb' 0 2 = 0#2) : Accepts p c0 c1 c2 c3 final ⟨v0, v1, v2, 0#6⟩ 2
  | twoPads {v0 v1 : Sextet} (h0 : reverse p c0 = .data v0) (h1 : reverse p c1 = .data v1)
      (h2 : reverse p c2 = .pad) (h3 : reverse p c3 = .pad) (hf : final = true)
      (hu : p.strictUnusedBits = true → v1.extractLsb' 0 4 = 0#4) : Accepts p c0 c1 c2 c3 final ⟨v0, v1, 0#6, 0#6⟩ 1

/-- Every group is either in DONE, by one of the three patterns, or at an error of DECODE's own at a position of it. -/
theorem decGroup_cases (p : Params) (c0 c1 c2 c3 : Byte) (final : Bool) :
    (∃ r cnt, Accepts p c0 c1 c2 c3 final r cnt ∧
      decGroup p c0 c1 c2 c3 final = .ok (packedByte r 0) (packedByte r 1) (packedByte r 2) cnt) ∨
    (∃ cause pos, decGroup p c0 c1 c2 c3 final = .err cause pos ∧ pos < 4 ∧
      (cause = .badChar ∨ cause = .badPad ∨ cause = .nonCanon)) := by
  have other : ∀ {c : Byte} {pos : Nat}, pos < 4 →
      decGroup p c0 c1 c2 c3 final = .err (if reverse p c = .pad then .badPad else .badChar) pos →
      ∃ cause pos, decGroup p c0 c1 c2 c3 final = .err cause pos ∧ pos < 4 ∧
        (cause = .badChar ∨ cause = .badPad ∨ cause = .nonCanon) := by
    intro c pos hp h
    refine ⟨_, pos, h, hp, ?_⟩
    split <;> simp
  by_cases h0 : ∃ v, reverse p c0 = .data v
  swap
  · exact .inr (other (by omega) (decGroup_char1 (by simpa using h0)))
  obtain ⟨v0, h0⟩ := h0
  by_cases h1 : ∃ v, reverse p c1 = .data v
  swap
  · exact .inr (other (by omega) (decGroup_char2 h0 (by simpa using h1)))
  obtain ⟨v1, h1⟩ := h1
  by_cases h2 : ∃ v, reverse p c2 = .data v
  · obtain ⟨v2, h2⟩ := h2
    by_cases h3 : ∃ v, reverse p c3 = .data v
    · obtain ⟨v3, h3⟩ := h3
      exact .inl ⟨_, 3, .full h0 h1 h2 h3, by rw [decGroup_full h0 h1 h2 h3, closeGroup_full]⟩
    · by_cases hf : final = true ∧ reverse p c3 = .pad
      · obtain ⟨rfl, hp⟩ := hf
        have e := decGroup_onePad h0 h1 h2 hp
        rw [closeGroup_onePad] at e
        split at e
        · exact .inr ⟨_, _, e, by omega, .inr (.inr rfl)⟩
        · rename_i hu
          exact .inl ⟨_, 2, .onePad h0 h1 h2 hp rfl (by simpa using hu), e⟩
      · refine .inr (other (by omega) (decGroup_char4 h0 h1 h2 (by simpa using h3) ?_))
        cases final <;> simp_all
  · by_cases hf : final = true ∧ reverse p c2 = .pad
    · obtain ⟨rfl, hp⟩ := hf
      by_cases h3 : reverse p c3 = .pad
      · have e := decGroup_twoPads h0 h1 hp h3
        rw [closeGroup_twoPads] at e
        split at e
        · exact .inr ⟨_, _, e, by omega, .inr (.inr rfl)⟩
        · rename_i hu
          exact .inl ⟨_, 1, .twoPads h0 h1 hp h3 rfl (by simpa using hu), e⟩
      · refine .inr ⟨_, 3, decGroup_afterPad h0 h1 hp h3 rfl, by omega, ?_⟩
        split <;> simp
    · refine .inr (other (by omega) (decGroup_char3 h0 h1 (by simpa using h2) ?_))
      cases final <;> simp_all

/-- A group that is accepted yields its packed bytes, by one of the three patterns. -/
theorem accepts_of_decGroup_ok {o0 o1 o2 : Byte} {cnt : Nat} (h : decGroup p c0 c1 c2 c3 final = .ok o0 o1 o2 cnt) :
    ∃ r, Accepts p c0 c1 c2 c3 final r cnt ∧ o0 = packedByte r 0 ∧ o1 = packedByte r 1 ∧ o2 = packedByte r 2 := by
  rcases decGroup_cases p c0 c1 c2 c3 final with ⟨r, k, ha, e⟩ | ⟨_, _, e, _⟩
  · rw [h] at e
    injection e with e0 e1 e2 e3
    subst e3
    exact ⟨r, ha, e0, e1, e2⟩
  · rw [h] at e; cases e

theorem Accepts.count {r : Sextets} {cnt : Nat} (h : Accepts p c0 c1 c2 c3 final r cnt) :
    1 ≤ cnt ∧ cnt ≤ 3 ∧ (final = false → cnt = 3) := by
  cases h <;> simp_all

theorem decGroup_ok_of_accepts {r : Sextets} {cnt : Nat} (h : Accepts p c0 c1 c2 c3 final r cnt) :
    decGroup p c0 c1 c2 c3 final = .ok (packedByte r 0) (packedByte r 1) (packedByte r 2) cnt := by
  cases h with
  | full h0 h1 h2 h3 => rw [decGroup_full h0 h1 h2 h3, closeGroup_full]
  | onePad h0 h1 h2 h3 hf hu =>
    subst hf
    rw [decGroup_onePad h0 h1 h2 h3, closeGroup_onePad, if_neg (by simpa using hu)]
  | twoPads h0 h1 h2 h3 hf hu =>
    subst hf
    rw [decGroup_twoPads h0 h1 h2 h3, closeGroup_twoPads, if_neg (by simpa using hu)]

end Group

/-! ## The bits of a group -/

/-- The pack undoes the split (42_decoder.md R166, 41_encoder.md R131). -/
theorem packSextets_splitSextets (w : Group24) : packSextets (splitSextets w) = w := by
  apply BitVec.eq_of_getLsbD_eq
  intro i hi
  simp only [packSextets, splitSextets, BitVec.getLsbD_append, BitVec.getLsbD_extractLsb']
  interval_cases i <;> simp

/-- The split undoes the pack. -/
theorem splitSextets_packSextets (r : Sextets) : splitSextets (packSextets r) = r := by
  obtain ⟨a, b, c, d⟩ := r
  simp only [packSextets, splitSextets, Sextets.mk.injEq]
  refine ⟨?_, ?_, ?_, ?_⟩ <;>
  · apply BitVec.eq_of_getLsbD_eq
    intro i hi
    simp only [BitVec.getLsbD_append, BitVec.getLsbD_extractLsb']
    interval_cases i <;> simp

/-- The bytes of a split group are the bytes it was made of. -/
theorem packedByte_split (b0 b1 b2 : Byte) :
    packedByte (splitSextets (packBytes b0 b1 b2)) 0 = b0 ∧ packedByte (splitSextets (packBytes b0 b1 b2)) 1 = b1 ∧
      packedByte (splitSextets (packBytes b0 b1 b2)) 2 = b2 := by
  simp only [packedByte, packSextets_splitSextets]
  unfold packBytes
  refine ⟨?_, ?_, ?_⟩ <;>
  · apply BitVec.eq_of_getLsbD_eq
    intro i hi
    simp only [BitVec.getLsbD_append, BitVec.getLsbD_extractLsb']
    interval_cases i <;> simp

/-- The bytes of packed sextets, put together again. -/
theorem packBytes_packedByte (r : Sextets) : packBytes (packedByte r 0) (packedByte r 1) (packedByte r 2) = packSextets r := by
  simp only [packedByte, packBytes]
  apply BitVec.eq_of_getLsbD_eq
  intro i hi
  simp only [BitVec.getLsbD_append, BitVec.getLsbD_extractLsb']
  interval_cases i <;> simp

/-- A group of two bytes has zero unused bits (41_encoder.md R131). -/
theorem unused_two (b0 b1 : Byte) : (splitSextets (packBytes b0 b1 0#8)).s2.extractLsb' 0 2 = 0#2 ∧
    (splitSextets (packBytes b0 b1 0#8)).s3 = 0#6 := by
  simp only [splitSextets, packBytes]
  refine ⟨?_, ?_⟩ <;>
  · apply BitVec.eq_of_getLsbD_eq
    intro i hi
    simp only [BitVec.getLsbD_append, BitVec.getLsbD_extractLsb']
    interval_cases i <;> simp
/-- A group of one byte has zero unused bits (41_encoder.md R131). -/
theorem unused_four (b0 : Byte) : (splitSextets (packBytes b0 0#8 0#8)).s1.extractLsb' 0 4 = 0#4 ∧
    (splitSextets (packBytes b0 0#8 0#8)).s2 = 0#6 ∧
    (splitSextets (packBytes b0 0#8 0#8)).s3 = 0#6 := by
  simp only [splitSextets, packBytes]
  refine ⟨?_, ?_, ?_⟩ <;>
  · apply BitVec.eq_of_getLsbD_eq
    intro i hi
    simp only [BitVec.getLsbD_append, BitVec.getLsbD_extractLsb']
    interval_cases i <;> simp
/-- Encoding two bytes of a pack gives the first two sextets back, and the third up to its unused bits (42_decoder.md
R171 (c)). -/
theorem splitSextets_two (r : Sextets) :
    (splitSextets (packBytes (packedByte r 0) (packedByte r 1) 0#8)).s0 = r.s0 ∧
    (splitSextets (packBytes (packedByte r 0) (packedByte r 1) 0#8)).s1 = r.s1 ∧
    r.s2.extractLsb' 2 4 = (splitSextets (packBytes (packedByte r 0) (packedByte r 1) 0#8)).s2.extractLsb' 2 4 := by
  obtain ⟨a, b, c, d⟩ := r
  refine ⟨?_, ?_, ?_⟩ <;>
  · apply BitVec.eq_of_getLsbD_eq
    intro i hi
    simp only [splitSextets, packBytes, packedByte, packSextets, BitVec.getLsbD_append, BitVec.getLsbD_extractLsb']
    interval_cases i <;> simp

/-- Encoding one byte of a pack gives the first sextet back, and the second up to its unused bits (42_decoder.md R171
(c)). -/
theorem splitSextets_one (r : Sextets) :
    (splitSextets (packBytes (packedByte r 0) 0#8 0#8)).s0 = r.s0 ∧
    r.s1.extractLsb' 4 2 = (splitSextets (packBytes (packedByte r 0) 0#8 0#8)).s1.extractLsb' 4 2 := by
  obtain ⟨a, b, c, d⟩ := r
  refine ⟨?_, ?_⟩ <;>
  · apply BitVec.eq_of_getLsbD_eq
    intro i hi
    simp only [splitSextets, packBytes, packedByte, packSextets, BitVec.getLsbD_append, BitVec.getLsbD_extractLsb']
    interval_cases i <;> simp

/-- Zero unused bits and one pad make the third byte 0. -/
theorem packedByte_zero_of_unused_two {r : Sextets} (h2 : r.s2.extractLsb' 0 2 = 0#2) (h3 : r.s3 = 0#6) :
    packedByte r 2 = 0#8 := by
  obtain ⟨a, b, c, d⟩ := r
  simp only at h2 h3
  subst h3
  have h0 := congrArg (fun x => x.getLsbD 0) h2
  have h1 := congrArg (fun x => x.getLsbD 1) h2
  simp only [BitVec.getLsbD_extractLsb'] at h0 h1
  simp only [packedByte, packSextets]
  apply BitVec.eq_of_getLsbD_eq
  intro i hi
  simp only [BitVec.getLsbD_append, BitVec.getLsbD_extractLsb']
  interval_cases i <;> simp_all
/-- Zero unused bits and two pads make the second and third bytes 0. -/
theorem packedByte_zero_of_unused_four {r : Sextets} (h1 : r.s1.extractLsb' 0 4 = 0#4) (h2 : r.s2 = 0#6) (h3 : r.s3 = 0#6) :
    packedByte r 1 = 0#8 ∧ packedByte r 2 = 0#8 := by
  obtain ⟨a, b, c, d⟩ := r
  simp only at h1 h2 h3
  subst h2; subst h3
  have e0 := congrArg (fun x => x.getLsbD 0) h1
  have e1 := congrArg (fun x => x.getLsbD 1) h1
  have e2 := congrArg (fun x => x.getLsbD 2) h1
  have e3 := congrArg (fun x => x.getLsbD 3) h1
  simp only [BitVec.getLsbD_extractLsb'] at e0 e1 e2 e3
  simp only [packedByte, packSextets]
  refine ⟨?_, ?_⟩ <;>
  · apply BitVec.eq_of_getLsbD_eq
    intro i hi
    simp only [BitVec.getLsbD_append, BitVec.getLsbD_extractLsb']
    interval_cases i <;> simp_all

/-! ## The loop -/

/-- A group's answer depends on the input buffer alone. -/
theorem decodedGroup_congr {p : Params} {m m' : Memory} {src n groups g : Nat} (hg : 4 * g + 3 < n)
    (h : ∀ a, src ≤ a → a < src + n → m.read a = m'.read a) :
    decodedGroup p m src groups g = decodedGroup p m' src groups g := by
  unfold decodedGroup
  rw [h (src + 4 * g) (by omega) (by omega), h (src + 4 * g + 1) (by omega) (by omega),
    h (src + 4 * g + 2) (by omega) (by omega), h (src + 4 * g + 3) (by omega) (by omega)]

theorem decodedGroup_count {p : Params} {m : Memory} {src groups g : Nat} {o0 o1 o2 : Byte} {cnt : Nat}
    (h : decodedGroup p m src groups g = .ok o0 o1 o2 cnt) : 1 ≤ cnt ∧ cnt ≤ 3 ∧ (g ≠ groups - 1 → cnt = 3) := by
  obtain ⟨r, ha, _⟩ := accepts_of_decGroup_ok h
  have := ha.count
  simpa using this

/-- The bytes that a group's answer writes. -/
def GroupResult.bytes : GroupResult → List Byte
  | .ok o0 o1 o2 cnt => [o0, o1, o2].take cnt
  | .err _ _ => []

/-- One turn of the loop on a group that is in DONE. -/
theorem decodeLoop_ok {p : Params} {src dst groups count g total : Nat} {m : Memory} {o0 o1 o2 : Byte} {cnt : Nat}
    (h : decodedGroup p m src groups g = .ok o0 o1 o2 cnt) :
    decodeLoop p src dst groups (count + 1) g total m =
      decodeLoop p src dst groups count (g + 1) (total + cnt) (m.writeBytes (dst + 3 * g) ([o0, o1, o2].take cnt)) := by
  simp only [decodeLoop, h]

/-- One turn of the loop on a group that is at an error. -/
theorem decodeLoop_err {p : Params} {src dst groups count g total : Nat} {m : Memory} {cause : ErrCause} {pos : Nat}
    (h : decodedGroup p m src groups g = .err cause pos) :
    decodeLoop p src dst groups (count + 1) g total m = .err cause (4 * g + pos) := by
  simp only [decodeLoop, h]

/-- Writing a group's bytes leaves the input buffer alone, so the later groups answer as before. -/
theorem decodedGroup_after_write {p : Params} {src n dst groups g g' : Nat} {m : Memory} {bs : List Byte}
    (hm : m.wf = true) (hb : bs.length ≤ 3) (hg : 4 * g' + 3 < n) (hgg : g < groups)
    (hd : src + n ≤ dst ∨ dst + 3 * groups ≤ src) :
    decodedGroup p (m.writeBytes (dst + 3 * g) bs) src groups g' = decodedGroup p m src groups g' :=
  decodedGroup_congr hg (fun a h1 h2 => Memory.read_writeBytes_other hm (by omega))

theorem take_length_le {o0 o1 o2 : Byte} {cnt : Nat} : ([o0, o1, o2].take cnt).length ≤ 3 := by
  simp [List.length_take]

/-- The first group at an error ends the loop (42_decoder.md R165). -/
theorem decodeLoop_first_error {p : Params} {src n dst groups : Nat} {cause : ErrCause} {pos : Nat} :
    ∀ {count g total i : Nat} {m : Memory}, m.wf = true → g + count = groups → 4 * groups ≤ n →
    (src + n ≤ dst ∨ dst + 3 * groups ≤ src) → i < count →
    (∀ j, j < i → ∃ o0 o1 o2 cnt, decodedGroup p m src groups (g + j) = .ok o0 o1 o2 cnt) →
    decodedGroup p m src groups (g + i) = .err cause pos →
    decodeLoop p src dst groups count g total m = .err cause (4 * (g + i) + pos)
  | 0, _, _, _, _, _, _, _, _, hi, _, _ => absurd hi (Nat.not_lt_zero _)
  | count + 1, g, total, 0, m, _, _, _, _, _, _, he => decodeLoop_err he
  | count + 1, g, total, i + 1, m, hm, hg, hn, hd, hi, hok, he => by
    obtain ⟨o0, o1, o2, cnt, h0⟩ := hok 0 (by omega)
    simp only [Nat.add_zero] at h0
    rw [decodeLoop_ok h0]
    have eq : ∀ g', g' < groups → decodedGroup p (m.writeBytes (dst + 3 * g) ([o0, o1, o2].take cnt)) src groups g' =
        decodedGroup p m src groups g' := fun g' hg' =>
      decodedGroup_after_write (n := n) hm take_length_le (by omega) (by omega) hd
    have := decodeLoop_first_error (p := p) (count := count) (g := g + 1) (total := total + cnt) (i := i)
      (m := m.writeBytes (dst + 3 * g) ([o0, o1, o2].take cnt)) (cause := cause) (pos := pos)
      (Memory.writeBytes_wf hm) (by omega) hn hd (by omega)
      (fun j hj => by
        rw [eq _ (by omega), show g + 1 + j = g + (j + 1) by omega]; exact hok (j + 1) (by omega))
      (by rw [eq _ (by omega), show g + 1 + i = g + (i + 1) by omega]; exact he)
    rw [this]
    congr 1; omega

/-- A loop whose groups are all in DONE: its count, its bytes, and what it leaves alone (42_decoder.md R169). -/
theorem decodeLoop_all_ok {p : Params} {src n dst groups : Nat} (hn : 4 * groups ≤ n)
    (hd : src + n ≤ dst ∨ dst + 3 * groups ≤ src) : ∀ {count g total : Nat} {m : Memory}, m.wf = true →
    g + count = groups → total = 3 * g →
    (∀ j, j < count → ∃ o0 o1 o2 cnt, decodedGroup p m src groups (g + j) = .ok o0 o1 o2 cnt) →
    ∃ total' m', decodeLoop p src dst groups count g total m = .ok total' m' ∧ m'.wf = true ∧
      (count = 0 → total' = total) ∧
      (∀ o0 o1 o2 cnt, 0 < count → decodedGroup p m src groups (groups - 1) = .ok o0 o1 o2 cnt →
        total' = 3 * (groups - 1) + cnt) ∧
      (∀ a, a < dst + 3 * g ∨ dst + total' ≤ a → m'.read a = m.read a) ∧
      (∀ j o0 o1 o2 cnt, j < count → decodedGroup p m src groups (g + j) = .ok o0 o1 o2 cnt →
        ∀ k (hk : k < ([o0, o1, o2].take cnt).length),
          m'.read (dst + 3 * (g + j) + k) = ([o0, o1, o2].take cnt)[k])
  | 0, g, total, m, hm, _, _, _ =>
    ⟨total, m, rfl, hm, fun _ => rfl, fun _ _ _ _ h => absurd h (Nat.not_lt_zero _), fun _ _ => rfl,
      fun _ _ _ _ _ h => absurd h (Nat.not_lt_zero _)⟩
  | count + 1, g, total, m, hm, hg, ht, hok => by
    obtain ⟨o0, o1, o2, cnt, h0⟩ := hok 0 (by omega)
    simp only [Nat.add_zero] at h0
    obtain ⟨hc1, hc3, hcf⟩ := decodedGroup_count h0
    have hlen : ([o0, o1, o2].take cnt).length = cnt := by simp [List.length_take]; omega
    have eq : ∀ g', g' < groups → decodedGroup p (m.writeBytes (dst + 3 * g) ([o0, o1, o2].take cnt)) src groups g' =
        decodedGroup p m src groups g' := fun g' hg' =>
      decodedGroup_after_write (n := n) hm take_length_le (by omega) (by omega) hd
    rw [decodeLoop_ok h0]
    by_cases hlast : count = 0
    · subst hlast
      have hgl : g = groups - 1 := by omega
      refine ⟨total + cnt, _, rfl, Memory.writeBytes_wf hm, fun h => absurd h (by omega), ?_, ?_, ?_⟩
      · intro o0' o1' o2' cnt' _ h'
        rw [← hgl, h0] at h'
        injection h' with _ _ _ e
        omega
      · intro a ha
        exact Memory.read_writeBytes_other hm (by rw [hlen]; omega)
      · intro j o0' o1' o2' cnt' hj h' k hk
        obtain rfl : j = 0 := by omega
        simp only [Nat.add_zero] at h' ⊢
        rw [h0] at h'
        injection h' with e0 e1 e2 e3
        subst e0; subst e1; subst e2; subst e3
        rw [Memory.read_writeBytes hm, dif_pos (by omega)]
        congr 1; omega
    · have hcnt : cnt = 3 := hcf (by omega)
      subst hcnt
      obtain ⟨total', m', e, hwf, _, hcount, hother, hbytes⟩ :=
        decodeLoop_all_ok hn hd (count := count) (g := g + 1) (total := total + 3)
          (m := m.writeBytes (dst + 3 * g) ([o0, o1, o2].take 3)) (Memory.writeBytes_wf hm) (by omega) (by omega)
          (fun j hj => by
            rw [eq _ (by omega), show g + 1 + j = g + (j + 1) by omega]; exact hok (j + 1) (by omega))
      have htot : 3 * (groups - 1) ≤ total' := by
        obtain ⟨q0, q1, q2, qc, hq⟩ := hok (groups - 1 - g) (by omega)
        rw [show g + (groups - 1 - g) = groups - 1 by omega] at hq
        have := hcount q0 q1 q2 qc (by omega) (by rw [eq _ (by omega)]; exact hq)
        omega
      refine ⟨total', m', e, hwf, fun h => absurd h (by omega), ?_, ?_, ?_⟩
      · intro q0 q1 q2 qc _ hq
        exact hcount q0 q1 q2 qc (by omega) (by rw [eq _ (by omega)]; exact hq)
      · intro a ha
        rw [hother a (by omega)]
        exact Memory.read_writeBytes_other hm (by rw [hlen]; omega)
      · intro j q0 q1 q2 qc hj hq k hk
        cases j with
        | zero =>
          simp only [Nat.add_zero] at hq ⊢
          rw [h0] at hq
          injection hq with e0 e1 e2 e3
          subst e0; subst e1; subst e2; subst e3
          rw [hother _ (by omega), Memory.read_writeBytes hm, dif_pos (by omega)]
          congr 1; omega
        | succ j =>
          have := hbytes j q0 q1 q2 qc (by omega)
            (by rw [eq _ (by omega), show g + 1 + j = g + (j + 1) by omega]; exact hq) k hk
          rw [show g + 1 + j = g + (j + 1) by omega] at this
          exact this

end Sys2Proof.Machine
end

