-- ==== Sys2Proof/Laws/State.lean ====
section
/-! SUPPORT. One lemma per field per update of State, each true by rfl, so that no later proof unfolds an update. -/

namespace Sys2Proof.Machine.State

variable (s : State)

@[simp] theorem setCmd_params (w : Word) : (s.setCmd w).params = s.params := rfl
@[simp] theorem setCmd_cmd (w : Word) : (s.setCmd w).cmd = w := rfl
@[simp] theorem setCmd_status (w : Word) : (s.setCmd w).status = s.status := rfl
@[simp] theorem setCmd_src (w : Word) : (s.setCmd w).src = s.src := rfl
@[simp] theorem setCmd_len (w : Word) : (s.setCmd w).len = s.len := rfl
@[simp] theorem setCmd_dst (w : Word) : (s.setCmd w).dst = s.dst := rfl
@[simp] theorem setCmd_dstCap (w : Word) : (s.setCmd w).dstCap = s.dstCap := rfl
@[simp] theorem setCmd_resultLo (w : Word) : (s.setCmd w).resultLo = s.resultLo := rfl
@[simp] theorem setCmd_resultHi (w : Word) : (s.setCmd w).resultHi = s.resultHi := rfl
@[simp] theorem setCmd_errPos (w : Word) : (s.setCmd w).errPos = s.errPos := rfl
@[simp] theorem setCmd_mem (w : Word) : (s.setCmd w).mem = s.mem := rfl
@[simp] theorem setCmd_rst (w : Word) : (s.setCmd w).rst = s.rst := rfl
@[simp] theorem setCmd_srcDisturbed (w : Word) : (s.setCmd w).srcDisturbed = s.srcDisturbed := rfl
@[simp] theorem setCmd_outDisturbed (w : Word) : (s.setCmd w).outDisturbed = s.outDisturbed := rfl
@[simp] theorem setCmd_draws (w : Word) : (s.setCmd w).draws = s.draws := rfl
@[simp] theorem setCmd_host (w : Word) : (s.setCmd w).host = s.host := rfl
@[simp] theorem setCmd_schedule (w : Word) : (s.setCmd w).schedule = s.schedule := rfl

@[simp] theorem setStatus_params (st : Status) : (s.setStatus st).params = s.params := rfl
@[simp] theorem setStatus_cmd (st : Status) : (s.setStatus st).cmd = s.cmd := rfl
@[simp] theorem setStatus_status (st : Status) : (s.setStatus st).status = st := rfl
@[simp] theorem setStatus_src (st : Status) : (s.setStatus st).src = s.src := rfl
@[simp] theorem setStatus_len (st : Status) : (s.setStatus st).len = s.len := rfl
@[simp] theorem setStatus_dst (st : Status) : (s.setStatus st).dst = s.dst := rfl
@[simp] theorem setStatus_dstCap (st : Status) : (s.setStatus st).dstCap = s.dstCap := rfl
@[simp] theorem setStatus_resultLo (st : Status) : (s.setStatus st).resultLo = s.resultLo := rfl
@[simp] theorem setStatus_resultHi (st : Status) : (s.setStatus st).resultHi = s.resultHi := rfl
@[simp] theorem setStatus_errPos (st : Status) : (s.setStatus st).errPos = s.errPos := rfl
@[simp] theorem setStatus_mem (st : Status) : (s.setStatus st).mem = s.mem := rfl
@[simp] theorem setStatus_rst (st : Status) : (s.setStatus st).rst = s.rst := rfl
@[simp] theorem setStatus_srcDisturbed (st : Status) : (s.setStatus st).srcDisturbed = s.srcDisturbed := rfl
@[simp] theorem setStatus_outDisturbed (st : Status) : (s.setStatus st).outDisturbed = s.outDisturbed := rfl
@[simp] theorem setStatus_draws (st : Status) : (s.setStatus st).draws = s.draws := rfl
@[simp] theorem setStatus_host (st : Status) : (s.setStatus st).host = s.host := rfl
@[simp] theorem setStatus_schedule (st : Status) : (s.setStatus st).schedule = s.schedule := rfl

@[simp] theorem setSrc_params (w : Word) : (s.setSrc w).params = s.params := rfl
@[simp] theorem setSrc_cmd (w : Word) : (s.setSrc w).cmd = s.cmd := rfl
@[simp] theorem setSrc_status (w : Word) : (s.setSrc w).status = s.status := rfl
@[simp] theorem setSrc_src (w : Word) : (s.setSrc w).src = w := rfl
@[simp] theorem setSrc_len (w : Word) : (s.setSrc w).len = s.len := rfl
@[simp] theorem setSrc_dst (w : Word) : (s.setSrc w).dst = s.dst := rfl
@[simp] theorem setSrc_dstCap (w : Word) : (s.setSrc w).dstCap = s.dstCap := rfl
@[simp] theorem setSrc_resultLo (w : Word) : (s.setSrc w).resultLo = s.resultLo := rfl
@[simp] theorem setSrc_resultHi (w : Word) : (s.setSrc w).resultHi = s.resultHi := rfl
@[simp] theorem setSrc_errPos (w : Word) : (s.setSrc w).errPos = s.errPos := rfl
@[simp] theorem setSrc_mem (w : Word) : (s.setSrc w).mem = s.mem := rfl
@[simp] theorem setSrc_rst (w : Word) : (s.setSrc w).rst = s.rst := rfl
@[simp] theorem setSrc_srcDisturbed (w : Word) : (s.setSrc w).srcDisturbed = s.srcDisturbed := rfl
@[simp] theorem setSrc_outDisturbed (w : Word) : (s.setSrc w).outDisturbed = s.outDisturbed := rfl
@[simp] theorem setSrc_draws (w : Word) : (s.setSrc w).draws = s.draws := rfl
@[simp] theorem setSrc_host (w : Word) : (s.setSrc w).host = s.host := rfl
@[simp] theorem setSrc_schedule (w : Word) : (s.setSrc w).schedule = s.schedule := rfl

@[simp] theorem setLen_params (w : Word) : (s.setLen w).params = s.params := rfl
@[simp] theorem setLen_cmd (w : Word) : (s.setLen w).cmd = s.cmd := rfl
@[simp] theorem setLen_status (w : Word) : (s.setLen w).status = s.status := rfl
@[simp] theorem setLen_src (w : Word) : (s.setLen w).src = s.src := rfl
@[simp] theorem setLen_len (w : Word) : (s.setLen w).len = w := rfl
@[simp] theorem setLen_dst (w : Word) : (s.setLen w).dst = s.dst := rfl
@[simp] theorem setLen_dstCap (w : Word) : (s.setLen w).dstCap = s.dstCap := rfl
@[simp] theorem setLen_resultLo (w : Word) : (s.setLen w).resultLo = s.resultLo := rfl
@[simp] theorem setLen_resultHi (w : Word) : (s.setLen w).resultHi = s.resultHi := rfl
@[simp] theorem setLen_errPos (w : Word) : (s.setLen w).errPos = s.errPos := rfl
@[simp] theorem setLen_mem (w : Word) : (s.setLen w).mem = s.mem := rfl
@[simp] theorem setLen_rst (w : Word) : (s.setLen w).rst = s.rst := rfl
@[simp] theorem setLen_srcDisturbed (w : Word) : (s.setLen w).srcDisturbed = s.srcDisturbed := rfl
@[simp] theorem setLen_outDisturbed (w : Word) : (s.setLen w).outDisturbed = s.outDisturbed := rfl
@[simp] theorem setLen_draws (w : Word) : (s.setLen w).draws = s.draws := rfl
@[simp] theorem setLen_host (w : Word) : (s.setLen w).host = s.host := rfl
@[simp] theorem setLen_schedule (w : Word) : (s.setLen w).schedule = s.schedule := rfl

@[simp] theorem setDst_params (w : Word) : (s.setDst w).params = s.params := rfl
@[simp] theorem setDst_cmd (w : Word) : (s.setDst w).cmd = s.cmd := rfl
@[simp] theorem setDst_status (w : Word) : (s.setDst w).status = s.status := rfl
@[simp] theorem setDst_src (w : Word) : (s.setDst w).src = s.src := rfl
@[simp] theorem setDst_len (w : Word) : (s.setDst w).len = s.len := rfl
@[simp] theorem setDst_dst (w : Word) : (s.setDst w).dst = w := rfl
@[simp] theorem setDst_dstCap (w : Word) : (s.setDst w).dstCap = s.dstCap := rfl
@[simp] theorem setDst_resultLo (w : Word) : (s.setDst w).resultLo = s.resultLo := rfl
@[simp] theorem setDst_resultHi (w : Word) : (s.setDst w).resultHi = s.resultHi := rfl
@[simp] theorem setDst_errPos (w : Word) : (s.setDst w).errPos = s.errPos := rfl
@[simp] theorem setDst_mem (w : Word) : (s.setDst w).mem = s.mem := rfl
@[simp] theorem setDst_rst (w : Word) : (s.setDst w).rst = s.rst := rfl
@[simp] theorem setDst_srcDisturbed (w : Word) : (s.setDst w).srcDisturbed = s.srcDisturbed := rfl
@[simp] theorem setDst_outDisturbed (w : Word) : (s.setDst w).outDisturbed = s.outDisturbed := rfl
@[simp] theorem setDst_draws (w : Word) : (s.setDst w).draws = s.draws := rfl
@[simp] theorem setDst_host (w : Word) : (s.setDst w).host = s.host := rfl
@[simp] theorem setDst_schedule (w : Word) : (s.setDst w).schedule = s.schedule := rfl

@[simp] theorem setDstCap_params (w : Word) : (s.setDstCap w).params = s.params := rfl
@[simp] theorem setDstCap_cmd (w : Word) : (s.setDstCap w).cmd = s.cmd := rfl
@[simp] theorem setDstCap_status (w : Word) : (s.setDstCap w).status = s.status := rfl
@[simp] theorem setDstCap_src (w : Word) : (s.setDstCap w).src = s.src := rfl
@[simp] theorem setDstCap_len (w : Word) : (s.setDstCap w).len = s.len := rfl
@[simp] theorem setDstCap_dst (w : Word) : (s.setDstCap w).dst = s.dst := rfl
@[simp] theorem setDstCap_dstCap (w : Word) : (s.setDstCap w).dstCap = w := rfl
@[simp] theorem setDstCap_resultLo (w : Word) : (s.setDstCap w).resultLo = s.resultLo := rfl
@[simp] theorem setDstCap_resultHi (w : Word) : (s.setDstCap w).resultHi = s.resultHi := rfl
@[simp] theorem setDstCap_errPos (w : Word) : (s.setDstCap w).errPos = s.errPos := rfl
@[simp] theorem setDstCap_mem (w : Word) : (s.setDstCap w).mem = s.mem := rfl
@[simp] theorem setDstCap_rst (w : Word) : (s.setDstCap w).rst = s.rst := rfl
@[simp] theorem setDstCap_srcDisturbed (w : Word) : (s.setDstCap w).srcDisturbed = s.srcDisturbed := rfl
@[simp] theorem setDstCap_outDisturbed (w : Word) : (s.setDstCap w).outDisturbed = s.outDisturbed := rfl
@[simp] theorem setDstCap_draws (w : Word) : (s.setDstCap w).draws = s.draws := rfl
@[simp] theorem setDstCap_host (w : Word) : (s.setDstCap w).host = s.host := rfl
@[simp] theorem setDstCap_schedule (w : Word) : (s.setDstCap w).schedule = s.schedule := rfl

@[simp] theorem setResult_params (lo hi : Word) : (s.setResult lo hi).params = s.params := rfl
@[simp] theorem setResult_cmd (lo hi : Word) : (s.setResult lo hi).cmd = s.cmd := rfl
@[simp] theorem setResult_status (lo hi : Word) : (s.setResult lo hi).status = s.status := rfl
@[simp] theorem setResult_src (lo hi : Word) : (s.setResult lo hi).src = s.src := rfl
@[simp] theorem setResult_len (lo hi : Word) : (s.setResult lo hi).len = s.len := rfl
@[simp] theorem setResult_dst (lo hi : Word) : (s.setResult lo hi).dst = s.dst := rfl
@[simp] theorem setResult_dstCap (lo hi : Word) : (s.setResult lo hi).dstCap = s.dstCap := rfl
@[simp] theorem setResult_resultLo (lo hi : Word) : (s.setResult lo hi).resultLo = lo := rfl
@[simp] theorem setResult_resultHi (lo hi : Word) : (s.setResult lo hi).resultHi = hi := rfl
@[simp] theorem setResult_errPos (lo hi : Word) : (s.setResult lo hi).errPos = s.errPos := rfl
@[simp] theorem setResult_mem (lo hi : Word) : (s.setResult lo hi).mem = s.mem := rfl
@[simp] theorem setResult_rst (lo hi : Word) : (s.setResult lo hi).rst = s.rst := rfl
@[simp] theorem setResult_srcDisturbed (lo hi : Word) : (s.setResult lo hi).srcDisturbed = s.srcDisturbed := rfl
@[simp] theorem setResult_outDisturbed (lo hi : Word) : (s.setResult lo hi).outDisturbed = s.outDisturbed := rfl
@[simp] theorem setResult_draws (lo hi : Word) : (s.setResult lo hi).draws = s.draws := rfl
@[simp] theorem setResult_host (lo hi : Word) : (s.setResult lo hi).host = s.host := rfl
@[simp] theorem setResult_schedule (lo hi : Word) : (s.setResult lo hi).schedule = s.schedule := rfl

@[simp] theorem setErrPos_params (w : Word) : (s.setErrPos w).params = s.params := rfl
@[simp] theorem setErrPos_cmd (w : Word) : (s.setErrPos w).cmd = s.cmd := rfl
@[simp] theorem setErrPos_status (w : Word) : (s.setErrPos w).status = s.status := rfl
@[simp] theorem setErrPos_src (w : Word) : (s.setErrPos w).src = s.src := rfl
@[simp] theorem setErrPos_len (w : Word) : (s.setErrPos w).len = s.len := rfl
@[simp] theorem setErrPos_dst (w : Word) : (s.setErrPos w).dst = s.dst := rfl
@[simp] theorem setErrPos_dstCap (w : Word) : (s.setErrPos w).dstCap = s.dstCap := rfl
@[simp] theorem setErrPos_resultLo (w : Word) : (s.setErrPos w).resultLo = s.resultLo := rfl
@[simp] theorem setErrPos_resultHi (w : Word) : (s.setErrPos w).resultHi = s.resultHi := rfl
@[simp] theorem setErrPos_errPos (w : Word) : (s.setErrPos w).errPos = w := rfl
@[simp] theorem setErrPos_mem (w : Word) : (s.setErrPos w).mem = s.mem := rfl
@[simp] theorem setErrPos_rst (w : Word) : (s.setErrPos w).rst = s.rst := rfl
@[simp] theorem setErrPos_srcDisturbed (w : Word) : (s.setErrPos w).srcDisturbed = s.srcDisturbed := rfl
@[simp] theorem setErrPos_outDisturbed (w : Word) : (s.setErrPos w).outDisturbed = s.outDisturbed := rfl
@[simp] theorem setErrPos_draws (w : Word) : (s.setErrPos w).draws = s.draws := rfl
@[simp] theorem setErrPos_host (w : Word) : (s.setErrPos w).host = s.host := rfl
@[simp] theorem setErrPos_schedule (w : Word) : (s.setErrPos w).schedule = s.schedule := rfl

@[simp] theorem setMem_params (m : Memory) : (s.setMem m).params = s.params := rfl
@[simp] theorem setMem_cmd (m : Memory) : (s.setMem m).cmd = s.cmd := rfl
@[simp] theorem setMem_status (m : Memory) : (s.setMem m).status = s.status := rfl
@[simp] theorem setMem_src (m : Memory) : (s.setMem m).src = s.src := rfl
@[simp] theorem setMem_len (m : Memory) : (s.setMem m).len = s.len := rfl
@[simp] theorem setMem_dst (m : Memory) : (s.setMem m).dst = s.dst := rfl
@[simp] theorem setMem_dstCap (m : Memory) : (s.setMem m).dstCap = s.dstCap := rfl
@[simp] theorem setMem_resultLo (m : Memory) : (s.setMem m).resultLo = s.resultLo := rfl
@[simp] theorem setMem_resultHi (m : Memory) : (s.setMem m).resultHi = s.resultHi := rfl
@[simp] theorem setMem_errPos (m : Memory) : (s.setMem m).errPos = s.errPos := rfl
@[simp] theorem setMem_mem (m : Memory) : (s.setMem m).mem = m := rfl
@[simp] theorem setMem_rst (m : Memory) : (s.setMem m).rst = s.rst := rfl
@[simp] theorem setMem_srcDisturbed (m : Memory) : (s.setMem m).srcDisturbed = s.srcDisturbed := rfl
@[simp] theorem setMem_outDisturbed (m : Memory) : (s.setMem m).outDisturbed = s.outDisturbed := rfl
@[simp] theorem setMem_draws (m : Memory) : (s.setMem m).draws = s.draws := rfl
@[simp] theorem setMem_host (m : Memory) : (s.setMem m).host = s.host := rfl
@[simp] theorem setMem_schedule (m : Memory) : (s.setMem m).schedule = s.schedule := rfl

@[simp] theorem setRst_params (b : Bool) : (s.setRst b).params = s.params := rfl
@[simp] theorem setRst_cmd (b : Bool) : (s.setRst b).cmd = s.cmd := rfl
@[simp] theorem setRst_status (b : Bool) : (s.setRst b).status = s.status := rfl
@[simp] theorem setRst_src (b : Bool) : (s.setRst b).src = s.src := rfl
@[simp] theorem setRst_len (b : Bool) : (s.setRst b).len = s.len := rfl
@[simp] theorem setRst_dst (b : Bool) : (s.setRst b).dst = s.dst := rfl
@[simp] theorem setRst_dstCap (b : Bool) : (s.setRst b).dstCap = s.dstCap := rfl
@[simp] theorem setRst_resultLo (b : Bool) : (s.setRst b).resultLo = s.resultLo := rfl
@[simp] theorem setRst_resultHi (b : Bool) : (s.setRst b).resultHi = s.resultHi := rfl
@[simp] theorem setRst_errPos (b : Bool) : (s.setRst b).errPos = s.errPos := rfl
@[simp] theorem setRst_mem (b : Bool) : (s.setRst b).mem = s.mem := rfl
@[simp] theorem setRst_rst (b : Bool) : (s.setRst b).rst = b := rfl
@[simp] theorem setRst_srcDisturbed (b : Bool) : (s.setRst b).srcDisturbed = s.srcDisturbed := rfl
@[simp] theorem setRst_outDisturbed (b : Bool) : (s.setRst b).outDisturbed = s.outDisturbed := rfl
@[simp] theorem setRst_draws (b : Bool) : (s.setRst b).draws = s.draws := rfl
@[simp] theorem setRst_host (b : Bool) : (s.setRst b).host = s.host := rfl
@[simp] theorem setRst_schedule (b : Bool) : (s.setRst b).schedule = s.schedule := rfl

@[simp] theorem setDisturbance_params (inS : Bool) (inW : List Nat) : (s.setDisturbance inS inW).params = s.params := rfl
@[simp] theorem setDisturbance_cmd (inS : Bool) (inW : List Nat) : (s.setDisturbance inS inW).cmd = s.cmd := rfl
@[simp] theorem setDisturbance_status (inS : Bool) (inW : List Nat) : (s.setDisturbance inS inW).status = s.status := rfl
@[simp] theorem setDisturbance_src (inS : Bool) (inW : List Nat) : (s.setDisturbance inS inW).src = s.src := rfl
@[simp] theorem setDisturbance_len (inS : Bool) (inW : List Nat) : (s.setDisturbance inS inW).len = s.len := rfl
@[simp] theorem setDisturbance_dst (inS : Bool) (inW : List Nat) : (s.setDisturbance inS inW).dst = s.dst := rfl
@[simp] theorem setDisturbance_dstCap (inS : Bool) (inW : List Nat) : (s.setDisturbance inS inW).dstCap = s.dstCap := rfl
@[simp] theorem setDisturbance_resultLo (inS : Bool) (inW : List Nat) : (s.setDisturbance inS inW).resultLo = s.resultLo := rfl
@[simp] theorem setDisturbance_resultHi (inS : Bool) (inW : List Nat) : (s.setDisturbance inS inW).resultHi = s.resultHi := rfl
@[simp] theorem setDisturbance_errPos (inS : Bool) (inW : List Nat) : (s.setDisturbance inS inW).errPos = s.errPos := rfl
@[simp] theorem setDisturbance_mem (inS : Bool) (inW : List Nat) : (s.setDisturbance inS inW).mem = s.mem := rfl
@[simp] theorem setDisturbance_rst (inS : Bool) (inW : List Nat) : (s.setDisturbance inS inW).rst = s.rst := rfl
@[simp] theorem setDisturbance_srcDisturbed (inS : Bool) (inW : List Nat) : (s.setDisturbance inS inW).srcDisturbed = inS := rfl
@[simp] theorem setDisturbance_outDisturbed (inS : Bool) (inW : List Nat) : (s.setDisturbance inS inW).outDisturbed = inW := rfl
@[simp] theorem setDisturbance_draws (inS : Bool) (inW : List Nat) : (s.setDisturbance inS inW).draws = s.draws := rfl
@[simp] theorem setDisturbance_host (inS : Bool) (inW : List Nat) : (s.setDisturbance inS inW).host = s.host := rfl
@[simp] theorem setDisturbance_schedule (inS : Bool) (inW : List Nat) : (s.setDisturbance inS inW).schedule = s.schedule := rfl

@[simp] theorem setDraws_params (k : Nat) : (s.setDraws k).params = s.params := rfl
@[simp] theorem setDraws_cmd (k : Nat) : (s.setDraws k).cmd = s.cmd := rfl
@[simp] theorem setDraws_status (k : Nat) : (s.setDraws k).status = s.status := rfl
@[simp] theorem setDraws_src (k : Nat) : (s.setDraws k).src = s.src := rfl
@[simp] theorem setDraws_len (k : Nat) : (s.setDraws k).len = s.len := rfl
@[simp] theorem setDraws_dst (k : Nat) : (s.setDraws k).dst = s.dst := rfl
@[simp] theorem setDraws_dstCap (k : Nat) : (s.setDraws k).dstCap = s.dstCap := rfl
@[simp] theorem setDraws_resultLo (k : Nat) : (s.setDraws k).resultLo = s.resultLo := rfl
@[simp] theorem setDraws_resultHi (k : Nat) : (s.setDraws k).resultHi = s.resultHi := rfl
@[simp] theorem setDraws_errPos (k : Nat) : (s.setDraws k).errPos = s.errPos := rfl
@[simp] theorem setDraws_mem (k : Nat) : (s.setDraws k).mem = s.mem := rfl
@[simp] theorem setDraws_rst (k : Nat) : (s.setDraws k).rst = s.rst := rfl
@[simp] theorem setDraws_srcDisturbed (k : Nat) : (s.setDraws k).srcDisturbed = s.srcDisturbed := rfl
@[simp] theorem setDraws_outDisturbed (k : Nat) : (s.setDraws k).outDisturbed = s.outDisturbed := rfl
@[simp] theorem setDraws_draws (k : Nat) : (s.setDraws k).draws = k := rfl
@[simp] theorem setDraws_host (k : Nat) : (s.setDraws k).host = s.host := rfl
@[simp] theorem setDraws_schedule (k : Nat) : (s.setDraws k).schedule = s.schedule := rfl

@[simp] theorem setHost_params (h : HostAgent) : (s.setHost h).params = s.params := rfl
@[simp] theorem setHost_cmd (h : HostAgent) : (s.setHost h).cmd = s.cmd := rfl
@[simp] theorem setHost_status (h : HostAgent) : (s.setHost h).status = s.status := rfl
@[simp] theorem setHost_src (h : HostAgent) : (s.setHost h).src = s.src := rfl
@[simp] theorem setHost_len (h : HostAgent) : (s.setHost h).len = s.len := rfl
@[simp] theorem setHost_dst (h : HostAgent) : (s.setHost h).dst = s.dst := rfl
@[simp] theorem setHost_dstCap (h : HostAgent) : (s.setHost h).dstCap = s.dstCap := rfl
@[simp] theorem setHost_resultLo (h : HostAgent) : (s.setHost h).resultLo = s.resultLo := rfl
@[simp] theorem setHost_resultHi (h : HostAgent) : (s.setHost h).resultHi = s.resultHi := rfl
@[simp] theorem setHost_errPos (h : HostAgent) : (s.setHost h).errPos = s.errPos := rfl
@[simp] theorem setHost_mem (h : HostAgent) : (s.setHost h).mem = s.mem := rfl
@[simp] theorem setHost_rst (h : HostAgent) : (s.setHost h).rst = s.rst := rfl
@[simp] theorem setHost_srcDisturbed (h : HostAgent) : (s.setHost h).srcDisturbed = s.srcDisturbed := rfl
@[simp] theorem setHost_outDisturbed (h : HostAgent) : (s.setHost h).outDisturbed = s.outDisturbed := rfl
@[simp] theorem setHost_draws (h : HostAgent) : (s.setHost h).draws = s.draws := rfl
@[simp] theorem setHost_host (h : HostAgent) : (s.setHost h).host = h := rfl
@[simp] theorem setHost_schedule (h : HostAgent) : (s.setHost h).schedule = s.schedule := rfl

@[simp] theorem setSchedule_params (ts : List Turn) : (s.setSchedule ts).params = s.params := rfl
@[simp] theorem setSchedule_cmd (ts : List Turn) : (s.setSchedule ts).cmd = s.cmd := rfl
@[simp] theorem setSchedule_status (ts : List Turn) : (s.setSchedule ts).status = s.status := rfl
@[simp] theorem setSchedule_src (ts : List Turn) : (s.setSchedule ts).src = s.src := rfl
@[simp] theorem setSchedule_len (ts : List Turn) : (s.setSchedule ts).len = s.len := rfl
@[simp] theorem setSchedule_dst (ts : List Turn) : (s.setSchedule ts).dst = s.dst := rfl
@[simp] theorem setSchedule_dstCap (ts : List Turn) : (s.setSchedule ts).dstCap = s.dstCap := rfl
@[simp] theorem setSchedule_resultLo (ts : List Turn) : (s.setSchedule ts).resultLo = s.resultLo := rfl
@[simp] theorem setSchedule_resultHi (ts : List Turn) : (s.setSchedule ts).resultHi = s.resultHi := rfl
@[simp] theorem setSchedule_errPos (ts : List Turn) : (s.setSchedule ts).errPos = s.errPos := rfl
@[simp] theorem setSchedule_mem (ts : List Turn) : (s.setSchedule ts).mem = s.mem := rfl
@[simp] theorem setSchedule_rst (ts : List Turn) : (s.setSchedule ts).rst = s.rst := rfl
@[simp] theorem setSchedule_srcDisturbed (ts : List Turn) : (s.setSchedule ts).srcDisturbed = s.srcDisturbed := rfl
@[simp] theorem setSchedule_outDisturbed (ts : List Turn) : (s.setSchedule ts).outDisturbed = s.outDisturbed := rfl
@[simp] theorem setSchedule_draws (ts : List Turn) : (s.setSchedule ts).draws = s.draws := rfl
@[simp] theorem setSchedule_host (ts : List Turn) : (s.setSchedule ts).host = s.host := rfl
@[simp] theorem setSchedule_schedule (ts : List Turn) : (s.setSchedule ts).schedule = ts := rfl

end Sys2Proof.Machine.State
end

