-- ==== Sys2Proof/Laws/OpsFields.lean ====
section
/-! SUPPORT. One lemma per field per shared operation of Ops.lean, each true by rfl, so that no later proof unfolds an
operation to see one field. -/

namespace Sys2Proof.Machine

variable (s : State)

@[simp] theorem acceptCommand_params (w : Word) : (acceptCommand w s).params = s.params := rfl
@[simp] theorem acceptCommand_cmd (w : Word) : (acceptCommand w s).cmd = w := rfl
@[simp] theorem acceptCommand_status (w : Word) : (acceptCommand w s).status = s.status.accept := rfl
@[simp] theorem acceptCommand_src (w : Word) : (acceptCommand w s).src = s.src := rfl
@[simp] theorem acceptCommand_len (w : Word) : (acceptCommand w s).len = s.len := rfl
@[simp] theorem acceptCommand_dst (w : Word) : (acceptCommand w s).dst = s.dst := rfl
@[simp] theorem acceptCommand_dstCap (w : Word) : (acceptCommand w s).dstCap = s.dstCap := rfl
@[simp] theorem acceptCommand_resultLo (w : Word) : (acceptCommand w s).resultLo = 0#32 := rfl
@[simp] theorem acceptCommand_resultHi (w : Word) : (acceptCommand w s).resultHi = 0#32 := rfl
@[simp] theorem acceptCommand_errPos (w : Word) : (acceptCommand w s).errPos = 0#32 := rfl
@[simp] theorem acceptCommand_mem (w : Word) : (acceptCommand w s).mem = s.mem := rfl
@[simp] theorem acceptCommand_rst (w : Word) : (acceptCommand w s).rst = s.rst := rfl
@[simp] theorem acceptCommand_srcDisturbed (w : Word) : (acceptCommand w s).srcDisturbed = false := rfl
@[simp] theorem acceptCommand_outDisturbed (w : Word) : (acceptCommand w s).outDisturbed = [] := rfl
@[simp] theorem acceptCommand_draws (w : Word) : (acceptCommand w s).draws = s.draws := rfl
@[simp] theorem acceptCommand_host (w : Word) : (acceptCommand w s).host = s.host := rfl
@[simp] theorem acceptCommand_schedule (w : Word) : (acceptCommand w s).schedule = s.schedule := rfl

@[simp] theorem finish_params (r : Nat) : (finish r s).params = s.params := rfl
@[simp] theorem finish_cmd (r : Nat) : (finish r s).cmd = s.cmd := rfl
@[simp] theorem finish_status (r : Nat) : (finish r s).status = s.status.finish := rfl
@[simp] theorem finish_src (r : Nat) : (finish r s).src = s.src := rfl
@[simp] theorem finish_len (r : Nat) : (finish r s).len = s.len := rfl
@[simp] theorem finish_dst (r : Nat) : (finish r s).dst = s.dst := rfl
@[simp] theorem finish_dstCap (r : Nat) : (finish r s).dstCap = s.dstCap := rfl
@[simp] theorem finish_resultLo (r : Nat) : (finish r s).resultLo = BitVec.ofNat 32 r := rfl
@[simp] theorem finish_resultHi (r : Nat) : (finish r s).resultHi = BitVec.ofNat 32 (r / 2 ^ 32) := rfl
@[simp] theorem finish_errPos (r : Nat) : (finish r s).errPos = s.errPos := rfl
@[simp] theorem finish_mem (r : Nat) : (finish r s).mem = s.mem := rfl
@[simp] theorem finish_rst (r : Nat) : (finish r s).rst = s.rst := rfl
@[simp] theorem finish_srcDisturbed (r : Nat) : (finish r s).srcDisturbed = false := rfl
@[simp] theorem finish_outDisturbed (r : Nat) : (finish r s).outDisturbed = [] := rfl
@[simp] theorem finish_draws (r : Nat) : (finish r s).draws = s.draws := rfl
@[simp] theorem finish_host (r : Nat) : (finish r s).host = s.host := rfl
@[simp] theorem finish_schedule (r : Nat) : (finish r s).schedule = s.schedule := rfl

@[simp] theorem endWithError_params (c : ErrCause) (pos : Nat) : (endWithError c pos s).params = s.params := rfl
@[simp] theorem endWithError_cmd (c : ErrCause) (pos : Nat) : (endWithError c pos s).cmd = s.cmd := rfl
@[simp] theorem endWithError_status (c : ErrCause) (pos : Nat) : (endWithError c pos s).status = s.status.raiseError c := rfl
@[simp] theorem endWithError_src (c : ErrCause) (pos : Nat) : (endWithError c pos s).src = s.src := rfl
@[simp] theorem endWithError_len (c : ErrCause) (pos : Nat) : (endWithError c pos s).len = s.len := rfl
@[simp] theorem endWithError_dst (c : ErrCause) (pos : Nat) : (endWithError c pos s).dst = s.dst := rfl
@[simp] theorem endWithError_dstCap (c : ErrCause) (pos : Nat) : (endWithError c pos s).dstCap = s.dstCap := rfl
@[simp] theorem endWithError_resultLo (c : ErrCause) (pos : Nat) : (endWithError c pos s).resultLo = 0#32 := rfl
@[simp] theorem endWithError_resultHi (c : ErrCause) (pos : Nat) : (endWithError c pos s).resultHi = 0#32 := rfl
@[simp] theorem endWithError_errPos (c : ErrCause) (pos : Nat) : (endWithError c pos s).errPos = BitVec.ofNat 32 pos := rfl
@[simp] theorem endWithError_mem (c : ErrCause) (pos : Nat) : (endWithError c pos s).mem = s.mem := rfl
@[simp] theorem endWithError_rst (c : ErrCause) (pos : Nat) : (endWithError c pos s).rst = s.rst := rfl
@[simp] theorem endWithError_srcDisturbed (c : ErrCause) (pos : Nat) : (endWithError c pos s).srcDisturbed = false := rfl
@[simp] theorem endWithError_outDisturbed (c : ErrCause) (pos : Nat) : (endWithError c pos s).outDisturbed = [] := rfl
@[simp] theorem endWithError_draws (c : ErrCause) (pos : Nat) : (endWithError c pos s).draws = s.draws := rfl
@[simp] theorem endWithError_host (c : ErrCause) (pos : Nat) : (endWithError c pos s).host = s.host := rfl
@[simp] theorem endWithError_schedule (c : ErrCause) (pos : Nat) : (endWithError c pos s).schedule = s.schedule := rfl

@[simp] theorem raiseContractFault_params (c : FaultCause) : (raiseContractFault c s).params = s.params := rfl
@[simp] theorem raiseContractFault_cmd (c : FaultCause) : (raiseContractFault c s).cmd = s.cmd := rfl
@[simp] theorem raiseContractFault_status (c : FaultCause) : (raiseContractFault c s).status = s.status.raiseFault c := rfl
@[simp] theorem raiseContractFault_src (c : FaultCause) : (raiseContractFault c s).src = s.src := rfl
@[simp] theorem raiseContractFault_len (c : FaultCause) : (raiseContractFault c s).len = s.len := rfl
@[simp] theorem raiseContractFault_dst (c : FaultCause) : (raiseContractFault c s).dst = s.dst := rfl
@[simp] theorem raiseContractFault_dstCap (c : FaultCause) : (raiseContractFault c s).dstCap = s.dstCap := rfl
@[simp] theorem raiseContractFault_resultLo (c : FaultCause) : (raiseContractFault c s).resultLo = 0#32 := rfl
@[simp] theorem raiseContractFault_resultHi (c : FaultCause) : (raiseContractFault c s).resultHi = 0#32 := rfl
@[simp] theorem raiseContractFault_errPos (c : FaultCause) : (raiseContractFault c s).errPos = 0#32 := rfl
@[simp] theorem raiseContractFault_mem (c : FaultCause) : (raiseContractFault c s).mem = s.mem := rfl
@[simp] theorem raiseContractFault_rst (c : FaultCause) : (raiseContractFault c s).rst = s.rst := rfl
@[simp] theorem raiseContractFault_srcDisturbed (c : FaultCause) : (raiseContractFault c s).srcDisturbed = false := rfl
@[simp] theorem raiseContractFault_outDisturbed (c : FaultCause) : (raiseContractFault c s).outDisturbed = [] := rfl
@[simp] theorem raiseContractFault_draws (c : FaultCause) : (raiseContractFault c s).draws = s.draws := rfl
@[simp] theorem raiseContractFault_host (c : FaultCause) : (raiseContractFault c s).host = s.host := rfl
@[simp] theorem raiseContractFault_schedule (c : FaultCause) : (raiseContractFault c s).schedule = s.schedule := rfl

@[simp] theorem scramble_params (r : Range) : (scramble r s).params = s.params := rfl
@[simp] theorem scramble_cmd (r : Range) : (scramble r s).cmd = s.cmd := rfl
@[simp] theorem scramble_status (r : Range) : (scramble r s).status = s.status := rfl
@[simp] theorem scramble_src (r : Range) : (scramble r s).src = s.src := rfl
@[simp] theorem scramble_len (r : Range) : (scramble r s).len = s.len := rfl
@[simp] theorem scramble_dst (r : Range) : (scramble r s).dst = s.dst := rfl
@[simp] theorem scramble_dstCap (r : Range) : (scramble r s).dstCap = s.dstCap := rfl
@[simp] theorem scramble_resultLo (r : Range) : (scramble r s).resultLo = s.resultLo := rfl
@[simp] theorem scramble_resultHi (r : Range) : (scramble r s).resultHi = s.resultHi := rfl
@[simp] theorem scramble_errPos (r : Range) : (scramble r s).errPos = s.errPos := rfl
@[simp] theorem scramble_mem (r : Range) : (scramble r s).mem = Memory.fill s.mem r.base s.draws r.size := rfl
@[simp] theorem scramble_rst (r : Range) : (scramble r s).rst = s.rst := rfl
@[simp] theorem scramble_srcDisturbed (r : Range) : (scramble r s).srcDisturbed = s.srcDisturbed := rfl
@[simp] theorem scramble_outDisturbed (r : Range) : (scramble r s).outDisturbed = s.outDisturbed := rfl
@[simp] theorem scramble_draws (r : Range) : (scramble r s).draws = s.draws + r.size := rfl
@[simp] theorem scramble_host (r : Range) : (scramble r s).host = s.host := rfl
@[simp] theorem scramble_schedule (r : Range) : (scramble r s).schedule = s.schedule := rfl

@[simp] theorem scrambleNeed_params (i : Instr) : (scrambleNeed i s).params = s.params := rfl
@[simp] theorem scrambleNeed_cmd (i : Instr) : (scrambleNeed i s).cmd = s.cmd := rfl
@[simp] theorem scrambleNeed_status (i : Instr) : (scrambleNeed i s).status = s.status := rfl
@[simp] theorem scrambleNeed_src (i : Instr) : (scrambleNeed i s).src = s.src := rfl
@[simp] theorem scrambleNeed_len (i : Instr) : (scrambleNeed i s).len = s.len := rfl
@[simp] theorem scrambleNeed_dst (i : Instr) : (scrambleNeed i s).dst = s.dst := rfl
@[simp] theorem scrambleNeed_dstCap (i : Instr) : (scrambleNeed i s).dstCap = s.dstCap := rfl
@[simp] theorem scrambleNeed_resultLo (i : Instr) : (scrambleNeed i s).resultLo = s.resultLo := rfl
@[simp] theorem scrambleNeed_resultHi (i : Instr) : (scrambleNeed i s).resultHi = s.resultHi := rfl
@[simp] theorem scrambleNeed_errPos (i : Instr) : (scrambleNeed i s).errPos = s.errPos := rfl
@[simp] theorem scrambleNeed_rst (i : Instr) : (scrambleNeed i s).rst = s.rst := rfl
@[simp] theorem scrambleNeed_srcDisturbed (i : Instr) : (scrambleNeed i s).srcDisturbed = s.srcDisturbed := rfl
@[simp] theorem scrambleNeed_outDisturbed (i : Instr) : (scrambleNeed i s).outDisturbed = s.outDisturbed := rfl
@[simp] theorem scrambleNeed_host (i : Instr) : (scrambleNeed i s).host = s.host := rfl
@[simp] theorem scrambleNeed_schedule (i : Instr) : (scrambleNeed i s).schedule = s.schedule := rfl

@[simp] theorem redrawDisturbed_params : (redrawDisturbed s).params = s.params := rfl
@[simp] theorem redrawDisturbed_cmd : (redrawDisturbed s).cmd = s.cmd := rfl
@[simp] theorem redrawDisturbed_status : (redrawDisturbed s).status = s.status := rfl
@[simp] theorem redrawDisturbed_src : (redrawDisturbed s).src = s.src := rfl
@[simp] theorem redrawDisturbed_len : (redrawDisturbed s).len = s.len := rfl
@[simp] theorem redrawDisturbed_dst : (redrawDisturbed s).dst = s.dst := rfl
@[simp] theorem redrawDisturbed_dstCap : (redrawDisturbed s).dstCap = s.dstCap := rfl
@[simp] theorem redrawDisturbed_resultLo : (redrawDisturbed s).resultLo = s.resultLo := rfl
@[simp] theorem redrawDisturbed_resultHi : (redrawDisturbed s).resultHi = s.resultHi := rfl
@[simp] theorem redrawDisturbed_errPos : (redrawDisturbed s).errPos = s.errPos := rfl
@[simp] theorem redrawDisturbed_mem : (redrawDisturbed s).mem = Memory.fillAt s.mem s.draws s.outDisturbed := rfl
@[simp] theorem redrawDisturbed_rst : (redrawDisturbed s).rst = s.rst := rfl
@[simp] theorem redrawDisturbed_srcDisturbed : (redrawDisturbed s).srcDisturbed = s.srcDisturbed := rfl
@[simp] theorem redrawDisturbed_outDisturbed : (redrawDisturbed s).outDisturbed = s.outDisturbed := rfl
@[simp] theorem redrawDisturbed_draws : (redrawDisturbed s).draws = s.draws + s.outDisturbed.length := rfl
@[simp] theorem redrawDisturbed_host : (redrawDisturbed s).host = s.host := rfl
@[simp] theorem redrawDisturbed_schedule : (redrawDisturbed s).schedule = s.schedule := rfl

@[simp] theorem clearRegisters_params : (clearRegisters s).params = s.params := rfl
@[simp] theorem clearRegisters_cmd : (clearRegisters s).cmd = 0#32 := rfl
@[simp] theorem clearRegisters_status : (clearRegisters s).status = Status.idle := rfl
@[simp] theorem clearRegisters_src : (clearRegisters s).src = 0#32 := rfl
@[simp] theorem clearRegisters_len : (clearRegisters s).len = 0#32 := rfl
@[simp] theorem clearRegisters_dst : (clearRegisters s).dst = 0#32 := rfl
@[simp] theorem clearRegisters_dstCap : (clearRegisters s).dstCap = 0#32 := rfl
@[simp] theorem clearRegisters_resultLo : (clearRegisters s).resultLo = 0#32 := rfl
@[simp] theorem clearRegisters_resultHi : (clearRegisters s).resultHi = 0#32 := rfl
@[simp] theorem clearRegisters_errPos : (clearRegisters s).errPos = 0#32 := rfl
@[simp] theorem clearRegisters_mem : (clearRegisters s).mem = s.mem := rfl
@[simp] theorem clearRegisters_rst : (clearRegisters s).rst = s.rst := rfl
@[simp] theorem clearRegisters_srcDisturbed : (clearRegisters s).srcDisturbed = false := rfl
@[simp] theorem clearRegisters_outDisturbed : (clearRegisters s).outDisturbed = [] := rfl
@[simp] theorem clearRegisters_draws : (clearRegisters s).draws = s.draws := rfl
@[simp] theorem clearRegisters_host : (clearRegisters s).host = s.host := rfl
@[simp] theorem clearRegisters_schedule : (clearRegisters s).schedule = s.schedule := rfl

@[simp] theorem setDraws_srcN (k : Nat) : (s.setDraws k).srcN = s.srcN := rfl
@[simp] theorem setDraws_lenN (k : Nat) : (s.setDraws k).lenN = s.lenN := rfl
@[simp] theorem setDraws_dstN (k : Nat) : (s.setDraws k).dstN = s.dstN := rfl
@[simp] theorem setDraws_capN (k : Nat) : (s.setDraws k).capN = s.capN := rfl

end Sys2Proof.Machine
end

