-- ==== Sys2Proof/Laws/Ops.lean ====
section
/-! SUPPORT. What each shared operation does, said once: each operation as one update of the state, the contract check, the
cases of a command, of a register write, of a host's turn and of a step. -/

namespace Sys2Proof.Machine

/-! ## The operations as updates -/

theorem acceptCommand_eq (w : Word) (s : State) : acceptCommand w s =
    { s with cmd := w, status := s.status.accept, resultLo := 0#32, resultHi := 0#32, errPos := 0#32,
             srcDisturbed := false, outDisturbed := [] } := rfl

theorem finish_eq (r : Nat) (s : State) : finish r s =
    { s with resultLo := BitVec.ofNat 32 r, resultHi := BitVec.ofNat 32 (r / 2 ^ 32), status := s.status.finish,
             srcDisturbed := false, outDisturbed := [] } := rfl

theorem endWithError_eq (c : ErrCause) (pos : Nat) (s : State) : endWithError c pos s =
    { s with resultLo := 0#32, resultHi := 0#32, errPos := BitVec.ofNat 32 pos, status := s.status.raiseError c,
             srcDisturbed := false, outDisturbed := [] } := rfl

theorem raiseContractFault_eq (c : FaultCause) (s : State) : raiseContractFault c s =
    { s with resultLo := 0#32, resultHi := 0#32, errPos := 0#32, status := s.status.raiseFault c,
             srcDisturbed := false, outDisturbed := [] } := rfl

theorem scramble_eq (r : Range) (s : State) : scramble r s =
    { s with mem := Memory.fill s.mem r.base s.draws r.size, draws := s.draws + r.size } := rfl

theorem redrawDisturbed_eq (s : State) : redrawDisturbed s =
    { s with mem := Memory.fillAt s.mem s.draws s.outDisturbed, draws := s.draws + s.outDisturbed.length } := rfl

theorem clearRegisters_eq (s : State) : clearRegisters s =
    { s with cmd := 0#32, status := Status.idle, src := 0#32, len := 0#32, dst := 0#32, dstCap := 0#32,
             resultLo := 0#32, resultHi := 0#32, errPos := 0#32, srcDisturbed := false, outDisturbed := [] } := rfl

theorem raiseDecodeError_length (pos : Nat) (s : State) :
    raiseDecodeError .length pos s = endWithError .length pos s := rfl

theorem raiseDecodeError_content {c : ErrCause} (hc : c ≠ .length) (pos : Nat) (s : State) :
    raiseDecodeError c pos s = endWithError c pos (scramble { base := s.dstN, size := decodeLen s.lenN } s) := by
  unfold raiseDecodeError; rw [if_neg hc]

/-! ## Ranges and the contract -/

theorem Range.has_iff {r : Range} {a : Nat} : r.has a = true ↔ r.base ≤ a ∧ a < r.base + r.size := by
  simp [Range.has]

theorem Range.has_false_iff {r : Range} {a : Nat} : r.has a = false ↔ a < r.base ∨ r.base + r.size ≤ a := by
  rw [← Bool.not_eq_true, Range.has_iff]; omega

@[simp] theorem Range.none_has (a : Nat) : Range.none.has a = false := by
  rw [Range.has_false_iff]; simp [Range.none]

theorem needRangeOf_encode (s : State) : needRangeOf .encode s = { base := s.dstN, size := encodeLen s.lenN } := rfl
theorem needRangeOf_decode (s : State) : needRangeOf .decode s = { base := s.dstN, size := decodeLen s.lenN } := rfl

/-- A range inside the memory is its own part in it. -/
theorem Range.within_eq {r : Range} {size : Nat} (h : r.base + r.size ≤ size) : r.within size = r := by
  unfold Range.within
  rw [Nat.min_eq_left (by omega)]

/-- The part of a range in a memory lies in it, or is empty. -/
theorem Range.within_inside (r : Range) (size : Nat) :
    (r.within size).base + (r.within size).size ≤ size ∨ (r.within size).size = 0 := by
  simp only [Range.within]; omega

/-- An address outside a range is outside its part in the memory. -/
theorem Range.within_has_false {r : Range} {a : Nat} (size : Nat) (h : r.has a = false) : (r.within size).has a = false := by
  rw [Range.has_false_iff] at h ⊢
  simp only [Range.within]; omega

/-- What a contract that holds gives (60_exceptions.md R207). -/
theorem checkContract_none {p : Params} {src n dst cap need : Nat} (h : checkContract p src n dst cap need = none) :
    src + n ≤ p.memSize ∧ dst + cap ≤ p.memSize ∧ need ≤ cap ∧
      (n = 0 ∨ cap = 0 ∨ dst + cap ≤ src ∨ src + n ≤ dst) := by
  unfold checkContract at h
  split at h
  · cases h
  · split at h
    · cases h
    · split at h
      · cases h
      · split at h
        · cases h
        · omega

theorem contractHolds_encode {s : State} (h : contractHolds .encode s) :
    s.srcN + s.lenN ≤ s.params.memSize ∧ s.dstN + s.capN ≤ s.params.memSize ∧ encodeLen s.lenN ≤ s.capN ∧
      (s.srcN + s.lenN ≤ s.dstN ∨ s.dstN + 4 * encodeGroups s.lenN ≤ s.srcN) := by
  have h' := checkContract_none (show checkContract s.params s.srcN s.lenN s.dstN s.capN (encodeLen s.lenN) = none from h)
  have := encodeLen_eq s.lenN
  unfold encodeLen encodeGroups at *
  omega

theorem contractHolds_decode {s : State} (h : contractHolds .decode s) :
    s.srcN + s.lenN ≤ s.params.memSize ∧ s.dstN + s.capN ≤ s.params.memSize ∧ decodeLen s.lenN ≤ s.capN ∧
      (s.lenN < 4 ∨ s.srcN + s.lenN ≤ s.dstN ∨ s.dstN + decodeLen s.lenN ≤ s.srcN) := by
  have h' := checkContract_none (show checkContract s.params s.srcN s.lenN s.dstN s.capN (decodeLen s.lenN) = none from h)
  unfold decodeLen at *
  omega

theorem capN_lt (s : State) : s.capN < 2 ^ 32 := s.dstCap.isLt
theorem lenN_lt (s : State) : s.lenN < 2 ^ 32 := s.len.isLt

/-- RESULT after `Finish` of a number of 64 bits is that number (60_exceptions.md R203). -/
theorem resultN_of_parts {t : State} {r : Nat} (hr : r < 2 ^ 64) (hlo : t.resultLo = BitVec.ofNat 32 r)
    (hhi : t.resultHi = BitVec.ofNat 32 (r / 2 ^ 32)) : (t.resultHi ++ t.resultLo).toNat = r := by
  rw [hlo, hhi, BitVec.toNat_append, BitVec.toNat_ofNat, BitVec.toNat_ofNat]
  rw [← Nat.shiftLeft_add_eq_or_of_lt (Nat.mod_lt _ (by decide)), Nat.shiftLeft_eq]
  omega

/-! ## The cases of a command -/

/-- With no need-range byte written by the host, there is nothing to redraw (20_memory.md R73). -/
theorem redrawDisturbed_undisturbed {s : State} (h : s.outDisturbed = []) : redrawDisturbed s = s := by
  cases s; simp only at h; subst h; rfl

/-- When the contract holds, the whole need range exists (60_exceptions.md R207). -/
theorem scrambleNeed_of_contract {i : Instr} {s : State} (h : contractHolds i s) :
    scrambleNeed i s = scramble (needRangeOf i s) s := by
  unfold scrambleNeed
  rw [Range.within_eq]
  cases i with
  | encode =>
    have := contractHolds_encode h
    simp only [needRangeOf_encode]; omega
  | decode =>
    have := contractHolds_decode h
    simp only [needRangeOf_decode]; omega
  | encodeLen => exact Nat.zero_le _
  | decodeLen => exact Nat.zero_le _

/-- What ENCODE can do. -/
theorem execEncode_cases (s : State) :
    (s.srcDisturbed = true ∧ exec .encode s = .next (encodeDisturbed s)) ∨
    (∃ c, contractOf .encode s = some c ∧ s.srcDisturbed = false ∧
      exec .encode s = .next (raiseContractFault c (redrawDisturbed s))) ∨
    (contractHolds .encode s ∧ s.srcDisturbed = false ∧
      exec .encode s = .next (finish (encodeLen s.lenN) (redrawDisturbed
        (s.setMem (encodeLoop s.params s.srcN s.lenN s.dstN (encodeGroups s.lenN) 0 s.mem))))) := by
  rw [encodeLen_eq]
  simp only [show exec .encode s = execEncode s from rfl, execEncode, encodeExact, contractHolds]
  cases hd : s.srcDisturbed with
  | true => exact .inl ⟨rfl, rfl⟩
  | false =>
    cases hc : contractOf .encode s with
    | some c => exact .inr (.inl ⟨c, rfl, rfl, rfl⟩)
    | none => exact .inr (.inr ⟨rfl, rfl, rfl⟩)

/-- What ENCODE of an input the host wrote can do (20_memory.md R73, log entry 8). -/
theorem encodeDisturbed_cases (s : State) :
    (contractHolds .encode s ∧ encodeDisturbed s = finish (encodeLen s.lenN) (scramble (needRangeOf .encode s) s)) ∨
    (∃ c k, contractOf .encode s = some c ∧
      (encodeDisturbed s = raiseContractFault c ((scrambleNeed .encode s).setDraws k) ∨
       (encodeLen s.lenN < 2 ^ 32 ∧
         encodeDisturbed s = finish (encodeLen s.lenN) ((scrambleNeed .encode s).setDraws k)))) := by
  cases hc : contractOf .encode s with
  | none =>
    refine .inl ⟨hc, ?_⟩
    rw [← scrambleNeed_of_contract hc]
    simp only [encodeDisturbed, hc]
  | some c =>
    refine .inr ⟨c, (scrambleNeed .encode s).draws + 1, rfl, ?_⟩
    simp only [encodeDisturbed, hc]
    split
    · rename_i h; exact .inr ⟨h.1, rfl⟩
    · exact .inl rfl

/-- What DECODE can do. -/
theorem execDecode_cases (s : State) :
    (s.srcDisturbed = true ∧ exec .decode s = .next (decodeDisturbed s)) ∨
    (∃ c, contractOf .decode s = some c ∧ s.srcDisturbed = false ∧
      exec .decode s = .next (raiseContractFault c (redrawDisturbed s))) ∨
    (contractHolds .decode s ∧ s.lenN % 4 ≠ 0 ∧ s.srcDisturbed = false ∧
      exec .decode s = .next (endWithError .length 0 (redrawDisturbed s))) ∨
    (contractHolds .decode s ∧ s.lenN % 4 = 0 ∧ s.srcDisturbed = false ∧
      exec .decode s = .next (decodeGroupsExact s)) := by
  simp only [show exec .decode s = execDecode s from rfl, execDecode, decodeExact, contractHolds]
  cases hd : s.srcDisturbed with
  | true => exact .inl ⟨rfl, rfl⟩
  | false =>
    cases hc : contractOf .decode s with
    | some c => exact .inr (.inl ⟨c, rfl, rfl, rfl⟩)
    | none =>
      by_cases hn : s.lenN % 4 = 0
      · exact .inr (.inr (.inr ⟨rfl, hn, rfl, by simp [hn]⟩))
      · exact .inr (.inr (.inl ⟨rfl, hn, rfl, by simp [hn, raiseDecodeError_length]⟩))

theorem freeErrCause_cases (k : Nat) : freeErrCause k = .badChar ∨ freeErrCause k = .badPad ∨ freeErrCause k = .nonCanon := by
  unfold freeErrCause
  split
  · exact .inl rfl
  · split
    · exact .inr (.inl rfl)
    · exact .inr (.inr rfl)

/-- What 20_memory.md R73 leaves open of a DECODE's end. -/
theorem freeDecodeOutcome_cases (k : Nat) (s : State) :
    (∃ r, r ≤ decodeLen s.lenN ∧ freeDecodeOutcome k s = finish r s) ∨
    (∃ c pos, (c = .badChar ∨ c = .badPad ∨ c = .nonCanon) ∧ (0 < s.lenN → pos < s.lenN) ∧
      freeDecodeOutcome k s = endWithError c pos s) := by
  unfold freeDecodeOutcome
  split
  · exact .inl ⟨_, Nat.le_of_lt_succ (Nat.mod_lt _ (Nat.succ_pos _)), rfl⟩
  · exact .inr ⟨_, _, freeErrCause_cases _, fun h => Nat.mod_lt _ h, rfl⟩

/-- What DECODE of an input the host wrote can do (20_memory.md R73, log entry 8). -/
theorem decodeDisturbed_cases (s : State) : ∃ k,
    (∃ c, contractOf .decode s = some c ∧ decodeDisturbed s = raiseContractFault c ((scrambleNeed .decode s).setDraws k)) ∨
    (contractHolds .decode s ∧ s.lenN % 4 ≠ 0 ∧
      decodeDisturbed s = endWithError .length 0 ((scrambleNeed .decode s).setDraws k)) ∨
    (∃ r, r ≤ decodeLen s.lenN ∧ decodeDisturbed s = finish r ((scrambleNeed .decode s).setDraws k)) ∨
    (∃ c pos, (c = .badChar ∨ c = .badPad ∨ c = .nonCanon) ∧ (0 < s.lenN → pos < s.lenN) ∧
      decodeDisturbed s = endWithError c pos ((scrambleNeed .decode s).setDraws k)) := by
  refine ⟨(scrambleNeed .decode s).draws + 4, ?_⟩
  have free := freeDecodeOutcome_cases ((scrambleNeed .decode s).draws + 1)
    ((scrambleNeed .decode s).setDraws ((scrambleNeed .decode s).draws + 4))
  cases hc : contractOf .decode s with
  | some c =>
    simp only [decodeDisturbed, hc]
    split
    · exact .inl ⟨c, rfl, rfl⟩
    · exact .inr (.inr free)
  | none =>
    simp only [decodeDisturbed, hc]
    split
    · rename_i h; exact .inr (.inl ⟨hc, h.1, rfl⟩)
    · exact .inr (.inr free)

/-- What the loop of 42_decoder.md R169 can come to: an error of DECODE's own inside the input, or a count and a memory. -/
theorem decodeLoop_cases {p : Params} {src dst groups : Nat} : ∀ {count g total : Nat} {m : Memory}, m.wf = true →
    g + count = groups → total ≤ 3 * g →
    (∃ cause pos, decodeLoop p src dst groups count g total m = .err cause pos ∧ pos < 4 * groups ∧
      (cause = .badChar ∨ cause = .badPad ∨ cause = .nonCanon)) ∨
    (∃ total' m', decodeLoop p src dst groups count g total m = .ok total' m' ∧ total' ≤ 3 * groups ∧ m'.wf = true ∧
      (∀ a, a < dst + 3 * g ∨ dst + 3 * groups ≤ a → m'.read a = m.read a) ∧
      (∀ size, dst + 3 * groups ≤ size → m.inside size = true → m'.inside size = true))
  | 0, g, total, m, hm, hg, ht => .inr ⟨total, m, rfl, by omega, hm, fun _ _ => rfl, fun _ _ h => h⟩
  | count + 1, g, total, m, hm, hg, ht => by
    rcases decGroup_cases p (m.read (src + 4 * g)) (m.read (src + 4 * g + 1)) (m.read (src + 4 * g + 2))
      (m.read (src + 4 * g + 3)) (decide (g = groups - 1)) with ⟨r, cnt, ha, e⟩ | ⟨cause, pos, e, hp, hc⟩
    · have hcnt := ha.count
      rw [decodeLoop_ok e]
      rcases decodeLoop_cases (p := p) (src := src) (dst := dst) (groups := groups) (count := count) (g := g + 1)
        (total := total + cnt) (m := m.writeBytes (dst + 3 * g) ([packedByte r 0, packedByte r 1, packedByte r 2].take cnt))
        (Memory.writeBytes_wf hm) (by omega) (by omega) with h | ⟨total', m', h, hl, hw, ho, hi⟩
      · exact .inl h
      · refine .inr ⟨total', m', h, hl, hw, fun a ha' => ?_, fun size hs hin => hi size hs ?_⟩
        · rw [ho a (by omega)]
          exact Memory.read_writeBytes_other hm (by rw [List.length_take]; simp only [List.length_cons, List.length_nil]; omega)
        · exact Memory.writeBytes_inside (by rw [List.length_take]; simp only [List.length_cons, List.length_nil]; omega) hin
    · exact .inl ⟨cause, 4 * g + pos, decodeLoop_err e, by omega, hc⟩

/-- What DECODE of an input that stood still can do (42_decoder.md R169). -/
theorem decodeGroupsExact_cases {s : State} (hm : s.mem.wf = true) :
    (∃ c pos, (c = .badChar ∨ c = .badPad ∨ c = .nonCanon) ∧ pos < 4 * decodeGroups s.lenN ∧
      decodeGroupsExact s = endWithError c pos (scramble (needRangeOf .decode s) s)) ∨
    (∃ total m, total ≤ decodeLen s.lenN ∧ m.wf = true ∧
      (∀ a, a < s.dstN ∨ s.dstN + decodeLen s.lenN ≤ a → m.read a = s.mem.read a) ∧
      (∀ size, s.dstN + decodeLen s.lenN ≤ size → s.mem.inside size = true → m.inside size = true) ∧
      decodeGroupsExact s = finish total (redrawDisturbed (s.setMem m))) := by
  have hd : 3 * decodeGroups s.lenN = decodeLen s.lenN := by unfold decodeGroups decodeLen; omega
  unfold decodeGroupsExact
  rcases decodeLoop_cases (p := s.params) (src := s.srcN) (dst := s.dstN) (groups := decodeGroups s.lenN)
    (count := decodeGroups s.lenN) (g := 0) (total := 0) hm (by omega) (by omega) with
    ⟨cause, pos, e, hp, hc⟩ | ⟨total, m, e, hl, hw, ho, hi⟩
  · refine .inl ⟨cause, pos, hc, hp, ?_⟩
    rw [e]
    exact raiseDecodeError_content (by rcases hc with h | h | h <;> simp [h]) pos s
  · refine .inr ⟨total, m, by omega, hw, fun a ha => ho a (by omega), fun size hs => hi size (by omega), ?_⟩
    rw [e]

/-- How the loop of 42_decoder.md R169 ends, in any memory: an error of DECODE's own, or a count and a memory. -/
theorem decodeLoop_ends (p : Params) (src dst groups : Nat) : ∀ (count g total : Nat) (m : Memory),
    (∃ cause pos, decodeLoop p src dst groups count g total m = .err cause pos ∧
      (cause = .badChar ∨ cause = .badPad ∨ cause = .nonCanon)) ∨
    (∃ total' m', decodeLoop p src dst groups count g total m = .ok total' m')
  | 0, _, total, m => .inr ⟨total, m, rfl⟩
  | count + 1, g, total, m => by
    rcases decGroup_cases p (m.read (src + 4 * g)) (m.read (src + 4 * g + 1)) (m.read (src + 4 * g + 2))
      (m.read (src + 4 * g + 3)) (decide (g = groups - 1)) with ⟨r, cnt, _, e⟩ | ⟨cause, pos, e, _, hc⟩
    · rw [decodeLoop_ok e]; exact decodeLoop_ends p src dst groups count (g + 1) _ _
    · exact .inl ⟨cause, _, decodeLoop_err e, hc⟩

/-- How DECODE of an input that stood still ends, in any memory (42_decoder.md R169). -/
theorem decodeGroupsExact_ends (s : State) :
    (∃ c pos, (c = .badChar ∨ c = .badPad ∨ c = .nonCanon) ∧
      decodeGroupsExact s = endWithError c pos (scramble (needRangeOf .decode s) s)) ∨
    (∃ total m, decodeGroupsExact s = finish total (redrawDisturbed (s.setMem m))) := by
  unfold decodeGroupsExact
  rcases decodeLoop_ends s.params s.srcN s.dstN (decodeGroups s.lenN) (decodeGroups s.lenN) 0 0 s.mem with
    ⟨c, pos, e, hc⟩ | ⟨total, m, e⟩
  · refine .inl ⟨c, pos, hc, ?_⟩
    rw [e]
    exact raiseDecodeError_content (by rcases hc with h | h | h <;> simp [h]) pos s
  · exact .inr ⟨total, m, by rw [e]⟩

/-! ## The cases of a register write, a host's turn and a step -/

theorem regAt_eq_some {off : Offset} {r : RegName} (h : regAt off = some r) : off = r.offset := by
  unfold regAt at h
  repeat' split at h
  all_goals first | (cases h; assumption) | cases h

theorem regAt_offset (r : RegName) : regAt r.offset = some r := by cases r <;> rfl

/-- What a register write can do (10_state.md R21, R24, R25, R35, R36). -/
theorem writeRegister_cases (off : Offset) (v : Word) (s : State) :
    writeRegister off v s = s ∨
    (s.rst = false ∧ off = RegName.offset .ctrl ∧ v.getLsbD 0 = true ∧ writeRegister off v s = resetCore s) ∨
    (s.rst = false ∧ off = RegName.offset .cmd ∧ s.status.busy = false ∧ s.status.fault = false ∧
      writeRegister off v s = acceptCommand v s) ∨
    (s.rst = false ∧ s.status.busy = false ∧
      (writeRegister off v s = s.setSrc v ∨ writeRegister off v s = s.setLen v ∨
       writeRegister off v s = s.setDst v ∨ writeRegister off v s = s.setDstCap v)) := by
  unfold writeRegister
  cases hr : s.rst with
  | true => exact .inl rfl
  | false =>
    simp only [Bool.false_eq_true, if_false]
    cases ho : regAt off with
    | none => exact .inl rfl
    | some r =>
      have he := regAt_eq_some ho
      cases r with
      | ctrl =>
        simp only [writeNamed, writeCtrl]
        split
        · rename_i hv; exact .inr (.inl ⟨trivial, he, hv, rfl⟩)
        · exact .inl rfl
      | cmd =>
        simp only [writeNamed, writeCmd]
        split
        · exact .inl rfl
        · rename_i hb
          simp only [Bool.or_eq_true, not_or, Bool.not_eq_true] at hb
          exact .inr (.inr (.inl ⟨trivial, he, hb.1, hb.2, rfl⟩))
      | src =>
        simp only [writeNamed]
        cases hb : s.status.busy <;> simp
      | len =>
        simp only [writeNamed]
        cases hb : s.status.busy <;> simp
      | dst =>
        simp only [writeNamed]
        cases hb : s.status.busy <;> simp
      | dstCap =>
        simp only [writeNamed]
        cases hb : s.status.busy <;> simp
      | id => exact .inl rfl
      | status => exact .inl rfl
      | resultLo => exact .inl rfl
      | resultHi => exact .inl rfl
      | errPos => exact .inl rfl

/-- The offset of a platform address in the register block is the address less `BASE` (10_state.md R21). -/
theorem platformAddress_of_portOffset {cfg : Params} {a : Nat} {off : Offset} (h : portOffset cfg a = some off) :
    a = platformAddress cfg off := by
  unfold portOffset at h
  split at h
  · cases h
    simp only [platformAddress, BitVec.toNat_ofNat]; omega
  · cases h

/-- Every offset of the register block is named by its platform address (10_state.md R21). -/
theorem portOffset_platformAddress (cfg : Params) (off : Offset) : portOffset cfg (platformAddress cfg off) = some off := by
  have := off.isLt
  unfold portOffset platformAddress
  rw [if_pos (by omega), Nat.add_sub_cancel_left, BitVec.ofNat_toNat, BitVec.setWidth_eq]

/-- No offset is named by an address outside the register block (10_state.md R41). -/
theorem portOffset_eq_none {cfg : Params} {a : Nat} : portOffset cfg a = none ↔ a < cfg.base ∨ cfg.base + 0x100 ≤ a := by
  unfold portOffset
  split <;> simp <;> omega

/-- A register access that goes on is a regular one, of the offset its address names (10_state.md R42). -/
theorem hostAccess_next {a size : Nat} {s t : State} {k : Offset → State} (h : hostAccess a size s k = .next t) :
    ∃ off, a = platformAddress s.params off ∧ size = 32 ∧ off.toNat % 4 = 0 ∧ t = k off := by
  unfold hostAccess at h
  split at h
  · rename_i off ho
    split at h
    · rename_i hr
      simp only [regularAccess, Bool.and_eq_true, decide_eq_true_eq] at hr
      cases h
      exact ⟨off, platformAddress_of_portOffset ho, hr.1, hr.2, rfl⟩
    · cases h
  · cases h

/-- A regular access to an offset of the register block goes on (10_state.md R42). -/
theorem hostAccess_regular {s : State} {off : Offset} (h : off.toNat % 4 = 0) (k : Offset → State) :
    hostAccess (platformAddress s.params off) 32 s k = .next (k off) := by
  simp [hostAccess, portOffset_platformAddress, regularAccess, h]

/-- What a host's turn can do when it goes on (30_encoding.md R96): nothing to the CORE or memory, a register write, a
write of a byte that exists, or a read of one. -/
theorem hostTurn_cases {s t : State} (h : hostTurn s = .next t) :
    t = s ∨ (∃ h', t = s.setHost h') ∨
    (∃ off e h', s.host.program[s.host.pc]? = some (.wr (platformAddress s.params off) 32 e) ∧
      t = (writeRegister off (e.word s.host) s).setHost h') ∨
    (∃ a v h', a < s.params.memSize ∧ t = (hostMemWrite a v s).setHost h') ∨
    (∃ a h', a < s.params.memSize ∧ t = (hostMemRead a s).2.setHost h') := by
  unfold hostTurn at h
  cases hl : s.host.program[s.host.pc]? with
  | none => rw [hl] at h; cases h; exact .inl rfl
  | some l =>
    rw [hl] at h
    simp only at h
    cases l with
    | wr a size e =>
      obtain ⟨off, rfl, rfl, _, rfl⟩ := hostAccess_next h
      exact .inr (.inr (.inl ⟨off, e, _, rfl, rfl⟩))
    | rd a size x =>
      obtain ⟨off, _, _, _, rfl⟩ := hostAccess_next h
      exact .inr (.inl ⟨_, rfl⟩)
    | mw a bs =>
      simp only [hostLine, hostMw] at h
      split at h
      · cases h; exact .inr (.inl ⟨_, rfl⟩)
      · split at h
        · rename_i hlt
          cases h
          exact .inr (.inr (.inr (.inl ⟨_, _, _, hlt, rfl⟩)))
        · cases h
    | mr a k x =>
      simp only [hostLine, hostMr] at h
      split at h
      · split at h
        · rename_i hlt
          cases h
          exact .inr (.inr (.inr (.inr ⟨_, _, hlt, rfl⟩)))
        · cases h
      · cases h; exact .inr (.inl ⟨_, rfl⟩)
    | label l => simp only [hostLine] at h; cases h; exact .inr (.inl ⟨_, rfl⟩)
    | ifGoto c l =>
      simp only [hostLine, hostBranch] at h
      split at h
      · split at h
        · cases h; exact .inr (.inl ⟨_, rfl⟩)
        · cases h
      · cases h; exact .inr (.inl ⟨_, rfl⟩)

/-- The completion step of a word that names a command (30_encoding.md R92). -/
theorem execute_command {s : State} {i : Instr} (h : s.command = some i) : execute s = exec i s := by rw [execute, h]

/-- The completion step of an illegal word (30_encoding.md R94). -/
theorem execute_illegal {s : State} (h : s.command = none) : execute s = .next (raiseIllegalCommand s) := by
  rw [execute, h]

/-- The core's turn while a command runs and `rst` is low (60_exceptions.md R220). -/
theorem coreTurn_running {s : State} (hb : s.status.busy = true) (hr : s.rst = false) : coreTurn s = execute s := by
  simp [coreTurn, hb, hr]

/-- The core's turn when it has no step (60_exceptions.md R220, 70_reset_and_hazards.md R244). -/
theorem coreTurn_idle {s : State} (h : s.status.busy = false ∨ s.rst = true) : coreTurn s = .next s := by
  rcases h with h | h <;> simp [coreTurn, h]

/-- A host write outside the buffers of a running command, or while none runs, changes memory alone (20_memory.md R73). -/
theorem hostMemWrite_outside {s : State} {a : Nat} (v : Byte)
    (h : s.status.busy = true → s.needRange.has a = false ∧ s.inputRange.has a = false) :
    hostMemWrite a v s = s.setMem (s.mem.write a v) := by
  have hn : (s.status.busy && s.needRange.has a) = false := by cases hb : s.status.busy <;> simp_all
  have hi : (s.status.busy && s.inputRange.has a) = false := by cases hb : s.status.busy <;> simp_all
  unfold hostMemWrite
  rw [hn, hi, Bool.or_false]; rfl

/-- What a core's turn can do (60_exceptions.md R220). -/
theorem coreTurn_cases (s : State) :
    coreTurn s = .next s ∨
    (s.status.busy = true ∧ s.rst = false ∧ ∃ i, s.command = some i ∧ coreTurn s = exec i s) ∨
    (s.status.busy = true ∧ s.rst = false ∧ s.command = none ∧ coreTurn s = .next (raiseIllegalCommand s)) := by
  unfold coreTurn
  cases hb : s.status.busy with
  | false => exact .inl rfl
  | true =>
    cases hr : s.rst with
    | true => exact .inl rfl
    | false =>
      simp only [Bool.not_false, Bool.and_self, if_true, execute]
      cases hc : s.command with
      | none => exact .inr (.inr ⟨trivial, trivial, rfl, rfl⟩)
      | some i => exact .inr (.inl ⟨trivial, trivial, i, rfl, rfl⟩)

/-- A step is a turn on the state with that turn taken off the schedule. -/
theorem step_turn (s : State) : ∃ t ts, step s = runTurn t (s.setSchedule ts) ∧
    ((s.schedule = t :: ts) ∨ (s.schedule = [] ∧ ts = [] ∧ t = defaultTurn s)) := by
  unfold step nextTurn
  cases h : s.schedule with
  | nil =>
    refine ⟨defaultTurn s, [], ?_, .inr ⟨rfl, rfl, rfl⟩⟩
    have : s.setSchedule [] = s := by cases s; simp_all [State.setSchedule]
    rw [this]
  | cons t ts => exact ⟨t, ts, rfl, .inl rfl⟩

end Sys2Proof.Machine
end

