-- ==== Sys2Proof/Laws/Invariant.lean ====
section
/-! SUPPORT. The invariant of Safety.lean is kept by each operation on its own: an update of the host or the schedule, an
accepted command, a reset, an operand write, a host's memory access, and each way a command ends. -/

namespace Sys2Proof.Machine

variable {s : State}

theorem Status.consistent_busy {st : Status} (h : st.consistent) (hb : st.busy = true) :
    st = { Status.idle with busy := true } := by
  obtain ⟨b, d, e, f, ec, fc⟩ := st
  obtain ⟨⟨h1, _, _⟩, h4, h5⟩ := h
  simp only at hb; subst hb
  obtain ⟨rfl, rfl, rfl⟩ := h1 rfl
  simp only [Bool.false_eq_true, iff_false, ne_eq, Decidable.not_not] at h4 h5
  subst h4; subst h5; rfl

theorem Status.consistent_fault {st : Status} (h : st.consistent) (hf : st.fault = true) :
    st.busy = false ∧ st.done = false ∧ st.err = false ∧ st.errCause = .none := by
  obtain ⟨b, d, e, f, ec, fc⟩ := st
  obtain ⟨⟨h1, h2, h3⟩, h4, h5⟩ := h
  simp only at hf h1 h2 h3 h4 h5; subst hf
  cases b <;> cases d <;> cases e <;> simp_all

theorem Status.idle_consistent : Status.idle.consistent := by simp [Status.consistent, Status.idle]

theorem Status.busy_consistent : ({ Status.idle with busy := true } : Status).consistent := by
  simp [Status.consistent, Status.idle]

theorem State.undisturbed_clear (s : State) : s.clearDisturbance.undisturbed := ⟨rfl, rfl⟩

theorem disturbanceFits_of_undisturbed (h : s.undisturbed) : s.disturbanceFits where
  idle _ := h
  input hs := by rw [h.1] at hs; cases hs
  rising := by rw [h.2]; exact List.Pairwise.nil
  output a ha := by rw [h.2] at ha; cases ha

theorem inv_setHost (h : s.Inv) (h' : HostAgent) : (s.setHost h').Inv :=
  ⟨h.params, h.memCanonical, h.memInside, h.status, ⟨h.outcome.done, h.outcome.err, h.outcome.fault, h.outcome.result,
    h.outcome.resultHi, h.outcome.errPos⟩, ⟨h.disturbance.idle, h.disturbance.input, h.disturbance.rising,
    h.disturbance.output⟩, h.rstHeld⟩

theorem inv_setSchedule (h : s.Inv) (ts : List Turn) : (s.setSchedule ts).Inv :=
  ⟨h.params, h.memCanonical, h.memInside, h.status, ⟨h.outcome.done, h.outcome.err, h.outcome.fault, h.outcome.result,
    h.outcome.resultHi, h.outcome.errPos⟩, ⟨h.disturbance.idle, h.disturbance.input, h.disturbance.rising,
    h.disturbance.output⟩, h.rstHeld⟩

theorem inv_acceptCommand (h : s.Inv) (w : Word) (hf : s.status.fault = false)
    (hr : s.rst = false) : (acceptCommand w s).Inv := by
  have hst : (acceptCommand w s).status = { Status.idle with busy := true } := by
    obtain ⟨⟨_, _, _⟩, h4, h5⟩ := h.status
    have : s.status.faultCause = .none := by simpa [hf] using h5
    show s.status.accept = _
    simp only [Status.accept, Status.idle, hf, this]
  refine ⟨h.params, h.memCanonical, h.memInside, ?_, ?_, disturbanceFits_of_undisturbed ⟨rfl, rfl⟩, fun e => ?_⟩
  · rw [hst]; exact Status.busy_consistent
  · constructor
    · intro e; rw [hst] at e; cases e
    · intro e; rw [hst] at e; cases e
    · intro e; rw [hst] at e; cases e
    · intro _; exact ⟨rfl, rfl⟩
    · intro e; exact absurd rfl e
    · intro e; exact absurd rfl e
  · rw [show (acceptCommand w s).rst = s.rst from rfl, hr] at e; cases e

theorem registersAtReset_clear (s : State) : (clearRegisters s).registersAtReset :=
  ⟨rfl, rfl, rfl, rfl, rfl, rfl, rfl, rfl, rfl⟩

theorem outcomeFits_of_registersAtReset (h : s.registersAtReset) : s.outcomeFits := by
  obtain ⟨_, h2, _, _, _, _, h7, h8, h9⟩ := h
  constructor
  · intro e; rw [h2] at e; cases e
  · intro e; rw [h2] at e; cases e
  · intro e; rw [h2] at e; cases e
  · intro _; exact ⟨h7, h8⟩
  · intro e; exact absurd h8 e
  · intro e; exact absurd h9 e

/-- What an abort keeps of memory's form (70_reset_and_hazards.md R242). -/
theorem abortRunning_memory (hw : s.mem.wf = true) (hi : s.mem.inside s.params.memSize = true) :
    (abortRunning s).mem.wf = true ∧ (abortRunning s).mem.inside s.params.memSize = true ∧
      (abortRunning s).params = s.params ∧ (abortRunning s).rst = s.rst ∧ (abortRunning s).host = s.host ∧
      (abortRunning s).schedule = s.schedule := by
  unfold abortRunning
  split
  · cases hc : s.command with
    | none => exact ⟨hw, hi, rfl, rfl, rfl, rfl⟩
    | some i =>
      simp only
      split
      · rename_i hk
        refine ⟨Memory.fill_wf hw, Memory.fill_inside ?_ hi, rfl, rfl, rfl, rfl⟩
        cases i with
        | encode =>
          have := contractHolds_encode hk
          simp only [needRangeOf_encode]; omega
        | decode =>
          have := contractHolds_decode hk
          simp only [needRangeOf_decode]; omega
        | encodeLen => exact Nat.zero_le _
        | decodeLen => exact Nat.zero_le _
      · exact ⟨hw, hi, rfl, rfl, rfl, rfl⟩
  · exact ⟨hw, hi, rfl, rfl, rfl, rfl⟩

theorem inv_resetCore (h : s.Inv) : (resetCore s).Inv ∧ (resetCore s).registersAtReset := by
  obtain ⟨h1, h2, h3, _⟩ := abortRunning_memory h.memCanonical h.memInside
  have hr := registersAtReset_clear (abortRunning s)
  refine ⟨⟨?_, h1, ?_, ?_, outcomeFits_of_registersAtReset hr, disturbanceFits_of_undisturbed ⟨rfl, rfl⟩, fun _ => hr⟩, hr⟩
  · show (abortRunning s).params.wellFormed = true
    rw [h3]; exact h.params
  · show (abortRunning s).mem.inside (abortRunning s).params.memSize = true
    rw [h3]; exact h2
  · exact Status.idle_consistent

theorem inv_driveRst (h : s.Inv) (b : Bool) : (driveRst b s).Inv := by
  cases b with
  | true =>
    obtain ⟨hi, hr⟩ := inv_resetCore h
    exact ⟨hi.params, hi.memCanonical, hi.memInside, hi.status, ⟨hi.outcome.done, hi.outcome.err, hi.outcome.fault,
      hi.outcome.result, hi.outcome.resultHi, hi.outcome.errPos⟩, ⟨hi.disturbance.idle, hi.disturbance.input,
      hi.disturbance.rising, hi.disturbance.output⟩, fun _ => hr⟩
  | false =>
    exact ⟨h.params, h.memCanonical, h.memInside, h.status, ⟨h.outcome.done, h.outcome.err, h.outcome.fault,
      h.outcome.result, h.outcome.resultHi, h.outcome.errPos⟩, ⟨h.disturbance.idle, h.disturbance.input,
      h.disturbance.rising, h.disturbance.output⟩, fun e => by cases e⟩

/-- An operand write while no command runs changes an operand register only. -/
theorem inv_operand {t : State} (h : s.Inv) (hb : s.status.busy = false) (hr : s.rst = false)
    (ht : t = s.setSrc t.src ∨ t = s.setLen t.len ∨ t = s.setDst t.dst ∨ t = s.setDstCap t.dstCap) : t.Inv := by
  have hu := h.disturbance.idle hb
  have e : t.params = s.params ∧ t.mem = s.mem ∧ t.status = s.status ∧ t.cmd = s.cmd ∧ t.resultLo = s.resultLo ∧
      t.resultHi = s.resultHi ∧ t.errPos = s.errPos ∧ t.rst = s.rst ∧ t.srcDisturbed = s.srcDisturbed ∧
      t.outDisturbed = s.outDisturbed := by
    rcases ht with h | h | h | h <;> rw [h] <;> exact ⟨rfl, rfl, rfl, rfl, rfl, rfl, rfl, rfl, rfl, rfl⟩
  obtain ⟨e1, e2, e3, e4, e5, e6, e7, e8, e9, e10⟩ := e
  have ec : t.command = s.command := by unfold State.command; rw [e4]
  refine ⟨e1 ▸ h.params, e2 ▸ h.memCanonical, by rw [e1, e2]; exact h.memInside, e3 ▸ h.status, ?_,
    disturbanceFits_of_undisturbed ⟨e9 ▸ hu.1, e10 ▸ hu.2⟩, fun x => by rw [e8, hr] at x; cases x⟩
  constructor
  · rw [e3, ec]; exact h.outcome.done
  · rw [e3, ec]; exact h.outcome.err
  · rw [e3, ec]; exact h.outcome.fault
  · rw [e3, e5, e6]; exact h.outcome.result
  · rw [e6, ec]; exact h.outcome.resultHi
  · rw [e7, e3]; exact h.outcome.errPos

theorem mem_insertAddress {a b : Nat} : ∀ {l : List Nat}, b ∈ insertAddress a l ↔ b = a ∨ b ∈ l
  | [] => by simp [insertAddress]
  | k :: rest => by
    unfold insertAddress
    split
    · rename_i h; subst h; simp
    · split
      · simp
      · simp only [List.mem_cons, mem_insertAddress (l := rest)]; tauto

theorem insertAddress_rising {a : Nat} : ∀ {l : List Nat}, l.Pairwise (· < ·) → (insertAddress a l).Pairwise (· < ·)
  | [], _ => by simp [insertAddress]
  | k :: rest, h => by
    have hk := List.pairwise_cons.1 h
    unfold insertAddress
    split
    · exact h
    · split
      · rename_i hlt
        refine List.pairwise_cons.2 ⟨fun b hb => ?_, h⟩
        rcases List.mem_cons.1 hb with rfl | hb
        · exact hlt
        · exact Nat.lt_trans hlt (hk.1 b hb)
      · rename_i h1 h2
        refine List.pairwise_cons.2 ⟨fun b hb => ?_, insertAddress_rising hk.2⟩
        rcases mem_insertAddress.1 hb with rfl | hb
        · omega
        · exact hk.1 b hb

theorem needRange_hostMemWrite (a : Nat) (v : Byte) (s : State) : (hostMemWrite a v s).needRange = s.needRange := rfl

/-- A byte in the input buffer is in a command's that has one, and the buffer is not empty. -/
theorem inputRange_has {a : Nat} (h : s.inputRange.has a = true) :
    0 < s.lenN ∧ (s.command = some .encode ∨ s.command = some .decode) := by
  unfold State.inputRange at h
  cases hc : s.command with
  | none => rw [hc] at h; simp at h
  | some i =>
    rw [hc] at h
    simp only at h
    cases i with
    | encode =>
      rw [Range.has_iff] at h
      simp only [inputRangeOf, usesBuffers, if_true] at h
      exact ⟨by omega, .inl rfl⟩
    | decode =>
      rw [Range.has_iff] at h
      simp only [inputRangeOf, usesBuffers, if_true] at h
      exact ⟨by omega, .inr rfl⟩
    | encodeLen => simp [inputRangeOf, usesBuffers] at h
    | decodeLen => simp [inputRangeOf, usesBuffers] at h

theorem inv_hostMemWrite (h : s.Inv) {a : Nat} (v : Byte) (ha : a < s.params.memSize) : (hostMemWrite a v s).Inv := by
  refine ⟨h.params, Memory.write_wf h.memCanonical, Memory.write_inside ha h.memInside, h.status,
    ⟨h.outcome.done, h.outcome.err, h.outcome.fault, h.outcome.result, h.outcome.resultHi, h.outcome.errPos⟩, ?_, h.rstHeld⟩
  constructor
  · intro hb
    have hb' : s.status.busy = false := hb
    have hu := h.disturbance.idle hb'
    exact ⟨by simp [hostMemWrite, hb', hu.1], by simp [hostMemWrite, hb', hu.2]⟩
  · intro hs
    simp only [hostMemWrite, State.setDisturbance_srcDisturbed, Bool.or_eq_true, Bool.and_eq_true] at hs
    rcases hs with hs | hs
    · exact h.disturbance.input hs
    · exact inputRange_has hs.2
  · show List.Pairwise _ (if (s.status.busy && s.needRange.has a) = true then insertAddress a s.outDisturbed
      else s.outDisturbed)
    split
    · exact insertAddress_rising h.disturbance.rising
    · exact h.disturbance.rising
  · intro b hb
    have hb' : b ∈ (if (s.status.busy && s.needRange.has a) = true then insertAddress a s.outDisturbed
      else s.outDisturbed) := hb
    split at hb'
    · rename_i hn
      rw [Bool.and_eq_true] at hn
      rcases mem_insertAddress.1 hb' with rfl | hb'
      · exact ⟨hn.2, ha⟩
      · exact h.disturbance.output b hb'
    · exact h.disturbance.output b hb'

theorem hostMemRead_state (a : Nat) (s : State) : (hostMemRead a s).2 = s ∨ (hostMemRead a s).2 = s.setDraws (s.draws + 1) := by
  unfold hostMemRead
  split
  · exact .inr rfl
  · exact .inl rfl

theorem inv_setDraws (h : s.Inv) (k : Nat) : (s.setDraws k).Inv :=
  ⟨h.params, h.memCanonical, h.memInside, h.status, ⟨h.outcome.done, h.outcome.err, h.outcome.fault, h.outcome.result,
    h.outcome.resultHi, h.outcome.errPos⟩, ⟨h.disturbance.idle, h.disturbance.input, h.disturbance.rising,
    h.disturbance.output⟩, h.rstHeld⟩

/-- A success of a running command keeps the invariant, if its memory and its result do. -/
theorem inv_finish {u : State} {r : Nat} (h : s.Inv) (hb : s.status.busy = true) (hr : s.rst = false)
    (hc : s.command ≠ none) (hp : u.params = s.params) (hst : u.status = s.status) (hcmd : u.cmd = s.cmd)
    (hrst : u.rst = s.rst) (hep : u.errPos = s.errPos) (hw : u.mem.wf = true)
    (hin : u.mem.inside s.params.memSize = true) (hres : 2 ^ 32 ≤ r → s.command = some .encodeLen)
    (hlt : r < 2 ^ 64) : (finish r u).Inv := by
  have hs := Status.consistent_busy h.status hb
  have ec : (finish r u).command = s.command := by
    unfold State.command
    rw [finish_eq]
    simp only [hcmd]
  refine ⟨?_, hw, ?_, ?_, ?_, disturbanceFits_of_undisturbed ⟨rfl, rfl⟩, fun x => ?_⟩
  · show u.params.wellFormed = true; rw [hp]; exact h.params
  · show u.mem.inside u.params.memSize = true; rw [hp]; exact hin
  · show u.status.finish.consistent
    rw [hst, hs]; simp [Status.finish, Status.consistent, Status.idle]
  · constructor
    · intro _; rw [ec]; exact hc
    · intro e
      have : u.status.finish.err = true := e
      rw [hst, hs] at this; cases this
    · intro e
      have : u.status.finish.fault = true := e
      rw [hst, hs] at this; cases this
    · intro e
      have : u.status.finish.done = false := e
      cases this
    · intro e
      rw [ec]
      refine hres ?_
      by_contra hlo
      refine e ?_
      show BitVec.ofNat 32 (r / 2 ^ 32) = 0#32
      rw [Nat.div_eq_of_lt (by omega)]
    · intro e
      exfalso
      refine e ?_
      show u.errPos = 0#32
      rw [hep]
      by_contra hne
      have := h.outcome.errPos hne
      rw [hs] at this
      simp [Status.idle] at this
  · have : u.rst = true := x
    rw [hrst, hr] at this; cases this

/-- An error of a running command keeps the invariant, if its memory does. -/
theorem inv_endWithError {u : State} {c : ErrCause} {pos : Nat} (h : s.Inv) (hb : s.status.busy = true)
    (hr : s.rst = false) (hp : u.params = s.params) (hst : u.status = s.status) (hcmd : u.cmd = s.cmd)
    (hrst : u.rst = s.rst) (hw : u.mem.wf = true) (hin : u.mem.inside s.params.memSize = true) (hne : c ≠ .none)
    (hc : (c = .illegalCmd ∧ s.command = none) ∨ (c ≠ .illegalCmd ∧ s.command = some .decode))
    (hpos : pos ≠ 0 → c = .badChar ∨ c = .badPad ∨ c = .nonCanon) : (endWithError c pos u).Inv := by
  have hs := Status.consistent_busy h.status hb
  have ec : (endWithError c pos u).command = s.command := by
    unfold State.command
    rw [endWithError_eq]
    simp only [hcmd]
  refine ⟨?_, hw, ?_, ?_, ?_, disturbanceFits_of_undisturbed ⟨rfl, rfl⟩, fun x => ?_⟩
  · show u.params.wellFormed = true; rw [hp]; exact h.params
  · show u.mem.inside u.params.memSize = true; rw [hp]; exact hin
  · show (u.status.raiseError c).consistent
    rw [hst, hs]; simpa [Status.raiseError, Status.consistent, Status.idle] using hne
  · constructor
    · intro e
      have : (u.status.raiseError c).done = true := e
      rw [hst, hs] at this; cases this
    · intro _; rw [ec]; exact hc
    · intro e
      have : (u.status.raiseError c).fault = true := e
      rw [hst, hs] at this; cases this
    · intro _; exact ⟨rfl, rfl⟩
    · intro e; exact absurd rfl e
    · intro e
      refine hpos (fun h0 => e ?_)
      subst h0; rfl
  · have : u.rst = true := x
    rw [hrst, hr] at this; cases this

/-- A contract fault of a running command keeps the invariant, if its memory does. -/
theorem inv_raiseContractFault {u : State} {c : FaultCause} (h : s.Inv) (hb : s.status.busy = true) (hr : s.rst = false)
    (hp : u.params = s.params) (hst : u.status = s.status) (hcmd : u.cmd = s.cmd) (hrst : u.rst = s.rst)
    (hw : u.mem.wf = true) (hin : u.mem.inside s.params.memSize = true) (hne : c ≠ .none)
    (hc : s.command = some .encode ∨ s.command = some .decode) : (raiseContractFault c u).Inv := by
  have hs := Status.consistent_busy h.status hb
  have ec : (raiseContractFault c u).command = s.command := by
    unfold State.command
    rw [raiseContractFault_eq]
    simp only [hcmd]
  refine ⟨?_, hw, ?_, ?_, ?_, disturbanceFits_of_undisturbed ⟨rfl, rfl⟩, fun x => ?_⟩
  · show u.params.wellFormed = true; rw [hp]; exact h.params
  · show u.mem.inside u.params.memSize = true; rw [hp]; exact hin
  · show (u.status.raiseFault c).consistent
    rw [hst, hs]; simpa [Status.raiseFault, Status.consistent, Status.idle] using hne
  · constructor
    · intro e
      have : (u.status.raiseFault c).done = true := e
      rw [hst, hs] at this; cases this
    · intro e
      have : (u.status.raiseFault c).err = true := e
      rw [hst, hs] at this; cases this
    · intro _; rw [ec]; exact hc
    · intro _; exact ⟨rfl, rfl⟩
    · intro e; exact absurd rfl e
    · intro e; exact absurd rfl e
  · have : u.rst = true := x
    rw [hrst, hr] at this; cases this

/-- Memory keeps its form when the need range takes free values (20_memory.md R73). -/
theorem scrambleNeed_memory (i : Instr) (hw : s.mem.wf = true) (hin : s.mem.inside s.params.memSize = true) :
    (scrambleNeed i s).mem.wf = true ∧ (scrambleNeed i s).mem.inside s.params.memSize = true := by
  refine ⟨Memory.fill_wf hw, ?_⟩
  show Memory.inside s.params.memSize (Memory.fill _ _ _ _) = true
  rcases Range.within_inside (needRangeOf i s) s.params.memSize with h | h
  · exact Memory.fill_inside h hin
  · rw [h]; exact hin

/-- Memory keeps its form when the need-range bytes the host wrote take free values (20_memory.md R73). -/
theorem redrawDisturbed_memory {u : State} (hd : s.disturbanceFits) (hu : u.outDisturbed = s.outDisturbed)
    (hw : u.mem.wf = true) (hin : u.mem.inside s.params.memSize = true) :
    (redrawDisturbed u).mem.wf = true ∧ (redrawDisturbed u).mem.inside s.params.memSize = true :=
  ⟨Memory.fillAt_wf hw, Memory.fillAt_inside (fun a ha => (hd.output a (hu ▸ ha)).2) hin⟩

theorem contractOf_ne_none {i : Instr} {s : State} {c : FaultCause} (h : contractOf i s = some c) : c ≠ .none := by
  unfold contractOf at h
  split at h
  · unfold checkContract at h
    repeat' split at h
    all_goals first | (cases h; simp) | cases h
  · cases h

end Sys2Proof.Machine
end

