-- ==== Sys2Proof/Laws/Commands.lean ====
section
/-! SUPPORT. What `exec` of a command comes to: which case holds under which conditions on the state, what the group
function answers over a whole input, and what a command keeps. -/

namespace Sys2Proof.Machine

variable {s t : State}

theorem next_inj (h : (Host.Outcome.next s : Host.Outcome State Fault Refusal) = .next t) : s = t := by cases h; rfl

/-! ## What a command's end keeps: no way of ending touches memory or an operand -/

@[simp] theorem keepsMemoryOutside_finish (r : Range) (u : State) (n : Nat) :
    keepsMemoryOutside r s (finish n u) ↔ keepsMemoryOutside r s u := Iff.rfl
@[simp] theorem rangeFree_finish (r : Range) (k : Nat) (u : State) (n : Nat) :
    rangeFree r k (finish n u) ↔ rangeFree r k u := Iff.rfl
@[simp] theorem keepsOperands_finish (u : State) (n : Nat) : keepsOperands s (finish n u) ↔ keepsOperands s u := Iff.rfl
@[simp] theorem keepsSurroundings_finish (u : State) (n : Nat) :
    keepsSurroundings s (finish n u) ↔ keepsSurroundings s u := Iff.rfl
@[simp] theorem keepsMemoryOutside_endWithError (r : Range) (u : State) (c : ErrCause) (pos : Nat) :
    keepsMemoryOutside r s (endWithError c pos u) ↔ keepsMemoryOutside r s u := Iff.rfl
@[simp] theorem rangeFree_endWithError (r : Range) (k : Nat) (u : State) (c : ErrCause) (pos : Nat) :
    rangeFree r k (endWithError c pos u) ↔ rangeFree r k u := Iff.rfl
@[simp] theorem keepsOperands_endWithError (u : State) (c : ErrCause) (pos : Nat) : keepsOperands s (endWithError c pos u) ↔ keepsOperands s u := Iff.rfl
@[simp] theorem keepsSurroundings_endWithError (u : State) (c : ErrCause) (pos : Nat) :
    keepsSurroundings s (endWithError c pos u) ↔ keepsSurroundings s u := Iff.rfl
@[simp] theorem keepsMemoryOutside_raiseContractFault (r : Range) (u : State) (c : FaultCause) :
    keepsMemoryOutside r s (raiseContractFault c u) ↔ keepsMemoryOutside r s u := Iff.rfl
@[simp] theorem rangeFree_raiseContractFault (r : Range) (k : Nat) (u : State) (c : FaultCause) :
    rangeFree r k (raiseContractFault c u) ↔ rangeFree r k u := Iff.rfl
@[simp] theorem keepsOperands_raiseContractFault (u : State) (c : FaultCause) : keepsOperands s (raiseContractFault c u) ↔ keepsOperands s u := Iff.rfl
@[simp] theorem keepsSurroundings_raiseContractFault (u : State) (c : FaultCause) :
    keepsSurroundings s (raiseContractFault c u) ↔ keepsSurroundings s u := Iff.rfl
@[simp] theorem keepsMemoryOutside_setDraws (r : Range) (u : State) (n : Nat) :
    keepsMemoryOutside r s (u.setDraws n) ↔ keepsMemoryOutside r s u := Iff.rfl
@[simp] theorem rangeFree_setDraws (r : Range) (k : Nat) (u : State) (n : Nat) :
    rangeFree r k (u.setDraws n) ↔ rangeFree r k u := Iff.rfl
@[simp] theorem keepsOperands_setDraws (u : State) (n : Nat) : keepsOperands s (u.setDraws n) ↔ keepsOperands s u := Iff.rfl
@[simp] theorem keepsSurroundings_setDraws (u : State) (n : Nat) :
    keepsSurroundings s (u.setDraws n) ↔ keepsSurroundings s u := Iff.rfl
@[simp] theorem keepsOperands_scrambleNeed (u : State) (i : Instr) : keepsOperands s (scrambleNeed i u) ↔ keepsOperands s u := Iff.rfl
@[simp] theorem keepsSurroundings_scrambleNeed (u : State) (i : Instr) :
    keepsSurroundings s (scrambleNeed i u) ↔ keepsSurroundings s u := Iff.rfl
@[simp] theorem keepsOperands_scramble (u : State) (r : Range) : keepsOperands s (scramble r u) ↔ keepsOperands s u := Iff.rfl
@[simp] theorem keepsSurroundings_scramble (u : State) (r : Range) :
    keepsSurroundings s (scramble r u) ↔ keepsSurroundings s u := Iff.rfl
@[simp] theorem keepsOperands_redrawDisturbed (u : State) : keepsOperands s (redrawDisturbed u) ↔ keepsOperands s u := Iff.rfl
@[simp] theorem keepsSurroundings_redrawDisturbed (u : State) :
    keepsSurroundings s (redrawDisturbed u) ↔ keepsSurroundings s u := Iff.rfl
@[simp] theorem keepsOperands_setMem (u : State) (m : Memory) : keepsOperands s (u.setMem m) ↔ keepsOperands s u := Iff.rfl
@[simp] theorem keepsSurroundings_setMem (u : State) (m : Memory) :
    keepsSurroundings s (u.setMem m) ↔ keepsSurroundings s u := Iff.rfl

theorem keepsOperands_refl (s : State) : keepsOperands s s := ⟨rfl, rfl, rfl, rfl, rfl⟩
theorem keepsSurroundings_refl (s : State) : keepsSurroundings s s := ⟨rfl, rfl, rfl, rfl⟩

/-- RESULT after `Finish` of a number of 64 bits (60_exceptions.md R203). -/
theorem resultN_finish {r : Nat} (h : r < 2 ^ 64) (s : State) : (finish r s).resultN = r := resultN_of_parts h rfl rfl

/-- ENCODE of an input that stood still (41_encoder.md R135). -/
theorem execEncode_exact (hc : contractHolds .encode s) (hd : s.srcDisturbed = false) :
    exec .encode s = .next (finish (encodeLen s.lenN) (redrawDisturbed
      (s.setMem (encodeLoop s.params s.srcN s.lenN s.dstN (encodeGroups s.lenN) 0 s.mem)))) := by
  rcases execEncode_cases s with ⟨h, _⟩ | ⟨c, h, _⟩ | ⟨_, _, he⟩
  · rw [hd] at h; cases h
  · rw [hc] at h; cases h
  · exact he

/-- ENCODE of an input the host wrote (20_memory.md R73). -/
theorem execEncode_disturbed (hd : s.srcDisturbed = true) : exec .encode s = .next (encodeDisturbed s) := by
  rcases execEncode_cases s with ⟨_, he⟩ | ⟨_, _, h, _⟩ | ⟨_, h, _⟩
  · exact he
  · rw [hd] at h; cases h
  · rw [hd] at h; cases h

/-- DECODE of an input the host wrote (20_memory.md R73). -/
theorem execDecode_disturbed (hd : s.srcDisturbed = true) : exec .decode s = .next (decodeDisturbed s) := by
  rcases execDecode_cases s with ⟨_, he⟩ | ⟨_, _, h, _⟩ | ⟨_, _, h, _⟩ | ⟨_, _, h, _⟩
  · exact he
  · rw [hd] at h; cases h
  · rw [hd] at h; cases h
  · rw [hd] at h; cases h

/-- A contract that fails ends ENCODE in its fault, if the host did not write its input (60_exceptions.md R206, R207). -/
theorem execEncode_fault {c : FaultCause} (hc : contractOf .encode s = some c) (hd : s.srcDisturbed = false) :
    exec .encode s = .next (raiseContractFault c (redrawDisturbed s)) := by
  rcases execEncode_cases s with ⟨h, _⟩ | ⟨c', h, _, he⟩ | ⟨h, _⟩
  · rw [hd] at h; cases h
  · rw [hc] at h; cases h; exact he
  · rw [contractHolds, hc] at h; cases h

/-- A contract that fails ends DECODE in its fault, if the host did not write its input (60_exceptions.md R206, R207). -/
theorem execDecode_fault {c : FaultCause} (hc : contractOf .decode s = some c) (hd : s.srcDisturbed = false) :
    exec .decode s = .next (raiseContractFault c (redrawDisturbed s)) := by
  rcases execDecode_cases s with ⟨h, _⟩ | ⟨c', h, _, he⟩ | ⟨h, _⟩ | ⟨h, _⟩
  · rw [hd] at h; cases h
  · rw [hc] at h; cases h; exact he
  · rw [contractHolds, hc] at h; cases h
  · rw [contractHolds, hc] at h; cases h

/-- A length that is no multiple of 4 ends DECODE in LENGTH, if the host did not write its input (42_decoder.md R161). -/
theorem execDecode_length (hc : contractHolds .decode s) (hn : s.lenN % 4 ≠ 0) (hd : s.srcDisturbed = false) :
    exec .decode s = .next (endWithError .length 0 (redrawDisturbed s)) := by
  rcases execDecode_cases s with ⟨h, _⟩ | ⟨c, h, _⟩ | ⟨_, _, _, he⟩ | ⟨_, h, _⟩
  · rw [hd] at h; cases h
  · rw [hc] at h; cases h
  · exact he
  · exact absurd h hn

/-- DECODE of an input that stood still (42_decoder.md R169). -/
theorem execDecode_exact (hc : contractHolds .decode s) (hn : s.lenN % 4 = 0) (hd : s.srcDisturbed = false) :
    exec .decode s = .next (decodeGroupsExact s) := by
  rcases execDecode_cases s with ⟨h, _⟩ | ⟨c, h, _⟩ | ⟨_, h, _⟩ | ⟨_, _, _, he⟩
  · rw [hd] at h; cases h
  · rw [hc] at h; cases h
  · exact absurd hn h
  · exact he

/-- The input of DECODE and the bytes it writes share no address, or there is no input. -/
theorem decode_buffers_disjoint (hc : contractHolds .decode s) (hn : s.lenN % 4 = 0) :
    s.srcN + s.lenN ≤ s.dstN ∨ s.dstN + 3 * decodeGroups s.lenN ≤ s.srcN ∨ s.lenN = 0 := by
  have := contractHolds_decode hc
  unfold decodeLen at this; unfold decodeGroups; omega

/-- An error of the group function is one of DECODE's own, at a position of the group (42_decoder.md R164, R167). -/
theorem decodedGroup_err {p : Params} {m : Memory} {src groups g : Nat} {cause : ErrCause} {pos : Nat}
    (h : decodedGroup p m src groups g = .err cause pos) :
    pos < 4 ∧ (cause = .badChar ∨ cause = .badPad ∨ cause = .nonCanon) := by
  unfold decodedGroup at h
  rcases decGroup_cases p (m.read (src + 4 * g)) (m.read (src + 4 * g + 1)) (m.read (src + 4 * g + 2))
    (m.read (src + 4 * g + 3)) (decide (g = groups - 1)) with ⟨r, cnt, _, e⟩ | ⟨c, q, e, hp, hc⟩
  · rw [h] at e; cases e
  · rw [h] at e; cases e; exact ⟨hp, hc⟩

/-- Every group of the first `count` is accepted, or there is a first one at an error (42_decoder.md R165). -/
theorem accepted_or_first_error (p : Params) (m : Memory) (src groups : Nat) : ∀ count : Nat,
    (∀ g, g < count → ∃ o0 o1 o2 cnt, decodedGroup p m src groups g = .ok o0 o1 o2 cnt) ∨
    (∃ g cause pos, g < count ∧
      (∀ g', g' < g → ∃ o0 o1 o2 cnt, decodedGroup p m src groups g' = .ok o0 o1 o2 cnt) ∧
      decodedGroup p m src groups g = .err cause pos)
  | 0 => .inl fun g h => absurd h (Nat.not_lt_zero g)
  | count + 1 => by
    rcases accepted_or_first_error p m src groups count with h | ⟨g, c, q, hg, h1, h2⟩
    · cases e : decodedGroup p m src groups count with
      | ok o0 o1 o2 cnt =>
        refine .inl fun g hg => ?_
        by_cases hl : g = count
        · subst hl; exact ⟨_, _, _, _, e⟩
        · exact h g (by omega)
      | err c q => exact .inr ⟨count, c, q, by omega, h, e⟩
    · exact .inr ⟨g, c, q, by omega, h1, h2⟩

/-- The final group's count against the pads at the end of the input (42_decoder.md R164). -/
theorem finalGroup_pads (hp : s.params.wellFormed = true) (h0 : 0 < s.lenN) (hn : s.lenN % 4 = 0) {o0 o1 o2 : Byte}
    {cnt : Nat} (h : decodedGroup s.params s.mem s.srcN (s.lenN / 4) (s.lenN / 4 - 1) = .ok o0 o1 o2 cnt) :
    cnt + (if s.mem.read (s.srcN + s.lenN - 1) = Config.padChar then 1 else 0) +
        (if s.mem.read (s.srcN + s.lenN - 2) = Config.padChar then 1 else 0) = 3 ∧
      (cnt = 3 ↔ s.mem.read (s.srcN + s.lenN - 1) ≠ Config.padChar) := by
  obtain ⟨r, ha, _⟩ := accepts_of_decGroup_ok h
  rw [show s.srcN + 4 * (s.lenN / 4 - 1) + 3 = s.srcN + s.lenN - 1 by omega,
    show s.srcN + 4 * (s.lenN / 4 - 1) + 2 = s.srcN + s.lenN - 2 by omega] at ha
  have nd : ∀ {c v}, reverse s.params c = .data v → c ≠ Config.padChar := fun h e => by
    have := alphabet_of_reverse h
    rw [e] at this
    exact alphabet_ne_pad hp _ this
  cases ha with
  | full h0 h1 h2 h3 => simp [nd h2, nd h3]
  | onePad h0 h1 h2 h3 => simp [nd h2, eq_pad_of_reverse h3]
  | twoPads h0 h1 h2 h3 => simp [eq_pad_of_reverse h2, eq_pad_of_reverse h3]

/-- Every command answers a next state with BUSY 0 (60_exceptions.md R202, R220). -/
theorem exec_ends (i : Instr) (s : State) : ∃ t, exec i s = .next t ∧ t.status.busy = false := by
  cases i with
  | encodeLen => exact ⟨_, rfl, rfl⟩
  | decodeLen => exact ⟨_, rfl, rfl⟩
  | encode =>
    rcases execEncode_cases s with ⟨_, e⟩ | ⟨c, _, _, e⟩ | ⟨_, _, e⟩
    · rcases encodeDisturbed_cases s with ⟨_, h⟩ | ⟨c, k, _, h | ⟨_, h⟩⟩ <;> rw [h] at e <;> exact ⟨_, e, rfl⟩
    · exact ⟨_, e, rfl⟩
    · exact ⟨_, e, rfl⟩
  | decode =>
    rcases execDecode_cases s with ⟨_, e⟩ | ⟨c, _, _, e⟩ | ⟨_, _, _, e⟩ | ⟨_, _, _, e⟩
    · obtain ⟨k, ⟨c, _, h⟩ | ⟨_, _, h⟩ | ⟨r, _, h⟩ | ⟨c, pos, _, _, h⟩⟩ := decodeDisturbed_cases s <;> rw [h] at e <;>
        exact ⟨_, e, rfl⟩
    · exact ⟨_, e, rfl⟩
    · exact ⟨_, e, rfl⟩
    · rcases decodeGroupsExact_ends s with ⟨c, pos, _, h⟩ | ⟨r, m, h⟩ <;> rw [h] at e <;> exact ⟨_, e, rfl⟩

/-- A byte of a command's input buffer is in no need range, once the contract holds (20_memory.md R64). -/
theorem input_outside_need {i : Instr} {a : Nat} (hc : contractHolds i s) (ha : (inputRangeOf i s).has a = true) :
    (needRangeOf i s).has a = false := by
  cases i with
  | encode =>
    have := contractHolds_encode hc
    have e : inputRangeOf .encode s = ⟨s.srcN, s.lenN⟩ := rfl
    rw [e, Range.has_iff] at ha
    rw [Range.has_false_iff, needRangeOf_encode]
    simp only at ha ⊢
    rw [encodeLen_eq]; omega
  | decode =>
    have := contractHolds_decode hc
    have e : inputRangeOf .decode s = ⟨s.srcN, s.lenN⟩ := rfl
    rw [e, Range.has_iff] at ha
    rw [Range.has_false_iff, needRangeOf_decode]
    simp only at ha ⊢
    unfold decodeLen at *; omega
  | encodeLen => exact Range.none_has a
  | decodeLen => exact Range.none_has a

/-- Every byte of a range that is filled is free, each of its own draw (00_scope.md R10). -/
theorem read_fill_inside {m : Memory} (hm : m.wf = true) (r : Range) (d : Nat) {i : Nat} (hi : i < r.size) :
    (Memory.fill m r.base d r.size).read (r.base + i) = Config.freeByte (d + i) := by
  rw [Memory.read_fill hm, if_pos ⟨by omega, by omega⟩, Nat.add_sub_cancel_left]

/-- Every byte outside a range that is filled stays. -/
theorem read_fill_outside {m : Memory} (hm : m.wf = true) (r : Range) (d : Nat) {a : Nat} (ha : r.has a = false) :
    (Memory.fill m r.base d r.size).read a = m.read a := by
  rw [Memory.read_fill hm, if_neg]
  rw [Range.has_false_iff] at ha; omega

/-- A scrambled need range is free where it exists, and nothing outside it changes (20_memory.md R73). -/
theorem scrambleNeed_effect (i : Instr) (hm : s.mem.wf = true) :
    rangeFree ((needRangeOf i s).within s.params.memSize) s.draws (scrambleNeed i s) ∧
      keepsMemoryOutside (needRangeOf i s) s (scrambleNeed i s) :=
  ⟨fun _ hj => read_fill_inside hm _ _ hj, fun _ ha => read_fill_outside hm _ _ (Range.within_has_false _ ha)⟩

/-- The need-range bytes the host wrote are free after the redraw, each of its own draw, and no other byte changes
(20_memory.md R73). -/
theorem redrawDisturbed_effect (hm : s.mem.wf = true) :
    (s.outDisturbed.Nodup → ∀ k (h : k < s.outDisturbed.length),
      (redrawDisturbed s).mem.read s.outDisturbed[k] = Config.freeByte (s.draws + k)) ∧
    ∀ a, a ∉ s.outDisturbed → (redrawDisturbed s).mem.read a = s.mem.read a :=
  ⟨fun hn k h => Memory.read_fillAt_mem hm hn k h, fun _ ha => Memory.read_fillAt_other hm ha⟩

/-- The redraw stays inside the need range (20_memory.md R64, R73). -/
theorem redrawDisturbed_outside {i : Instr} (hm : s.mem.wf = true) (hd : disturbedInside i s) :
    keepsMemoryOutside (needRangeOf i s) s (redrawDisturbed s) := fun a ha =>
  (redrawDisturbed_effect hm).2 a fun hx => by rw [hd a hx] at ha; cases ha

/-- An abort keeps everything outside the CORE's registers and memory (70_reset_and_hazards.md R242). -/
theorem abortRunning_surroundings (s : State) : keepsSurroundings s (abortRunning s) := by
  unfold abortRunning
  split
  · split
    · split <;> exact ⟨rfl, rfl, rfl, rfl⟩
    · exact ⟨rfl, rfl, rfl, rfl⟩
  · exact ⟨rfl, rfl, rfl, rfl⟩

end Sys2Proof.Machine
end

