-- ==== Sys2Proof/Laws/PerInstr.lean ====
section
/-! SUPPORT. What holds of every command's word, one lemma per command: its reserved bits are 0, its operation code is
1, 2, 3 or 4, and the disassembler prints the command's name (30_encoding.md R90, R91, R96). -/

namespace Sys2Proof.Laws.CommandWord

/-- The word of a command, field by field. -/
def Statement (i : Instr) : Prop :=
  rsvdField (Sys2Proof.encode i) = 0#28 ∧ opcField (Sys2Proof.encode i) = opcOf i ∧
  1 ≤ (opcOf i).toNat ∧ (opcOf i).toNat ≤ 4 ∧ disassemble (Sys2Proof.encode i) = mnemonic i

theorem encode : Statement .encode := by unfold Statement; decide
theorem decode : Statement .decode := by unfold Statement; decide
theorem encodeLen : Statement .encodeLen := by unfold Statement; decide
theorem decodeLen : Statement .decodeLen := by unfold Statement; decide

end Sys2Proof.Laws.CommandWord
end

