-- ==== Sys2Proof/Tests/Slice0.lean ====
section
/-! SUPPORT. The model's own tests, their expected results from the spec (30_encoding.md R91 for words, 95_test_vectors.md
for runs), and for each obligation with hypotheses a concrete state that meets them. -/

namespace Sys2Proof.Tests

open Sys2Proof.Machine

/-! ## The states the tests start from -/

/-- The parameters of 95_test_vectors.md, `MEM_SIZE = 256`, with a register block that is not at 0. -/
def small : Params := { Params.hardware with lastAddr := 0xFF#32, base := 0x1000 }

/-- `small` with `STRICT_UNUSED_BITS = false`. -/
def lenient : Params := { small with strictUnusedBits := false }

/-- The ASCII bytes of a text. -/
def ascii (t : String) : List Byte := t.toList.map (fun c => BitVec.ofNat 8 c.toNat)

/-- A memory that holds a text at an address, and 0 elsewhere. -/
def holding (a : Nat) (t : String) : Memory := Memory.writeBytes [] a (ascii t)

/-- An idle CORE with these operands. -/
def idle (p : Params) (m : Memory) (src n dst cap : Word) : State :=
  { State.resetOn p m with src := src, len := n, dst := dst, dstCap := cap }

/-- The same with the command word `w` accepted. -/
def running (w : Word) (p : Params) (m : Memory) (src n dst cap : Word) : State := acceptCommand w (idle p m src n dst cap)

/-- The host is at the first line of a program. -/
def hosting (l : List Line) (s : State) : State := s.setHost { HostAgent.empty with program := l }

/-- The host is at line `i` of a program. -/
def hostingAt (i : Nat) (l : List Line) (s : State) : State :=
  s.setHost { HostAgent.empty with program := l, pc := i }

/-- A property of the state a step answers; false of a fault and of a refusal. -/
def nextIs (o : Host.Outcome State Fault Refusal) (f : State → Bool) : Bool :=
  match o with
  | .next t => f t
  | .fault _ => false
  | .refused _ => false

/-- STATUS, ERR_POS and RESULT. -/
def shows (status errPos result : Nat) (t : State) : Bool :=
  decide (t.status.toWord.toNat = status) && decide (t.errPos.toNat = errPos) && decide (t.resultN = result)

/-- Memory holds these bytes at an address. -/
def holds (a : Nat) (bs : List Byte) (t : State) : Bool :=
  decide ((List.range bs.length).map (fun i => t.mem.read (a + i)) = bs)

/-! ## Well-formedness: what it refuses -/

theorem test_wf_hardware : Params.hardware.wellFormed = true := by decide
theorem test_wf_alphas_equal : ({ small with alpha62 := 0x2F#8 } : Params).wellFormed = false := by decide
theorem test_wf_alpha62_upper : ({ small with alpha62 := 0x41#8 } : Params).wellFormed = false := by decide
theorem test_wf_alpha63_lower : ({ small with alpha63 := 0x7A#8 } : Params).wellFormed = false := by decide
theorem test_wf_alpha63_digit : ({ small with alpha63 := 0x30#8 } : Params).wellFormed = false := by decide
theorem test_wf_alpha62_pad : ({ small with alpha62 := 0x3D#8 } : Params).wellFormed = false := by decide
theorem test_wf_alpha63_pad : ({ small with alpha63 := 0x3D#8 } : Params).wellFormed = false := by decide
theorem test_wf_line_size : (Line.rd 0x100C 16 0).wellFormed small = false := by decide
theorem test_wf_line_offset : (Line.wr 0x100E 32 (.imm 0#32)).wellFormed small = false := by decide
theorem test_wf_line_below : (Line.rd 0x0FFC 32 0).wellFormed small = false := by decide
theorem test_wf_line_above : (Line.wr 0x1100 32 (.imm 0#32)).wellFormed small = false := by decide
theorem test_wf_line_last : (Line.wr 0x10FC 32 (.imm 0#32)).wellFormed small = true := by decide
theorem test_wf_memory_order : Memory.wf [(1, 0x41#8), (0, 0x42#8)] = false := by decide
theorem test_wf_memory_zero : Memory.wf [(1, 0x00#8)] = false := by decide

/-! ## Decoding: each command's word, bit by bit from 30_encoding.md R90 and R91 -/

theorem test_decode_encode : decode 0b00000000000000000000000000000001#32 = some .encode := by decide
theorem test_decode_decode : decode 0b00000000000000000000000000000010#32 = some .decode := by decide
theorem test_decode_encodeLen : decode 0b00000000000000000000000000000011#32 = some .encodeLen := by decide
theorem test_decode_decodeLen : decode 0b00000000000000000000000000000100#32 = some .decodeLen := by decide
theorem test_decode_reserved_bit : decode 0b00000000000000000000000000010001#32 = none := by decide
theorem test_decode_opc_zero : decode 0b00000000000000000000000000000000#32 = none := by decide
theorem test_table_words : decodeTableWord 32 1 = some .encode ∧ decodeTableWord 32 2 = some .decode ∧
    decodeTableWord 32 3 = some .encodeLen ∧ decodeTableWord 32 4 = some .decodeLen ∧ decodeTableWord 32 5 = none ∧
    decodeTableWord 32 0x80000003 = none := by decide
/-- The very next step runs the placed word: from reset ENCODE of nothing ends in DONE, and the word 5 in ILLEGAL_CMD. -/
theorem test_withFetchWord : nextIs (step (State.reset.withFetchWord 32 1)) (shows 0x2 0 0) = true ∧
    nextIs (step (State.reset.withFetchWord 32 5)) (shows 0x14 0 0) = true := by decide
/-- LengthLaws, from the table of 95_test_vectors.md 2.1. -/
theorem test_lengths : encodeLen 1 = 4 ∧ encodeLen 6 = 8 ∧ decodeLen 8 = 6 ∧ decodeLen (encodeLen 1) = 3 := by decide
/-- 30_encoding.md R96. -/
theorem test_disassemble : disassemble 0x00000003#32 = "ENCODE_LEN" ∧ disassemble 0x80000003#32 = ".word 0x80000003" := by
  decide

/-! ## One step of each command (95_test_vectors.md 2.1 to 2.4) -/

theorem test_encode_two_groups : nextIs (step (running 1#32 small (holding 0 "foob") 0#32 4#32 0x80#32 8#32))
    (fun t => shows 0x2 0 8 t && holds 0x80 (ascii "Zm9vYg==") t) = true := by decide
theorem test_encode_capacity : nextIs (step (running 1#32 small (holding 0 "foob") 0#32 4#32 0x10#32 7#32))
    (fun t => shows 0x408 0 0 t && decide (t.mem = holding 0 "foob")) = true := by decide
theorem test_decode_prefix : nextIs
    (step (running 2#32 small (Memory.write (holding 0 "Zm8=") 0x12 0xAA#8) 0#32 4#32 0x10#32 3#32))
    (fun t => shows 0x2 0 2 t && holds 0x10 [0x66#8, 0x6F#8, 0xAA#8] t) = true := by decide
theorem test_decode_noncanonical : nextIs (step (running 2#32 small (holding 0 "Zm9vYh==") 0#32 8#32 0x80#32 6#32))
    (shows 0x54 5 0) = true := by decide
theorem test_encodeLen_wide : nextIs (step (running 3#32 small [] 0#32 0xBFFFFFFE#32 0#32 0#32))
    (shows 0x2 0 0x100000000) = true := by decide
theorem test_encodeLen_five : nextIs (step (running 3#32 small [] 0#32 5#32 0#32 0#32)) (shows 0x2 0 8) = true := by decide
theorem test_decodeLen_top : nextIs (step (running 4#32 small [] 0#32 0xFFFFFFFF#32 0#32 0#32))
    (shows 0x2 0 0xBFFFFFFD) = true := by decide
theorem test_decodeLen_uneven : nextIs (step (running 4#32 small [] 0#32 7#32 0#32 0#32)) (shows 0x2 0 3) = true := by decide

/-! ## The register port (95_test_vectors.md 2.4) -/

theorem test_srst_while_busy : nextIs
    (step ((hosting [.SRST small] (running 1#32 small [] 0#32 3#32 0x10#32 4#32)).setSchedule [.host]))
    (fun t => decide (t.status.toWord = 0#32) && decide (t.len = 0#32)) = true := by decide
theorem test_cmd_while_fault : nextIs
    (step (hosting [.WR small .cmd (.imm 3#32)]
      (raiseContractFault .overlap (running 2#32 small [] 0#32 4#32 0#32 3#32))))
    (fun t => decide (t.status.toWord = 0x308#32) && decide (t.cmd = 2#32)) = true := by decide

/-! ## Host lines with variables (95_test_vectors.md section 3, P2 and P3; 30_encoding.md R96) -/

/-- A host at the first line of a program, with variable 0 holding a word and variable 1 the bytes an `MR` read. -/
def hostingWith (l : List Line) (w : Word) (bs : List Byte) (s : State) : State :=
  s.setHost { HostAgent.empty with program := l, vars := [(0, .word w), (1, .bytes bs)] }

/-- P2: `WR DST_CAP, c` takes its value from an `RD`. -/
theorem test_wr_variable : nextIs (step (hostingWith [.WR small .dstCap (.var 0)] 8#32 [] (idle small [] 0#32 0#32 0#32 0#32)))
    (fun t => decide (t.dstCap = 8#32) && decide (t.host.pc = 1)) = true := by decide
/-- P3: `if s != 0x24 goto done` with `s = 0x24`. -/
theorem test_branch_not_taken : nextIs (step (hostingWith [.ifGoto (.not (.eq (.var 0) (.imm 0x24#32))) 7, .label 7] 0x24#32 []
    State.reset)) (fun t => decide (t.host.pc = 1)) = true := by decide
/-- The bytes an `MR` read feed an `MW`, and a word an `RD` read sizes an `MR`. -/
theorem test_mw_variable : nextIs (step (hostingWith [.mw (.var 0) (.var 1)] 0x20#32 [0x41#8] State.reset))
    (fun t => holds 0x20 [0x41#8] t && decide (t.host.pc = 1)) = true := by decide
theorem test_mr_variable : nextIs (step (hostingWith [.mr (.imm 0#32) (.var 0) 2] 1#32 [] (idle small (holding 0 "f") 0#32 0#32 0#32
    0#32))) (fun t => decide (getVar t.host.vars 2 = some (.bytes [0x66#8]))) = true := by decide
/-- A branch on the byte an `MR` read. -/
theorem test_branch_on_byte : nextIs (step (hostingWith [.ifGoto (.eq (.var 1) (.imm 0x3D#32)) 7, .label 8, .label 7] 0#32 [0x3D#8]
    State.reset)) (fun t => decide (t.host.pc = 2)) = true := by decide

/-! ## States that meet the hypotheses of the obligations -/

theorem test_witness_wellFormed_command : Instr.encode.wellFormed = true ∧ Instr.decode.wellFormed = true ∧
    Instr.encodeLen.wellFormed = true ∧ Instr.decodeLen.wellFormed = true ∧ decode 4#32 = some .decodeLen := by decide
/-- IllegalCommandEndsInError: each kind of illegal word, OPC at both ends of its range. -/
theorem test_witness_illegal_command :
    (let word := fun w : Word => (running w small [] 0#32 0#32 0#32 0#32).cmd
     (word 0x11#32).extractLsb' 4 28 ≠ 0#28 ∧ (word 0x80000003#32).extractLsb' 4 28 ≠ 0#28 ∧
     (word 0#32).extractLsb' 0 4 = 0#4 ∧ 5 ≤ ((word 5#32).extractLsb' 0 4).toNat ∧
     5 ≤ ((word 0xF#32).extractLsb' 0 4).toNat) := by decide
/-- AlphabetTable and ReverseTableInvertsAlphabet, for this hardware's alphabet and for another that R38 allows. -/
theorem test_witness_alphabets : small.wellFormed = true ∧
    ({ small with alpha62 := 0x2D#8, alpha63 := 0x5F#8 } : Params).wellFormed = true := by decide
/-- DecodeGroupFunction: a character of each class, and sextets with unused bits that are not 0. -/
theorem test_witness_classes : reverse small 0x41#8 = .data 0#6 ∧ reverse small 0x2F#8 = .data 63#6 ∧
    reverse small 0x68#8 = .data 33#6 ∧ (33#6).extractLsb' 0 4 ≠ 0#4 ∧ (33#6).extractLsb' 0 2 ≠ 0#2 ∧
    reverse small 0x3D#8 = .pad ∧ reverse small 0x23#8 = .invalid ∧ small.strictUnusedBits = true ∧
    lenient.strictUnusedBits = false := by decide
/-- ContractCheck: each cause, and none, at the edges of its range. -/
theorem test_witness_contract : checkContract small 0xFA 7 0 12 12 = some .srcRange ∧
    checkContract small 0xFA 6 0 12 8 = none ∧ checkContract small 0 3 0xFA 7 4 = some .dstRange ∧
    checkContract small 0 3 0x02 4 4 = some .overlap ∧ checkContract small 0 3 0x03 4 4 = none ∧
    checkContract small 0 4 0x10 7 8 = some .capacity ∧ checkContract small 0x100 0 0x100 0 0 = none := by decide
/-- ContractCheck: ENCODE and DECODE with operands that break the contract, no buffer touched. -/
theorem test_witness_contract_fault :
    (let s := running 1#32 small [] 0xFA#32 7#32 0#32 12#32
     s.undisturbed ∧ checkContract s.params s.src.toNat s.len.toNat s.dst.toNat s.dstCap.toNat (encodeLen s.len.toNat) = some .srcRange) ∧
    (let s := running 2#32 small [] 0#32 5#32 0x10#32 2#32
     s.undisturbed ∧
     checkContract s.params s.src.toNat s.len.toNat s.dst.toNat s.dstCap.toNat (decodeLen s.len.toNat) = some .capacity) := by
  unfold State.undisturbed; decide

/-- A running ENCODE of "foob", as OutcomesKeepOperands, EncodeCompletes and EncodeOutputShape speak of. -/
def encoding : State := running 1#32 small (holding 0 "foob") 0#32 4#32 0x80#32 8#32
/-- A running DECODE of "Zm9vYg==". -/
def decoding : State := running 2#32 small (holding 0 "Zm9vYg==") 0#32 8#32 0x80#32 6#32
/-- `s` with the record that the host wrote a byte of the input, or these bytes of the need range. -/
def touched (inS : Bool) (inW : List Nat) (s : State) : State := s.setDisturbance inS inW

theorem decoding_accepted (l : List Nat) : allGroupsAccepted (touched false l decoding) := by
  intro g hg
  have e : decodeGroups decoding.lenN = 2 := by decide
  change g < decodeGroups decoding.lenN at hg
  change ∃ o0 o1 o2 cnt, decodedGroup decoding.params decoding.mem decoding.srcN (decodeGroups decoding.lenN) g =
    .ok o0 o1 o2 cnt
  rw [e] at hg ⊢
  have key : ∀ j, j < 2 → decodedGroup decoding.params decoding.mem decoding.srcN 2 j =
      if j = 0 then .ok 0x66#8 0x6F#8 0x6F#8 3 else .ok 0x62#8 0x00#8 0x00#8 1 := by decide
  have h := key g hg
  split at h <;> exact ⟨_, _, _, _, h⟩

/-- EncodeCompletes and DisturbedOutputBytesAreFree, with a byte of the need range that the host wrote. -/
theorem test_witness_encode_completes : (touched false [0x80, 0x87] encoding).mem.wf = true ∧
    contractHolds .encode (touched false [0x80, 0x87] encoding) ∧
    (touched false [0x80, 0x87] encoding).srcDisturbed = false ∧
    disturbedInside .encode (touched false [0x80, 0x87] encoding) ∧
    (touched false [0x80, 0x87] encoding).outDisturbed.Nodup := by
  unfold contractHolds disturbedInside; decide
theorem test_witness_encode_shape : encoding.params.wellFormed = true ∧ encoding.mem.wf = true ∧
    contractHolds .encode encoding ∧ encoding.undisturbed := by
  unfold contractHolds State.undisturbed; decide
/-- DecodeCompletes, DecodeCountAgainstPads and DisturbedOutputBytesAreFree. -/
theorem test_witness_decode_completes : (touched false [0x85] decoding).mem.wf = true ∧
    contractHolds .decode (touched false [0x85] decoding) ∧ (touched false [0x85] decoding).lenN % 4 = 0 ∧
    (touched false [0x85] decoding).srcDisturbed = false ∧ disturbedInside .decode (touched false [0x85] decoding) ∧
    (touched false [0x85] decoding).outDisturbed.Nodup ∧ allGroupsAccepted (touched false [0x85] decoding) := by
  refine ⟨by decide, by unfold contractHolds; decide, by decide, by decide, by unfold disturbedInside; decide, by decide, ?_⟩
  exact decoding_accepted [0x85]
theorem test_witness_decode_count : decoding.params.wellFormed = true ∧ decoding.mem.wf = true ∧
    contractHolds .decode decoding ∧ decoding.lenN % 4 = 0 ∧ decoding.undisturbed ∧ allGroupsAccepted decoding ∧
    0 < decoding.lenN :=
  ⟨by decide, by decide, by unfold contractHolds; decide, by decide, ⟨rfl, rfl⟩, decoding_accepted [],
    by decide⟩
theorem test_witness_decode_length : contractHolds .decode (running 2#32 small (holding 0 "Zm9vY") 0#32 5#32 0x10#32 3#32) ∧
    (running 2#32 small (holding 0 "Zm9vY") 0#32 5#32 0x10#32 3#32).len.toNat % 4 ≠ 0 ∧
    (running 2#32 small (holding 0 "Zm9vY") 0#32 5#32 0x10#32 3#32).undisturbed := by
  unfold contractHolds State.undisturbed; decide

/-- A running DECODE of "Zm9vA===": its second group is at an error. -/
def failing : State := running 2#32 small (holding 0 "Zm9vA===") 0#32 8#32 0x80#32 6#32

theorem test_witness_decode_error : failing.mem.wf = true ∧ contractHolds .decode failing ∧ failing.lenN % 4 = 0 ∧
    failing.srcDisturbed = false ∧ 1 < failing.lenN / 4 ∧
    (∀ g', g' < 1 → ∃ o0 o1 o2 cnt, decodedGroup failing.params failing.mem failing.srcN (failing.lenN / 4) g' =
      .ok o0 o1 o2 cnt) ∧
    decodedGroup failing.params failing.mem failing.srcN (failing.lenN / 4) 1 = .err .badPad 1 := by
  refine ⟨by decide, by unfold contractHolds; decide, by decide, by decide, by decide, fun g' h => ?_, by decide⟩
  have : g' = 0 := by omega
  subst this
  exact ⟨0x66#8, 0x6F#8, 0x6F#8, 3, by decide⟩

/-- DecodeIsDeterminedByInput: the same characters at another address, decoded elsewhere. -/
theorem test_witness_decode_determined :
    (let s := decoding
     let s' := running 2#32 small (holding 0x20 "Zm9vYg==") 0x20#32 8#32 0x40#32 9#32
     s.mem.wf = true ∧ s'.mem.wf = true ∧ contractHolds .decode s ∧ contractHolds .decode s' ∧ s.undisturbed ∧
     s'.undisturbed ∧ s.status.consistent ∧ s.status.busy = true ∧ s.status = s'.status ∧ s.len = s'.len ∧
     s.params.strictUnusedBits = s'.params.strictUnusedBits ∧ s.params.alpha62 = s'.params.alpha62 ∧
     s.params.alpha63 = s'.params.alpha63 ∧ ∀ i, i < s.lenN → s.mem.read (s.srcN + i) = s'.mem.read (s'.srcN + i)) := by
  unfold contractHolds State.undisturbed Status.consistent
  decide

/-- DecodeInvertsEncode: DECODE of what ENCODE of "foob" wrote. -/
theorem test_witness_round_trip :
    ∃ t, exec .encode encoding = .next t ∧
      (let u := { t with src := 0x80#32, len := 8#32, dst := 0x20#32, dstCap := 6#32 }
       encoding.params.wellFormed = true ∧ encoding.mem.wf = true ∧ contractHolds .encode encoding ∧ encoding.undisturbed ∧
       u.params = t.params ∧ u.mem = t.mem ∧ u.src = encoding.dst ∧ u.lenN = encodeLen encoding.lenN ∧
       contractHolds .decode u ∧ u.undisturbed) :=
  ⟨_, rfl, by decide, by decide, by unfold contractHolds; decide, ⟨rfl, rfl⟩, rfl, rfl, rfl, by decide,
    by unfold contractHolds; decide, ⟨rfl, rfl⟩⟩

/-- EncodeInvertsStrictDecode: ENCODE of what DECODE of "Zm9vYg==" wrote. -/
theorem test_witness_strict_inverse :
    ∃ t, exec .decode decoding = .next t ∧
      (let u := { t with src := 0x80#32, len := 4#32, dst := 0x20#32, dstCap := 8#32 }
       decoding.params.wellFormed = true ∧ decoding.params.strictUnusedBits = true ∧ decoding.mem.wf = true ∧
       contractHolds .decode decoding ∧ decoding.undisturbed ∧ decoding.status.done = false ∧ t.status.done = true ∧
       u.params = t.params ∧ u.mem = t.mem ∧ u.src = decoding.dst ∧ u.lenN = t.resultN ∧ contractHolds .encode u ∧
       u.undisturbed) :=
  ⟨_, rfl, by decide, by decide, by decide, by unfold contractHolds; decide, ⟨rfl, rfl⟩, by decide, by decide, rfl, rfl,
    rfl, by decide, by unfold contractHolds; decide, ⟨rfl, rfl⟩⟩

/-- A running DECODE of "Zh==", without STRICT_UNUSED_BITS. -/
def decodingLenient : State := running 2#32 lenient (holding 0 "Zh==") 0#32 4#32 0x80#32 3#32

/-- EncodeInvertsLenientDecode. -/
theorem test_witness_lenient_inverse :
    ∃ t, exec .decode decodingLenient = .next t ∧
      (let u := { t with src := 0x80#32, len := 1#32, dst := 0x20#32, dstCap := 4#32 }
       decodingLenient.params.wellFormed = true ∧ decodingLenient.params.strictUnusedBits = false ∧
       decodingLenient.mem.wf = true ∧ contractHolds .decode decodingLenient ∧ decodingLenient.undisturbed ∧
       decodingLenient.status.done = false ∧ t.status.done = true ∧ u.params = t.params ∧ u.mem = t.mem ∧
       u.src = decodingLenient.dst ∧ u.lenN = t.resultN ∧ contractHolds .encode u ∧ u.undisturbed) :=
  ⟨_, rfl, by decide, by decide, by decide, by unfold contractHolds; decide, ⟨rfl, rfl⟩, by decide, by decide, rfl, rfl,
    rfl, by decide, by unfold contractHolds; decide, ⟨rfl, rfl⟩⟩

/-- CommandOutcomes, OutcomesKeepOperands and OnlyNeedRangeWritten. -/
theorem test_witness_outcomes : encoding.status.consistent ∧ encoding.status.busy = true ∧ encoding.mem.wf = true ∧
    disturbedInside .encode encoding ∧ contractHolds .encode encoding ∧ (inputRangeOf .encode encoding).has 3 = true ∧
    nextIs (exec .encode encoding) (fun _ => true) = true := by
  unfold Status.consistent disturbedInside contractHolds; decide
/-- OnlyNeedRangeWritten, its last clause: a contract fault and LENGTH with no buffer touched. -/
theorem test_witness_no_memory_touched :
    (let s := running 1#32 small [] 0#32 3#32 2#32 4#32
     s.status.busy = true ∧ s.undisturbed ∧ nextIs (exec .encode s) (fun t => t.status.fault) = true) ∧
    (let s := running 2#32 small [] 0#32 5#32 0x10#32 3#32
     s.undisturbed ∧ nextIs (exec .decode s) (fun t => decide (t.status.errCause = .length)) = true) := by
  unfold State.undisturbed; decide
/-- DisturbedOutputBytesAreFree: a contract that fails (the need range overlaps the input), and a length that is no multiple
of 4, each with need-range bytes that the host wrote. -/
theorem test_witness_disturbed_failures :
    (let s := touched false [0x02, 0x05] (running 1#32 small [] 0#32 3#32 2#32 4#32)
     s.mem.wf = true ∧ s.outDisturbed.Nodup ∧ s.srcDisturbed = false ∧ ¬ contractHolds .encode s) ∧
    (let s := touched false [0x01] (running 2#32 small [] 0#32 4#32 0#32 3#32)
     s.outDisturbed.Nodup ∧ s.srcDisturbed = false ∧ ¬ contractHolds .decode s) ∧
    (let s := touched false [0x12] (running 2#32 small [] 0#32 5#32 0x10#32 3#32)
     s.outDisturbed.Nodup ∧ s.srcDisturbed = false ∧ contractHolds .decode s ∧ s.lenN % 4 ≠ 0) := by
  unfold contractHolds; decide
/-- DisturbedInputBeforeChecks: ENCODE and DECODE whose contract fails, and a DECODE of a length that is no multiple of 4. -/
theorem test_witness_disturbed_before_checks :
    (let s := touched true [] (running 1#32 small [] 0#32 3#32 0xFD#32 4#32)
     s.mem.wf = true ∧ s.srcDisturbed = true ∧ 0 < s.lenN ∧ ¬ contractHolds .encode s) ∧
    (let s := touched true [] (running 2#32 small [] 0#32 4#32 0#32 3#32)
     s.srcDisturbed = true ∧ 0 < s.lenN ∧ ¬ contractHolds .decode s) ∧
    (let s := touched true [] (running 2#32 small [] 0#32 5#32 0x10#32 3#32)
     s.srcDisturbed = true ∧ 0 < s.lenN ∧ contractHolds .decode s ∧ s.lenN % 4 ≠ 0) := by
  unfold contractHolds; decide
theorem test_witness_disturbed_encode : (touched true [] encoding).mem.wf = true ∧
    contractHolds .encode (touched true [] encoding) ∧ (touched true [] encoding).srcDisturbed = true := by
  unfold contractHolds; decide
theorem test_witness_disturbed_decode : (touched true [] decoding).mem.wf = true ∧
    contractHolds .decode (touched true [] decoding) ∧ (touched true [] decoding).lenN % 4 = 0 ∧
    0 < (touched true [] decoding).lenN ∧ (touched true [] decoding).srcDisturbed = true := by
  unfold contractHolds; decide

/-- HostMemoryAccessIsExact: next to the need range `[0x80, 0x88)` and to the input `[0, 4)` while the command runs, and in
the need range when none runs. -/
theorem test_witness_host_memory : encoding.mem.wf = true ∧ encoding.status.busy = true ∧
    encoding.needRange.has 0x7F = false ∧ encoding.needRange.has 0x88 = false ∧ encoding.needRange.has 4 = false ∧
    encoding.inputRange.has 4 = false ∧ (idle small [] 0#32 4#32 0x80#32 8#32).status.busy = false := by decide
/-- HostAccessToRunningBuffers: the first and the last byte of each range and the bytes next to them, with a record that
rises, and a byte in both ranges of a command whose contract fails. -/
theorem test_witness_host_buffers : encoding.mem.wf = true ∧ encoding.status.busy = true ∧
    encoding.needRange.has 0x80 = true ∧ encoding.needRange.has 0x87 = true ∧ encoding.inputRange.has 0 = true ∧
    encoding.inputRange.has 3 = true ∧ encoding.needRange.has 0x7F = false ∧ encoding.needRange.has 0x88 = false ∧
    encoding.inputRange.has 4 = false ∧ (touched false [0x81, 0x86] encoding).outDisturbed.Pairwise (· < ·) ∧
    (running 1#32 small [] 0#32 3#32 2#32 4#32).needRange.has 2 = true ∧
    (running 1#32 small [] 0#32 3#32 2#32 4#32).inputRange.has 2 = true := by decide
/-- A host write to the need range alone is recorded as that, and no more (20_memory.md R73). -/
theorem test_write_need_range : (let s := hostMemWrite 0x83 1#8 (touched false [0x81, 0x86] encoding)
    s.outDisturbed = [0x81, 0x83, 0x86] ∧ s.srcDisturbed = false) := by decide
/-- HostAddressOutsideMemoryFaults: the first byte, and the second of two at the end of memory. -/
theorem test_witness_host_outside :
    (let s := fun i p => (idle small [] 0#32 0#32 0#32 0#32).setHost { HostAgent.empty with
       program := [.mw (.var 0) (.bytes [1#8, 2#8]), .mr (.imm 0x100#32) (.imm 1#32) 0], pc := i, progress := p,
       vars := [(0, .word 0xFF#32)] }
     (s 0 1).params.memSize ≤ ((HostExpr.var 0).word (s 0 1).host).toNat + (s 0 1).host.progress ∧
     (s 0 1).host.program[(s 0 1).host.pc]? = some (.mw (.var 0) (.bytes [1#8, 2#8])) ∧
     (s 0 1).host.progress < ((HostExpr.bytes [1#8, 2#8]).byteList (s 0 1).host).length ∧
     (s 1 0).params.memSize ≤ ((HostExpr.imm 0x100#32).word (s 1 0).host).toNat + (s 1 0).host.progress ∧
     (s 1 0).host.program[(s 1 0).host.pc]? = some (.mr (.imm 0x100#32) (.imm 1#32) 0) ∧
     (s 1 0).host.progress < ((HostExpr.imm 1#32).word (s 1 0).host).toNat) := by decide

/-- CmdWriteStartsCommand, OperandWrites, RegisterReads and StatusWordLayout: idle and running, with `rst` low. -/
theorem test_witness_registers : encoding.rst = false ∧ encoding.status.busy = true ∧
    (idle small [] 0#32 0#32 0#32 0#32).rst = false ∧ (idle small [] 0#32 0#32 0#32 0#32).status.busy = false ∧
    (0xFC#8).toNat ≥ 0x2C ∧ (2#32).getLsbD 0 = false ∧ (1#32).getLsbD 0 = true := by decide
/-- RegisterPort and AccessOutsideRegisterBlock: the lines of each clause, at the edges of the block. -/
theorem test_witness_port_lines :
    (let s := fun i => hostingAt i
       [.rd 0x100C 32 0, .wr 0x1014 32 (.var 3), .rd 0x100C 16 0, .wr 0x100E 32 (.imm 0#32), .rd 0x0FFF 32 0,
        .wr 0x1100 32 (.imm 0#32)] (State.resetOn small [])
     (s 0).host.program[(s 0).host.pc]? = some (.rd ((s 0).params.base + (0x0C#8).toNat) 32 0) ∧ (0x0C#8).toNat % 4 = 0 ∧
     (s 1).host.program[(s 1).host.pc]? = some (.wr ((s 1).params.base + (0x14#8).toNat) 32 (.var 3)) ∧
     (s 2).host.program[(s 2).host.pc]? = some (.rd ((s 2).params.base + (0x0C#8).toNat) 16 0) ∧ 16 ≠ 32 ∧
     (s 3).host.program[(s 3).host.pc]? = some (.wr ((s 3).params.base + (0x0E#8).toNat) 32 (.imm 0#32)) ∧
     (0x0E#8).toNat % 4 ≠ 0 ∧
     (s 4).host.program[(s 4).host.pc]? = some (.rd 0x0FFF 32 0) ∧ 0x0FFF < (s 4).params.base ∧
     (s 5).host.program[(s 5).host.pc]? = some (.wr 0x1100 32 (.imm 0#32)) ∧ (s 5).params.base + 0x100 ≤ 0x1100) := by decide
/-- HostMemoryLines: the first of two bytes, the last address of memory, and a variable address and count. -/
theorem test_witness_memory_lines :
    (let s := fun i => hostingAt i
       [.mw (.imm 0xFE#32) (.bytes [1#8, 2#8]), .mr (.var 0) (.var 1) 0] ((idle small [] 0#32 0#32 0#32 0#32))
     let u := (s 1).setHost { (s 1).host with vars := [(0, .word 0xFF#32), (1, .word 1#32)] }
     ((HostExpr.imm 0xFE#32).word (s 0).host).toNat + (s 0).host.progress < (s 0).params.memSize ∧
     (s 0).host.progress < ((HostExpr.bytes [1#8, 2#8]).byteList (s 0).host).length ∧
     (s 0).host.program[(s 0).host.pc]? = some (.mw (.imm 0xFE#32) (.bytes [1#8, 2#8])) ∧
     ((HostExpr.var 0).word u.host).toNat + u.host.progress < u.params.memSize ∧
     u.host.progress < ((HostExpr.var 1).word u.host).toNat ∧
     u.host.program[u.host.pc]? = some (.mr (.var 0) (.var 1) 0)) := by decide
/-- HostBranchLines: the first label of a program from reset, the branch of POLL with BUSY 1 and with BUSY 0, and a label that
is not there. -/
theorem test_witness_branch :
    (let s := fun w i => (State.resetOn small []).setHost
       { HostAgent.empty with program := Line.POLL small 7 0 ++ [.ifGoto (.bit (.var 0) 0) 9], pc := i, vars := [(0, .word w)] }
     (hosting (Line.POLL small 7 0) State.reset).host.program[0]? = some (.label 7) ∧
     (s 1#32 2).host.program[2]? = some (.ifGoto (.bit (.var 0) 0) 7) ∧
     (HostCond.bit (.var 0) 0).eval (s 1#32 2).host = true ∧ (HostCond.bit (.var 0) 0).eval (s 2#32 2).host = false ∧
     (s 1#32 2).host.program[0]? = some (.label 7) ∧ (∀ i, i < 0 → (s 1#32 2).host.program[i]? ≠ some (.label 7)) ∧
     (s 1#32 3).host.program[3]? = some (.ifGoto (.bit (.var 0) 0) 9)) ∧
    (∀ i : Nat, (Line.POLL small 7 0 ++ [.ifGoto (.bit (.var 0) 0) 9])[i]? ≠ some (.label 9)) := by
  refine ⟨by decide, fun i h => ?_⟩
  have := List.mem_of_getElem? h
  revert this
  decide
/-- HostVariablesAndConditions. -/
theorem test_witness_variables : getVar [(0, .word 0x24#32), (1, .bytes [0x3D#8]), (2, .bytes [1#8, 2#8])] 0 =
      some (.word 0x24#32) ∧
    getVar [(0, .word 0x24#32), (1, .bytes [0x3D#8]), (2, .bytes [1#8, 2#8])] 1 = some (.bytes [0x3D#8]) ∧
    getVar [(0, .word 0x24#32), (1, .bytes [0x3D#8]), (2, .bytes [1#8, 2#8])] 2 = some (.bytes [1#8, 2#8]) := by decide

/-- ResetClearsRegisters, AssertedRstHoldsTheCore and AbortLeavesNeedRangeFree: a contract that holds, one that does not, a length command and
an illegal word. -/
theorem test_witness_abort : encoding.mem.wf = true ∧ encoding.status.busy = true ∧ encoding.command = some .encode ∧
    contractHolds .encode encoding ∧ ¬ contractHolds .encode (running 1#32 small [] 0#32 3#32 2#32 4#32) ∧
    (running 3#32 small [] 0#32 3#32 2#32 4#32).command = some .encodeLen ∧
    (running 9#32 small [] 0#32 3#32 2#32 4#32).command = none ∧ encoding.rst = false ∧ (3#32).getLsbD 0 = true := by
  unfold contractHolds; decide
/-- AssertedRstHoldsTheCore and DeassertedRstReleasesTheCore: `rst` asserted after reset. -/
theorem test_witness_rst : (State.reset.setRst true).rst = true ∧ (State.reset.setRst true).Inv := by
  refine ⟨by decide, ⟨by decide, by decide, by decide, by unfold Status.consistent; decide, ?_, ?_, fun _ => ?_⟩⟩
  · exact ⟨(fun h => by cases h), (fun h => by cases h), (fun h => by cases h), fun _ => ⟨rfl, rfl⟩, fun h => absurd rfl h,
      fun h => absurd rfl h⟩
  · exact ⟨fun _ => ⟨rfl, rfl⟩, (fun h => by cases h), .nil, (fun a h => by cases h)⟩
  · exact ⟨rfl, rfl, rfl, rfl, rfl, rfl, rfl, rfl, rfl⟩

/-- StepRunsDecodedCommand: a scheduled turn of each agent, an empty schedule with BUSY 1 and 0 and with `rst` asserted, a
legal and an illegal word in CMD, and a word of each kind to place. -/
theorem test_witness_step : (encoding.setSchedule [.core, .host]).schedule = .core :: [.host] ∧ encoding.schedule = [] ∧
    encoding.status.busy = true ∧ encoding.rst = false ∧ decode encoding.cmd = some .encode ∧ 4 < 2 ^ 32 ∧
    decodeTableWord 32 4 = some .decodeLen ∧ decodeTableWord 32 5 = none ∧
    (encoding.setSchedule [.host]).schedule = .host :: [] ∧ (encoding.setSchedule [.rst true]).schedule = .rst true :: [] ∧
    (State.reset.setSchedule [.core]).status.busy = false ∧ State.reset.schedule = [] ∧
    (encoding.setRst true).schedule = [] ∧ (encoding.setRst true).status.busy = true ∧ (encoding.setRst true).rst = true ∧
    (running 5#32 small [] 0#32 0#32 0#32 0#32).status.busy = true ∧
    decode (running 5#32 small [] 0#32 0#32 0#32 0#32).cmd = none := by decide
/-- IdleCoreHasNoStep: a run that has ended. -/
theorem test_witness_ended : State.reset.runEnded ∧ State.reset.schedule = [] := by
  unfold State.runEnded; decide
/-- ResetMeetsInvariant: a platform of 256 bytes with something in memory. -/
theorem test_witness_platform : small.wellFormed = true ∧ (holding 0 "foob").wf = true ∧
    (holding 0 "foob").inside small.memSize = true := by decide

/-- StepKeepsInvariant, BusyEndsWithinSchedule and ResultsReadZeroWhileBusy: a running command meets the invariant, and
its step goes on. -/
theorem test_witness_invariant : encoding.Inv ∧ encoding.status.busy = true ∧
    nextIs (step encoding) (fun t => !t.status.busy) = true := by
  refine ⟨⟨by decide, by decide, by decide, by unfold Status.consistent; decide, ?_, ?_, (fun h => by cases h)⟩, by decide, by decide⟩
  · exact ⟨(fun h => by cases h), (fun h => by cases h), (fun h => by cases h), fun _ => ⟨rfl, rfl⟩, fun h => absurd rfl h,
      fun h => absurd rfl h⟩
  · exact ⟨(fun h => by cases h), (fun h => by cases h), .nil, (fun a h => by cases h)⟩

/-- A CORE whose last command, ENCODE onto its own input, ended in OVERLAP. -/
def faulted : State := raiseContractFault .overlap (running 1#32 small [] 0#32 3#32 2#32 4#32)

/-- OnlyResetClearsFault: a step that keeps the fault, and the soft reset that clears it. -/
theorem test_witness_faulted : faulted.Inv ∧ faulted.status.fault = true ∧
    nextIs (step faulted) (fun t => t.status.fault) = true ∧
    nextIs (step (hosting [.SRST small] faulted)) (fun t => !t.status.fault) = true := by
  refine ⟨⟨by decide, by decide, by decide, by unfold Status.consistent; decide, ?_, ?_, (fun h => by cases h)⟩, by decide, by decide,
    by decide⟩
  · exact ⟨(fun h => by cases h), (fun h => by cases h), fun _ => .inl (by decide), fun _ => ⟨rfl, rfl⟩, fun h => absurd rfl h,
      fun h => absurd rfl h⟩
  · exact ⟨fun _ => ⟨rfl, rfl⟩, (fun h => by cases h), .nil, (fun a h => by cases h)⟩

/-- RunningCommandKeepsOperands and TablesAreReadOnly: a host's turn while the command runs. -/
theorem test_witness_host_turn_while_busy : encoding.status.busy = true ∧
    nextIs (step ((hosting [.WR small .len (.imm 9#32)] encoding).setSchedule [.host]))
      (fun t => t.status.busy && decide (t.len = 4#32)) = true := by decide

end Sys2Proof.Tests
end

/-! ## The invariant is kept (10_state.md R27, 60_exceptions.md R202): each way a command ends, then each turn -/

namespace Sys2Proof.Machine

/-- A state that meets the invariant, with a command running and `rst` low: one from which the completion step is taken. -/
structure State.Running (s : State) : Prop where
  inv : s.Inv
  busy : s.status.busy = true
  rstLow : s.rst = false

/-- `u` is `s` up to what a completing command does before it ends: its memory, which keeps its form, the record of R73
and the draws. -/
structure SameRun (s u : State) : Prop where
  params : u.params = s.params
  status : u.status = s.status
  cmd : u.cmd = s.cmd
  rst : u.rst = s.rst
  errPos : u.errPos = s.errPos
  memCanonical : u.mem.wf = true
  memInside : u.mem.inside s.params.memSize = true

section
variable {s t u : State}

theorem sameRun_refl (h : s.Inv) : SameRun s s := ⟨rfl, rfl, rfl, rfl, rfl, h.memCanonical, h.memInside⟩

theorem sameRun_scrambleNeed (h : s.Inv) (i : Instr) (k : Nat) : SameRun s ((scrambleNeed i s).setDraws k) :=
  have hm := scrambleNeed_memory i h.memCanonical h.memInside
  ⟨rfl, rfl, rfl, rfl, rfl, hm.1, hm.2⟩

theorem sameRun_scramble {i : Instr} (h : s.Inv) (hc : contractHolds i s) : SameRun s (scramble (needRangeOf i s) s) := by
  rw [← scrambleNeed_of_contract hc]
  exact sameRun_scrambleNeed h i _

theorem sameRun_redraw {m : Memory} (h : s.Inv) (hw : m.wf = true) (hin : m.inside s.params.memSize = true) :
    SameRun s (redrawDisturbed (s.setMem m)) :=
  have hm := redrawDisturbed_memory (u := s.setMem m) h.disturbance rfl hw hin
  ⟨rfl, rfl, rfl, rfl, rfl, hm.1, hm.2⟩

theorem sameRun_redrawDisturbed (h : s.Inv) : SameRun s (redrawDisturbed s) :=
  sameRun_redraw (m := s.mem) h h.memCanonical h.memInside

theorem SameRun.inv_finish {r : Nat} (hu : SameRun s u) (hs : s.Running) (hc : s.command ≠ none) (hr : r < 2 ^ 32) :
    (finish r u).Inv :=
  Machine.inv_finish hs.inv hs.busy hs.rstLow hc hu.params hu.status hu.cmd hu.rst hu.errPos hu.memCanonical hu.memInside
    (fun h => absurd h (by omega)) (by omega)

theorem SameRun.inv_decodeError {c : ErrCause} {pos : Nat} (hu : SameRun s u) (hs : s.Running)
    (hd : s.command = some .decode) (hc : c = .badChar ∨ c = .badPad ∨ c = .nonCanon) : (endWithError c pos u).Inv :=
  inv_endWithError hs.inv hs.busy hs.rstLow hu.params hu.status hu.cmd hu.rst hu.memCanonical hu.memInside
    (by rcases hc with rfl | rfl | rfl <;> decide) (.inr ⟨by rcases hc with rfl | rfl | rfl <;> decide, hd⟩) (fun _ => hc)

theorem SameRun.inv_lengthError (hu : SameRun s u) (hs : s.Running) (hd : s.command = some .decode) :
    (endWithError .length 0 u).Inv :=
  inv_endWithError hs.inv hs.busy hs.rstLow hu.params hu.status hu.cmd hu.rst hu.memCanonical hu.memInside (by decide)
    (.inr ⟨by decide, hd⟩) (fun h => absurd rfl h)

theorem SameRun.inv_contractFault {i : Instr} {c : FaultCause} (hu : SameRun s u) (hs : s.Running)
    (hc : contractOf i s = some c) (hi : s.command = some .encode ∨ s.command = some .decode) :
    (raiseContractFault c u).Inv :=
  inv_raiseContractFault hs.inv hs.busy hs.rstLow hu.params hu.status hu.cmd hu.rst hu.memCanonical hu.memInside
    (contractOf_ne_none hc) hi

/-- The loop of ENCODE keeps memory's form once the contract holds: its writes are the need range (41_encoder.md R135). -/
theorem encodeLoop_memory (h : s.Inv) (hc : contractHolds .encode s) :
    (encodeLoop s.params s.srcN s.lenN s.dstN (encodeGroups s.lenN) 0 s.mem).wf = true ∧
      (encodeLoop s.params s.srcN s.lenN s.dstN (encodeGroups s.lenN) 0 s.mem).inside s.params.memSize = true := by
  obtain ⟨_, hdst, hneed, _⟩ := contractHolds_encode hc
  rw [encodeLen_eq] at hneed
  exact ⟨encodeLoop_wf h.memCanonical, encodeLoop_inside (by omega) h.memInside⟩

theorem decodeLen_lt_word (s : State) : decodeLen s.lenN < 2 ^ 32 := by
  have := lenN_lt s
  unfold decodeLen; omega

theorem inv_encodeDisturbed (hs : s.Running) (hcmd : s.command = some .encode) : (encodeDisturbed s).Inv := by
  have hne : s.command ≠ none := by simp [hcmd]
  rcases encodeDisturbed_cases s with ⟨hc, e⟩ | ⟨c, k, hc, e | ⟨hr, e⟩⟩ <;> rw [e]
  · obtain ⟨_, _, hneed, _⟩ := contractHolds_encode hc
    exact (sameRun_scramble hs.inv hc).inv_finish hs hne (by have := capN_lt s; omega)
  · exact (sameRun_scrambleNeed hs.inv .encode k).inv_contractFault hs hc (.inl hcmd)
  · exact (sameRun_scrambleNeed hs.inv .encode k).inv_finish hs hne hr

theorem inv_execEncode (hs : s.Running) (hcmd : s.command = some .encode) (ht : exec .encode s = .next t) : t.Inv := by
  rcases execEncode_cases s with ⟨_, e⟩ | ⟨c, hc, _, e⟩ | ⟨hc, _, e⟩ <;> obtain rfl := next_inj (e.symm.trans ht)
  · exact inv_encodeDisturbed hs hcmd
  · exact (sameRun_redrawDisturbed hs.inv).inv_contractFault hs hc (.inl hcmd)
  · obtain ⟨hw, hin⟩ := encodeLoop_memory hs.inv hc
    obtain ⟨_, _, hneed, _⟩ := contractHolds_encode hc
    exact (sameRun_redraw hs.inv hw hin).inv_finish hs (by simp [hcmd]) (by have := capN_lt s; omega)

theorem inv_decodeDisturbed (hs : s.Running) (hcmd : s.command = some .decode) : (decodeDisturbed s).Inv := by
  obtain ⟨k, hk⟩ := decodeDisturbed_cases s
  have hu := sameRun_scrambleNeed hs.inv .decode k
  rcases hk with ⟨c, hc, e⟩ | ⟨_, _, e⟩ | ⟨r, hr, e⟩ | ⟨c, pos, hc, _, e⟩ <;> rw [e]
  · exact hu.inv_contractFault hs hc (.inr hcmd)
  · exact hu.inv_lengthError hs hcmd
  · exact hu.inv_finish hs (by simp [hcmd]) (Nat.lt_of_le_of_lt hr (decodeLen_lt_word s))
  · exact hu.inv_decodeError hs hcmd hc

theorem inv_decodeGroupsExact (hs : s.Running) (hcmd : s.command = some .decode) (hc : contractHolds .decode s) :
    (decodeGroupsExact s).Inv := by
  rcases decodeGroupsExact_cases hs.inv.memCanonical with ⟨c, pos, he, _, e⟩ | ⟨total, m, hr, hw, _, hin, e⟩ <;> rw [e]
  · exact (sameRun_scramble hs.inv hc).inv_decodeError hs hcmd he
  · obtain ⟨_, hdst, hneed, _⟩ := contractHolds_decode hc
    exact (sameRun_redraw hs.inv hw (hin _ (by omega) hs.inv.memInside)).inv_finish hs (by simp [hcmd])
      (Nat.lt_of_le_of_lt hr (decodeLen_lt_word s))

theorem inv_execDecode (hs : s.Running) (hcmd : s.command = some .decode) (ht : exec .decode s = .next t) : t.Inv := by
  rcases execDecode_cases s with ⟨_, e⟩ | ⟨c, hc, _, e⟩ | ⟨_, _, _, e⟩ | ⟨hc, _, _, e⟩ <;>
    obtain rfl := next_inj (e.symm.trans ht)
  · exact inv_decodeDisturbed hs hcmd
  · exact (sameRun_redrawDisturbed hs.inv).inv_contractFault hs hc (.inr hcmd)
  · exact (sameRun_redrawDisturbed hs.inv).inv_lengthError hs hcmd
  · exact inv_decodeGroupsExact hs hcmd hc

/-- ENCODE_LEN is the one command whose result may need RESULT_HI (40_length.md R112). -/
theorem inv_execEncodeLen (hs : s.Running) (hcmd : s.command = some .encodeLen) : (finish (encodeLen s.lenN) s).Inv := by
  have hlen := lenN_lt s
  exact Machine.inv_finish hs.inv hs.busy hs.rstLow (by simp [hcmd]) rfl rfl rfl rfl rfl hs.inv.memCanonical
    hs.inv.memInside (fun _ => hcmd) (by unfold encodeLen; omega)

/-- The completion step of a command keeps the invariant (60_exceptions.md R202). -/
theorem inv_exec {i : Instr} (hs : s.Running) (hcmd : s.command = some i) (ht : exec i s = .next t) : t.Inv := by
  cases i with
  | encode => exact inv_execEncode hs hcmd ht
  | decode => exact inv_execDecode hs hcmd ht
  | encodeLen => obtain rfl := next_inj ht; exact inv_execEncodeLen hs hcmd
  | decodeLen =>
    obtain rfl := next_inj ht
    exact (sameRun_refl hs.inv).inv_finish hs (by simp [hcmd]) (decodeLen_lt_word s)

/-- The completion step of an illegal word keeps the invariant (60_exceptions.md R205). -/
theorem inv_raiseIllegalCommand (hs : s.Running) (hcmd : s.command = none) : (raiseIllegalCommand s).Inv :=
  inv_endWithError hs.inv hs.busy hs.rstLow rfl rfl rfl rfl hs.inv.memCanonical hs.inv.memInside (by decide)
    (.inl ⟨rfl, hcmd⟩) (fun h => absurd rfl h)

theorem inv_coreTurn (h : s.Inv) (ht : coreTurn s = .next t) : t.Inv := by
  rcases coreTurn_cases s with e | ⟨hb, hr, i, hcmd, e⟩ | ⟨hb, hr, hcmd, e⟩
  · obtain rfl := next_inj (e.symm.trans ht); exact h
  · exact inv_exec ⟨h, hb, hr⟩ hcmd (e.symm.trans ht)
  · obtain rfl := next_inj (e.symm.trans ht); exact inv_raiseIllegalCommand ⟨h, hb, hr⟩ hcmd

theorem inv_writeRegister (h : s.Inv) (off : Offset) (v : Word) : (writeRegister off v s).Inv := by
  rcases writeRegister_cases off v s with e | ⟨_, _, _, e⟩ | ⟨hr, _, _, hf, e⟩ | ⟨hr, hb, e⟩
  · rw [e]; exact h
  · rw [e]; exact (inv_resetCore h).1
  · rw [e]; exact inv_acceptCommand h v hf hr
  · refine inv_operand h hb hr ?_
    rcases e with e | e | e | e <;> rw [e]
    · exact .inl rfl
    · exact .inr (.inl rfl)
    · exact .inr (.inr (.inl rfl))
    · exact .inr (.inr (.inr rfl))

theorem inv_hostMemRead (h : s.Inv) (a : Nat) : (hostMemRead a s).2.Inv := by
  rcases hostMemRead_state a s with e | e <;> rw [e]
  · exact h
  · exact inv_setDraws h _

theorem inv_hostTurn (h : s.Inv) (ht : hostTurn s = .next t) : t.Inv := by
  rcases hostTurn_cases ht with rfl | ⟨h', rfl⟩ | ⟨off, e, h', _, rfl⟩ | ⟨a, v, h', ha, rfl⟩ | ⟨a, h', _, rfl⟩
  · exact h
  · exact inv_setHost h h'
  · exact inv_setHost (inv_writeRegister h off _) h'
  · exact inv_setHost (inv_hostMemWrite h v ha) h'
  · exact inv_setHost (inv_hostMemRead h a) h'

theorem inv_runTurn {turn : Turn} (h : s.Inv) (ht : runTurn turn s = .next t) : t.Inv := by
  cases turn with
  | core => exact inv_coreTurn h ht
  | host => exact inv_hostTurn h ht
  | rst b => obtain rfl := next_inj ht; exact inv_driveRst h b

end

/-- Settles O54: a step is a turn on a state with the turn taken off the schedule, and every turn keeps the invariant. -/
theorem stepKeepsInvariant : Obligations.StepKeepsInvariant := by
  intro s t h ht
  obtain ⟨turn, ts, e, _⟩ := step_turn s
  exact inv_runTurn (inv_setSchedule h ts) (e.symm.trans ht)

/-- The state after reset meets the invariant on every well-formed platform (70_reset_and_hazards.md R240, R243). -/
theorem inv_resetOn {p : Params} {m : Memory} (hp : p.wellFormed = true) (hw : m.wf = true)
    (hin : m.inside p.memSize = true) : (State.resetOn p m).Inv :=
  have hr : (State.resetOn p m).registersAtReset := ⟨rfl, rfl, rfl, rfl, rfl, rfl, rfl, rfl, rfl⟩
  ⟨hp, hw, hin, Status.idle_consistent, outcomeFits_of_registersAtReset hr, disturbanceFits_of_undisturbed ⟨rfl, rfl⟩,
    fun _ => hr⟩

/-- Settles O55: this hardware's reset state is the reset of a platform with well-formed parameters and no byte listed. -/
theorem resetMeetsInvariant : Obligations.ResetMeetsInvariant :=
  ⟨inv_resetOn (by decide) rfl rfl, fun _ _ => inv_resetOn⟩

end Sys2Proof.Machine

/-! ## The two tables (10_state.md R38, R39) -/

namespace Sys2Proof.Machine

section
variable {p : Params}

/-- The entries below 62 are no parameter (10_state.md R38). -/
theorem alphabet_fixed (p q : Params) {v : Sextet} (hv : v.toNat < 62) : alphabet p v = alphabet q v := by
  have h61 : v.toNat ≤ 61 := by omega
  simp only [alphabet, h61, if_true]

theorem isFixedDataChar_alphabet {v : Sextet} (hv : v.toNat < 62) : isFixedDataChar (alphabet p v) = true := by
  simp only [isFixedDataChar, Bool.or_eq_true, Bool.and_eq_true, decide_eq_true_eq]
  by_cases h25 : v.toNat ≤ 25
  · simp only [alphabet, h25, if_true, BitVec.toNat_ofNat]; omega
  · by_cases h51 : v.toNat ≤ 51
    · simp only [alphabet, h25, h51, if_true, if_false, BitVec.toNat_ofNat]; omega
    · have h61 : v.toNat ≤ 61 := by omega
      simp only [alphabet, h25, h51, h61, if_true, if_false, BitVec.toNat_ofNat]; omega

/-- A fixed data character is an entry below 62 of the table. -/
theorem exists_sextet_of_isFixedDataChar {c : Byte} (hc : isFixedDataChar c = true) :
    ∃ v : Sextet, v.toNat < 62 ∧ alphabet p v = c := by
  simp only [isFixedDataChar, Bool.or_eq_true, Bool.and_eq_true, decide_eq_true_eq] at hc
  rcases hc with (hu | hl) | hd
  · refine ⟨BitVec.ofNat 6 (c.toNat - 0x41), by rw [BitVec.toNat_ofNat]; omega, alphabet_of_reverse ?_⟩
    rw [reverse, if_pos hu]
  · refine ⟨BitVec.ofNat 6 (c.toNat - 0x47), by rw [BitVec.toNat_ofNat]; omega, alphabet_of_reverse ?_⟩
    rw [reverse, if_neg (by omega), if_pos hl]
  · refine ⟨BitVec.ofNat 6 (c.toNat + 4), by rw [BitVec.toNat_ofNat]; omega, alphabet_of_reverse ?_⟩
    rw [reverse, if_neg (by omega), if_neg (by omega), if_pos hd]

theorem isFixedDataChar_eq_false_iff {c : Byte} :
    isFixedDataChar c = false ↔ ∀ v : Sextet, v.toNat < 62 → alphabet p v ≠ c := by
  refine ⟨fun hc v hv he => ?_, fun h => ?_⟩
  · rw [← he, isFixedDataChar_alphabet hv] at hc; cases hc
  · by_contra hc
    obtain ⟨v, hv, he⟩ := exists_sextet_of_isFixedDataChar (p := p) (Bool.eq_true_of_not_eq_false hc)
    exact h v hv he

/-- The constraint of 10_state.md R38, in terms of the table's other entries. -/
theorem wellFormed_iff_alphabet : p.wellFormed = true ↔
    p.alpha62 ≠ p.alpha63 ∧ p.alpha62 ≠ Config.padChar ∧ p.alpha63 ≠ Config.padChar ∧
      ∀ v : Sextet, v.toNat < 62 → alphabet p v ≠ p.alpha62 ∧ alphabet p v ≠ p.alpha63 := by
  refine ⟨fun hp => ?_, fun ⟨hne, hpad62, hpad63, hv⟩ => ?_⟩
  · obtain ⟨hne, h62, h63, hpad62, hpad63⟩ := wellFormed_alphas hp
    exact ⟨hne, hpad62, hpad63, fun v hv =>
      ⟨isFixedDataChar_eq_false_iff.1 h62 v hv, isFixedDataChar_eq_false_iff.1 h63 v hv⟩⟩
  · have h62 := isFixedDataChar_eq_false_iff.2 fun v h => (hv v h).1
    have h63 := isFixedDataChar_eq_false_iff.2 fun v h => (hv v h).2
    simp [Params.wellFormed, hne, h62, h63, hpad62, hpad63]

/-- What is neither the pad nor an entry of the table is INVALID, and nothing else is (10_state.md R39). -/
theorem reverse_eq_invalid_iff (hp : p.wellFormed = true) {c : Byte} :
    reverse p c = .invalid ↔ c ≠ Config.padChar ∧ ∀ v : Sextet, alphabet p v ≠ c := by
  refine ⟨fun h => ⟨fun he => ?_, fun v he => ?_⟩, fun ⟨hpad, hv⟩ => ?_⟩
  · rw [he, reverse_pad hp] at h; cases h
  · rw [← he, reverse_alphabet hp] at h; cases h
  · cases h : reverse p c with
    | data v => exact absurd (alphabet_of_reverse h) (hv v)
    | pad => exact absurd (eq_pad_of_reverse h) hpad
    | invalid => rfl

end

/-- Settles O10: the listing is computed; the constraint of R38 says that ALPHA_62 and ALPHA_63 are no other entry. -/
theorem alphabetTable : Obligations.AlphabetTable :=
  ⟨by decide, fun p => ⟨fun _ hv => alphabet_fixed p _ hv, rfl, rfl, wellFormed_iff_alphabet,
    fun hp _ _ => alphabet_injective hp, alphabet_ne_pad⟩⟩

/-- Settles O11: `Rv` and `A` invert each other on data, and what is no data is the pad or INVALID. -/
theorem reverseTableInvertsAlphabet : Obligations.ReverseTableInvertsAlphabet := by
  intro p hp
  refine ⟨reverse_alphabet hp, fun c v => ⟨alphabet_of_reverse, ?_⟩, fun c => ⟨eq_pad_of_reverse, ?_⟩,
    fun c => reverse_eq_invalid_iff hp⟩
  · rintro rfl; exact reverse_alphabet hp v
  · rintro rfl; exact reverse_pad hp

end Sys2Proof.Machine

/-! ## The register port (10_state.md R21 to R37, R41, R42) -/

namespace Sys2Proof.Machine

section
variable {s : State}

/-! ### One register at a time -/

theorem readRegister_named (r : RegName) (hr : s.rst = false) : readRegister s r.offset = registerValue s r := by
  simp [readRegister, regAt_offset, hr]

theorem writeRegister_named (r : RegName) (v : Word) (hr : s.rst = false) :
    writeRegister r.offset v s = writeNamed r v s := by
  simp [writeRegister, regAt_offset, hr]

/-- An offset from 0x2C on is reserved (10_state.md R21). -/
theorem regAt_reserved {off : Offset} (h : 0x2C ≤ off.toNat) : regAt off = none := by
  cases hr : regAt off with
  | none => rfl
  | some r =>
    rw [regAt_eq_some hr] at h
    cases r <;> exact absurd h (by decide)

theorem readRegister_reserved {off : Offset} (s : State) (h : 0x2C ≤ off.toNat) : readRegister s off = 0#32 := by
  rw [readRegister, regAt_reserved h]

theorem writeRegister_reserved {off : Offset} (v : Word) (s : State) (h : 0x2C ≤ off.toNat) :
    writeRegister off v s = s := by
  rw [writeRegister, regAt_reserved h, ite_self]

/-- A write that the register itself ignores is ignored, whether `rst` is asserted or not. -/
theorem writeRegister_ignored {r : RegName} {v : Word} (h : writeNamed r v s = s) : writeRegister r.offset v s = s := by
  rw [writeRegister, regAt_offset]
  simp only [h, ite_self]

theorem writeCmd_eq (v : Word) (s : State) :
    writeCmd v s = if s.status.busy = true ∨ s.status.fault = true then s else acceptCommand v s := by
  simp only [writeCmd, Bool.or_eq_true]

theorem writeRegister_cmd (v : Word) (hr : s.rst = false) : writeRegister 0x08#8 v s =
    if s.status.busy = true ∨ s.status.fault = true then s else acceptCommand v s :=
  (writeRegister_named .cmd v hr).trans (writeCmd_eq v s)

theorem writeRegister_ctrl_reset {v : Word} (hr : s.rst = false) (hv : v.getLsbD 0 = true) :
    writeRegister 0x04#8 v s = resetCore s :=
  (writeRegister_named .ctrl v hr).trans (if_pos hv)

theorem registersAtReset_resetCore (s : State) : (resetCore s).registersAtReset := registersAtReset_clear (abortRunning s)

/-- While a command runs, no CMD or operand write is taken (10_state.md R25, R35). -/
theorem writeRegister_busy_ignored (v : Word) (hr : s.rst = false) (hb : s.status.busy = true) :
    writeRegister 0x08#8 v s = s ∧ writeRegister 0x10#8 v s = s ∧ writeRegister 0x14#8 v s = s ∧
      writeRegister 0x18#8 v s = s ∧ writeRegister 0x1C#8 v s = s :=
  ⟨(writeRegister_cmd v hr).trans (if_pos (.inl hb)), (writeRegister_named .src v hr).trans (if_pos hb),
    (writeRegister_named .len v hr).trans (if_pos hb), (writeRegister_named .dst v hr).trans (if_pos hb),
    (writeRegister_named .dstCap v hr).trans (if_pos hb)⟩

/-- While no command runs, an operand write is taken whole, whatever FAULT is (10_state.md R35, R36). -/
theorem writeRegister_operands (v : Word) (hr : s.rst = false) (hb : s.status.busy = false) :
    writeRegister 0x10#8 v s = s.setSrc v ∧ writeRegister 0x14#8 v s = s.setLen v ∧
      writeRegister 0x18#8 v s = s.setDst v ∧ writeRegister 0x1C#8 v s = s.setDstCap v := by
  have hn : ¬ s.status.busy = true := by simp [hb]
  exact ⟨(writeRegister_named .src v hr).trans (if_neg hn), (writeRegister_named .len v hr).trans (if_neg hn),
    (writeRegister_named .dst v hr).trans (if_neg hn), (writeRegister_named .dstCap v hr).trans (if_neg hn)⟩

end

/-- Settles O35: the write is `acceptCommand` or nothing, and a read of CMD is the register. -/
theorem cmdWriteStartsCommand : Obligations.CmdWriteStartsCommand :=
  ⟨fun _ v hr => ⟨readRegister_named .cmd hr, writeRegister_cmd v hr⟩, fun _ _ => ⟨rfl, show decode 0#32 = none by decide⟩⟩

/-- Settles O36, by the phase: while a command runs only the soft reset is taken, and otherwise every operand write is. -/
theorem operandWrites : Obligations.OperandWrites := by
  intro s v hr
  refine ⟨fun hb => ?_, writeRegister_operands v hr⟩
  obtain ⟨hcmd, hsrc, hlen, hdst, hcap⟩ := writeRegister_busy_ignored v hr hb
  refine ⟨hcmd, hsrc, hlen, hdst, hcap, fun hv => ?_⟩
  rw [writeRegister_ctrl_reset hr hv]
  exact registersAtReset_resetCore s

/-- Settles O37, by the offset. -/
theorem ignoredRegisterWrites : Obligations.IgnoredRegisterWrites := by
  intro s off v
  refine ⟨?_, fun hv => writeRegister_ignored (r := .ctrl) (if_neg (by rw [hv]; decide))⟩
  rintro (rfl | rfl | rfl | rfl | rfl | h)
  · exact writeRegister_ignored (r := .id) rfl
  · exact writeRegister_ignored (r := .status) rfl
  · exact writeRegister_ignored (r := .resultLo) rfl
  · exact writeRegister_ignored (r := .resultHi) rfl
  · exact writeRegister_ignored (r := .errPos) rfl
  · exact writeRegister_reserved v s h

/-- Settles O38: a read of a register is its value, and a reserved offset reads 0. -/
theorem registerReads : Obligations.RegisterReads := fun s hr =>
  ⟨readRegister_named .id hr, readRegister_named .ctrl hr, readRegister_named .cmd hr, readRegister_named .src hr,
    readRegister_named .len hr, readRegister_named .dst hr, readRegister_named .dstCap hr, readRegister_named .resultLo hr,
    readRegister_named .resultHi hr, readRegister_named .errPos hr, fun _ => readRegister_reserved s⟩

/-! ### The word of STATUS (10_state.md R26, R37) -/

section
variable (st : Status)

/-- The fields of the word, from bit 0 up (10_state.md R26). -/
theorem getLsbD_toWord (i : Nat) : st.toWord.getLsbD i =
    if i < 1 then (BitVec.ofBool st.busy).getLsbD i
    else if i < 2 then (BitVec.ofBool st.done).getLsbD (i - 1)
    else if i < 3 then (BitVec.ofBool st.err).getLsbD (i - 2)
    else if i < 4 then (BitVec.ofBool st.fault).getLsbD (i - 3)
    else if i < 8 then st.errCause.code.getLsbD (i - 4)
    else st.faultCause.code.getLsbD (i - 8) := by
  change BitVec.getLsbD (w := 20 + 4 + 4 + 1 + 1 + 1 + 1) (_ ++ _) i = _
  simp only [BitVec.getLsbD_append, Nat.sub_sub]
  grind

theorem toWord_flags : st.toWord.getLsbD 0 = st.busy ∧ st.toWord.getLsbD 1 = st.done ∧ st.toWord.getLsbD 2 = st.err ∧
    st.toWord.getLsbD 3 = st.fault := by
  simp only [getLsbD_toWord]
  simp

theorem toWord_errCause : st.toWord.extractLsb' 4 4 = st.errCause.code := by
  ext i hi
  rw [BitVec.getElem_extractLsb', getLsbD_toWord, if_neg (by omega), if_neg (by omega), if_neg (by omega),
    if_neg (by omega), if_pos (by omega), Nat.add_sub_cancel_left, BitVec.getLsbD_eq_getElem]

/-- Above bit 7 the word is FAULT_CAUSE, extended with zeros. -/
theorem getLsbD_toWord_high (i : Nat) : st.toWord.getLsbD (8 + i) = st.faultCause.code.getLsbD i := by
  rw [getLsbD_toWord, if_neg (by omega), if_neg (by omega), if_neg (by omega), if_neg (by omega), if_neg (by omega),
    Nat.add_sub_cancel_left]

theorem toWord_faultCause : st.toWord.extractLsb' 8 4 = st.faultCause.code := by
  ext i hi
  rw [BitVec.getElem_extractLsb', getLsbD_toWord_high, BitVec.getLsbD_eq_getElem]

theorem toWord_reserved : st.toWord.extractLsb' 12 20 = 0#20 := by
  ext i hi
  rw [BitVec.getElem_extractLsb', show 12 + i = 8 + (4 + i) by omega, getLsbD_toWord_high,
    BitVec.getLsbD_of_ge _ _ (by omega), BitVec.getElem_zero]

end

/-- Settles O39: the flags, the codes of the two causes, and the reserved bits, field by field. -/
theorem statusWordLayout : Obligations.StatusWordLayout := by
  intro s hr
  rw [show readRegister s 0x0C#8 = s.status.toWord from readRegister_named .status hr]
  obtain ⟨hbusy, hdone, herr, hfault⟩ := toWord_flags s.status
  refine ⟨hbusy, hdone, herr, hfault, ?_, ?_, toWord_reserved s.status⟩
  · rw [toWord_errCause]; cases s.status.errCause <;> rfl
  · rw [toWord_faultCause]; cases s.status.faultCause <;> rfl

/-! ### The host's register accesses (10_state.md R41, R42) -/

section
variable {s : State} {l : Line} {a size : Nat} {off : Offset}

theorem hostTurn_line (h : s.host.program[s.host.pc]? = some l) : hostTurn s = hostLine l s := by rw [hostTurn, h]

theorem hostAccess_irregular (h : size ≠ 32 ∨ off.toNat % 4 ≠ 0) (k : Offset → State) :
    hostAccess (platformAddress s.params off) size s k = .refused (.busError (platformAddress s.params off) size) := by
  have hirr : regularAccess off size = false := by
    rw [regularAccess, Bool.and_eq_false_iff, decide_eq_false_iff_not, decide_eq_false_iff_not]
    exact h
  simp [hostAccess, portOffset_platformAddress, hirr]

theorem hostAccess_outside (h : a < s.params.base ∨ s.params.base + 0x100 ≤ a) (k : Offset → State) :
    hostAccess a size s k = .refused (.notThisBlock a) := by
  rw [hostAccess, portOffset_eq_none.2 h]

end

/-- Settles O40: each line is one `hostAccess`, which goes on when it is regular and is refused when it is not. -/
theorem registerPort : Obligations.RegisterPort := by
  intro s off size x v e
  refine ⟨fun ho hl => ?_, fun ho hl => ?_, fun hirr => ⟨fun hl => ?_, fun hl => ?_⟩,
    fun h => ⟨readRegister_reserved s h, writeRegister_reserved v s h⟩⟩
  · exact (hostTurn_line hl).trans (hostAccess_regular ho _)
  · exact (hostTurn_line hl).trans (hostAccess_regular ho _)
  · exact (hostTurn_line hl).trans (hostAccess_irregular hirr _)
  · exact (hostTurn_line hl).trans (hostAccess_irregular hirr _)

/-- Settles O41: outside the register block an access names no offset. -/
theorem accessOutsideRegisterBlock : Obligations.AccessOutsideRegisterBlock := fun _ _ _ _ _ ha =>
  ⟨fun hl => (hostTurn_line hl).trans (hostAccess_outside ha _),
    fun hl => (hostTurn_line hl).trans (hostAccess_outside ha _)⟩

end Sys2Proof.Machine

/-! ## What every step leaves unchanged (10_state.md R35, R36, R40) -/

namespace Sys2Proof.Machine

section
variable {s t : State}

/-- ENCODE keeps CMD, its operands and everything outside the CORE's registers and memory (60_exceptions.md R209). -/
theorem execEncode_keeps (ht : exec .encode s = .next t) : keepsOperands s t ∧ keepsSurroundings s t := by
  rcases execEncode_cases s with ⟨_, e⟩ | ⟨c, _, _, e⟩ | ⟨_, _, e⟩ <;> obtain rfl := next_inj (e.symm.trans ht)
  · rcases encodeDisturbed_cases s with ⟨_, e⟩ | ⟨c, k, _, e | ⟨_, e⟩⟩ <;> rw [e] <;>
      simp [keepsOperands_refl, keepsSurroundings_refl]
  · simp [keepsOperands_refl, keepsSurroundings_refl]
  · simp [keepsOperands_refl, keepsSurroundings_refl]

/-- DECODE keeps CMD, its operands and everything outside the CORE's registers and memory (60_exceptions.md R209). -/
theorem execDecode_keeps (ht : exec .decode s = .next t) : keepsOperands s t ∧ keepsSurroundings s t := by
  rcases execDecode_cases s with ⟨_, e⟩ | ⟨c, _, _, e⟩ | ⟨_, _, _, e⟩ | ⟨_, _, _, e⟩ <;>
    obtain rfl := next_inj (e.symm.trans ht)
  · obtain ⟨k, ⟨c, _, e⟩ | ⟨_, _, e⟩ | ⟨r, _, e⟩ | ⟨c, pos, _, _, e⟩⟩ := decodeDisturbed_cases s <;> rw [e] <;>
      simp [keepsOperands_refl, keepsSurroundings_refl]
  · simp [keepsOperands_refl, keepsSurroundings_refl]
  · simp [keepsOperands_refl, keepsSurroundings_refl]
  · rcases decodeGroupsExact_ends s with ⟨c, pos, _, e⟩ | ⟨total, m, e⟩ <;> rw [e] <;>
      simp [keepsOperands_refl, keepsSurroundings_refl]

theorem exec_keeps {i : Instr} (ht : exec i s = .next t) : keepsOperands s t ∧ keepsSurroundings s t := by
  cases i with
  | encode => exact execEncode_keeps ht
  | decode => exact execDecode_keeps ht
  | encodeLen => obtain rfl := next_inj ht; simp [keepsOperands_refl, keepsSurroundings_refl]
  | decodeLen => obtain rfl := next_inj ht; simp [keepsOperands_refl, keepsSurroundings_refl]

theorem resetCore_params (s : State) : (resetCore s).params = s.params := (abortRunning_surroundings s).1

theorem coreTurn_params (ht : coreTurn s = .next t) : t.params = s.params := by
  rcases coreTurn_cases s with e | ⟨_, _, i, _, e⟩ | ⟨_, _, _, e⟩
  · obtain rfl := next_inj (e.symm.trans ht); rfl
  · exact (exec_keeps (e.symm.trans ht)).2.1
  · obtain rfl := next_inj (e.symm.trans ht); rfl

theorem writeRegister_params (off : Offset) (v : Word) (s : State) : (writeRegister off v s).params = s.params := by
  rcases writeRegister_cases off v s with e | ⟨_, _, _, e⟩ | ⟨_, _, _, _, e⟩ | ⟨_, _, e | e | e | e⟩ <;> rw [e]
  · exact resetCore_params s
  all_goals rfl

theorem hostMemRead_params (a : Nat) (s : State) : (hostMemRead a s).2.params = s.params := by
  rcases hostMemRead_state a s with e | e <;> rw [e]
  rfl

theorem hostTurn_params (ht : hostTurn s = .next t) : t.params = s.params := by
  rcases hostTurn_cases ht with rfl | ⟨h', rfl⟩ | ⟨off, e, h', _, rfl⟩ | ⟨a, v, h', _, rfl⟩ | ⟨a, h', _, rfl⟩
  · rfl
  · rfl
  · exact writeRegister_params off _ s
  · rfl
  · exact hostMemRead_params a s

theorem driveRst_params (b : Bool) (s : State) : (driveRst b s).params = s.params := by
  cases b with
  | true => exact resetCore_params s
  | false => rfl

theorem runTurn_params {turn : Turn} (ht : runTurn turn s = .next t) : t.params = s.params := by
  cases turn with
  | core => exact coreTurn_params ht
  | host => exact hostTurn_params ht
  | rst b => obtain rfl := next_inj ht; exact driveRst_params b s

theorem step_params (ht : step s = .next t) : t.params = s.params := by
  obtain ⟨turn, ts, e, _⟩ := step_turn s
  exact runTurn_params (s := s.setSchedule ts) (e.symm.trans ht)

end

/-- Settles O56: every turn keeps the parameters, of which both tables are functions. -/
theorem tablesAreReadOnly : Obligations.TablesAreReadOnly := by
  intro s t ht
  have hp := step_params ht
  exact ⟨hp, fun v => by rw [hp], fun c => by rw [hp]⟩

/-! ### What a host's or the platform's turn leaves of the registers -/

/-- The registers that a running command stands on, and those that it ends by writing, are as before (10_state.md R35). -/
def keepsRegisters (s t : State) : Prop :=
  keepsOperands s t ∧ t.status = s.status ∧ t.resultLo = s.resultLo ∧ t.resultHi = s.resultHi ∧ t.errPos = s.errPos

section
variable {s t : State}

theorem keepsRegisters_refl (s : State) : keepsRegisters s s := ⟨keepsOperands_refl s, rfl, rfl, rfl, rfl⟩

theorem resetCore_not_busy (s : State) : (resetCore s).status.busy = false := rfl

theorem keepsRegisters_hostMemRead (a : Nat) (s : State) : keepsRegisters s (hostMemRead a s).2 := by
  rcases hostMemRead_state a s with e | e <;> rw [e] <;> exact keepsRegisters_refl s

/-- A register write while a command runs is a soft reset or changes nothing (10_state.md R24, R25, R35). -/
theorem writeRegister_busy (hb : s.status.busy = true) (off : Offset) (v : Word) :
    writeRegister off v s = s ∨ writeRegister off v s = resetCore s := by
  rcases writeRegister_cases off v s with e | ⟨_, _, _, e⟩ | ⟨_, _, hn, _⟩ | ⟨_, hn, _⟩
  · exact .inl e
  · exact .inr e
  · rw [hb] at hn; cases hn
  · rw [hb] at hn; cases hn

/-- A core's turn on a running command ends it, unless `rst` holds the core (60_exceptions.md R220). -/
theorem coreTurn_ends (ht : coreTurn s = .next t) : t = s ∨ t.status.busy = false := by
  rcases coreTurn_cases s with e | ⟨_, _, i, _, e⟩ | ⟨_, _, _, e⟩
  · exact .inl (next_inj (ht.symm.trans e))
  · obtain ⟨t', e', hn⟩ := exec_ends i s
    obtain rfl := next_inj ((ht.symm.trans e).trans e')
    exact .inr hn
  · obtain rfl := next_inj (e.symm.trans ht); exact .inr rfl

theorem hostTurn_while_busy (hb : s.status.busy = true) (ht : hostTurn s = .next t) :
    keepsRegisters s t ∨ t.status.busy = false := by
  rcases hostTurn_cases ht with rfl | ⟨h', rfl⟩ | ⟨off, e, h', _, rfl⟩ | ⟨a, v, h', _, rfl⟩ | ⟨a, h', _, rfl⟩
  · exact .inl (keepsRegisters_refl _)
  · exact .inl (keepsRegisters_refl s)
  · rcases writeRegister_busy hb off (e.word s.host) with hw | hw <;> rw [hw]
    · exact .inl (keepsRegisters_refl s)
    · exact .inr (resetCore_not_busy s)
  · exact .inl (keepsRegisters_refl s)
  · exact .inl (keepsRegisters_hostMemRead a s)

theorem driveRst_while_busy (b : Bool) (s : State) : keepsRegisters s (driveRst b s) ∨ (driveRst b s).status.busy = false := by
  cases b with
  | true => exact .inr (resetCore_not_busy s)
  | false => exact .inl (keepsRegisters_refl s)

theorem runTurn_while_busy {turn : Turn} (hb : s.status.busy = true) (ht : runTurn turn s = .next t) :
    keepsRegisters s t ∨ t.status.busy = false := by
  cases turn with
  | core =>
    rcases coreTurn_ends ht with rfl | hn
    · exact .inl (keepsRegisters_refl _)
    · exact .inr hn
  | host => exact hostTurn_while_busy hb ht
  | rst b => obtain rfl := next_inj ht; exact driveRst_while_busy b s

end

/-- Settles O58: a turn after which BUSY is still 1 is no completion and no reset, and the others change no register. -/
theorem runningCommandKeepsOperands : Obligations.RunningCommandKeepsOperands := by
  intro s t hb ht hbt
  obtain ⟨turn, ts, e, _⟩ := step_turn s
  rcases runTurn_while_busy (s := s.setSchedule ts) hb (e.symm.trans ht) with hk | hn
  · exact hk
  · rw [hbt] at hn; cases hn

/-! ### The fault state (10_state.md R36) -/

section
variable {s t : State}

/-- A write to CTRL with SRST 1 is the host's line. -/
def hostWritesSrst (s : State) : Prop :=
  ∃ e, s.host.program[s.host.pc]? = some (.wr (s.params.base + 0x04) 32 e) ∧ (e.word s.host).getLsbD 0 = true

/-- STATUS, with the fault and its cause, and CMD are as before. -/
def keepsFault (s t : State) : Prop := t.status = s.status ∧ t.cmd = s.cmd

theorem keepsFault_refl (s : State) : keepsFault s s := ⟨rfl, rfl⟩

theorem writeRegister_faulted (hf : s.status.fault = true) (off : Offset) (v : Word) :
    keepsFault s (writeRegister off v s) ∨
    (off = RegName.offset .ctrl ∧ v.getLsbD 0 = true ∧ writeRegister off v s = resetCore s) := by
  rcases writeRegister_cases off v s with e | ⟨_, ho, hv, e⟩ | ⟨_, _, _, hn, _⟩ | ⟨_, _, e | e | e | e⟩
  · exact .inl (e.symm ▸ keepsFault_refl s)
  · exact .inr ⟨ho, hv, e⟩
  · rw [hf] at hn; cases hn
  all_goals exact .inl (e.symm ▸ ⟨rfl, rfl⟩)

theorem keepsFault_hostMemRead (a : Nat) (s : State) : keepsFault s (hostMemRead a s).2 := by
  rcases hostMemRead_state a s with e | e <;> rw [e] <;> exact keepsFault_refl s

theorem hostTurn_faulted (hf : s.status.fault = true) (ht : hostTurn s = .next t) :
    keepsFault s t ∨ (t.registersAtReset ∧ hostWritesSrst s) := by
  rcases hostTurn_cases ht with rfl | ⟨h', rfl⟩ | ⟨off, e, h', hl, rfl⟩ | ⟨a, v, h', _, rfl⟩ | ⟨a, h', _, rfl⟩
  · exact .inl (keepsFault_refl _)
  · exact .inl ⟨rfl, rfl⟩
  · rcases writeRegister_faulted hf off (e.word s.host) with hk | ⟨rfl, hv, hw⟩
    · exact .inl hk
    · rw [hw]
      exact .inr ⟨registersAtReset_resetCore s, e, hl, hv⟩
  · exact .inl ⟨rfl, rfl⟩
  · exact .inl (keepsFault_hostMemRead a s)

/-- The core has no step in the fault state, since BUSY is then 0 (10_state.md R27, 60_exceptions.md R220). -/
theorem runTurn_faulted {turn : Turn} (h : s.Inv) (hf : s.status.fault = true) (ht : runTurn turn s = .next t) :
    keepsFault s t ∨ (t.registersAtReset ∧ (turn = .rst true ∨ hostWritesSrst s)) := by
  cases turn with
  | core =>
    obtain ⟨hb, _⟩ := Status.consistent_fault h.status hf
    obtain rfl := next_inj ((coreTurn_idle (.inl hb)).symm.trans ht)
    exact .inl (keepsFault_refl s)
  | host => exact (hostTurn_faulted hf ht).imp_right fun ⟨hr, hw⟩ => ⟨hr, .inr hw⟩
  | rst b =>
    obtain rfl := next_inj ht
    cases b with
    | true => exact .inr ⟨registersAtReset_resetCore s, .inl rfl⟩
    | false => exact .inl ⟨rfl, rfl⟩

/-- A turn that no schedule names is no change of `rst`. -/
theorem defaultTurn_ne_rst (s : State) (b : Bool) : defaultTurn s ≠ .rst b := by
  unfold defaultTurn
  split <;> simp

end

/-- Settles O57: a CMD write asks for FAULT 0, an operand write for BUSY 0 alone, and no turn but a reset writes STATUS. -/
theorem onlyResetClearsFault : Obligations.OnlyResetClearsFault := by
  intro s h hf
  obtain ⟨hb, _⟩ := Status.consistent_fault h.status hf
  refine ⟨fun v hr => ⟨(writeRegister_cmd v hr).trans (if_pos (.inr hf)), writeRegister_operands v hr hb⟩, fun t ht => ?_⟩
  obtain ⟨turn, ts, e, hturn⟩ := step_turn s
  rcases runTurn_faulted (s := s.setSchedule ts) (inv_setSchedule h ts) hf (e.symm.trans ht) with hk | ⟨hr, rfl | hw⟩
  · exact .inl hk
  · rcases hturn with hsched | ⟨_, _, hd⟩
    · exact .inr ⟨hr, .inl ⟨ts, hsched⟩⟩
    · exact absurd hd.symm (defaultTurn_ne_rst s true)
  · exact .inr ⟨hr, .inr hw⟩

end Sys2Proof.Machine

/-! ## The host's accesses to memory, and what it leaves of a running command (20_memory.md R60, R64, R70, R73) -/

namespace Sys2Proof.Machine

/-! ### The host's own reads and writes -/

section
variable {s : State} {a : Nat}

theorem hostMemRead_exact (h : s.status.busy = true → s.needRange.has a = false) :
    hostMemRead a s = (s.mem.read a, s) := by
  have hn : (s.status.busy && s.needRange.has a) = false := Bool.and_eq_false_imp.2 h
  simp [hostMemRead, hn]

theorem hostMemRead_needRange (hb : s.status.busy = true) (hn : s.needRange.has a = true) :
    hostMemRead a s = (Config.freeByte s.draws, { s with draws := s.draws + 1 }) := by
  rw [hostMemRead, hb, hn]; rfl

@[simp] theorem hostMemWrite_mem (v : Byte) : (hostMemWrite a v s).mem = s.mem.write a v := rfl
@[simp] theorem hostMemWrite_status (v : Byte) : (hostMemWrite a v s).status = s.status := rfl

/-- While a command runs, a write to its input is recorded (20_memory.md R73). -/
theorem hostMemWrite_srcDisturbed (v : Byte) (hb : s.status.busy = true) :
    (hostMemWrite a v s).srcDisturbed = (s.srcDisturbed || s.inputRange.has a) := by
  rw [hostMemWrite, hb]; rfl

/-- While a command runs, a write to its need range is recorded by its address (20_memory.md R73). -/
theorem hostMemWrite_outDisturbed (v : Byte) (hb : s.status.busy = true) :
    (hostMemWrite a v s).outDisturbed =
      if s.needRange.has a then insertAddress a s.outDisturbed else s.outDisturbed := by
  rw [hostMemWrite, hb]; rfl

/-- A write past the end of memory is a fault (20_memory.md R60). -/
theorem hostMw_outside {e bs : HostExpr} (h : s.params.memSize ≤ hostByteAddress e s)
    (hp : s.host.progress < (bs.byteList s.host).length) :
    hostMw e bs s = .fault (.hostAddressOutsideMemory (hostByteAddress e s)) := by
  simp [hostMw, List.getElem?_eq_getElem hp, Nat.not_lt.2 h]

/-- A read past the end of memory is a fault (20_memory.md R60). -/
theorem hostMr_outside {e k : HostExpr} (x : Nat) (h : s.params.memSize ≤ hostByteAddress e s)
    (hp : s.host.progress < (k.word s.host).toNat) :
    hostMr e k x s = .fault (.hostAddressOutsideMemory (hostByteAddress e s)) := by
  rw [hostMr, if_pos hp, if_neg (Nat.not_lt.2 h)]

end

/-- Settles O34: the line's next byte is one that does not exist. -/
theorem hostAddressOutsideMemoryFaults : Obligations.HostAddressOutsideMemoryFaults := fun _ _ _ _ x h =>
  ⟨fun hl hp => (hostTurn_line hl).trans (hostMw_outside h hp),
    fun hl hp => (hostTurn_line hl).trans (hostMr_outside x h hp)⟩

/-- Settles O32: outside the need range neither access draws a value, and the write changes no register. -/
theorem hostMemoryAccessIsExact : Obligations.HostMemoryAccessIsExact := by
  intro s a v hm hn
  refine ⟨hostMemRead_exact hn, ?_, fun a' ha => Memory.read_write_other hm ha, ⟨rfl, rfl, rfl, rfl, rfl⟩, rfl,
    fun hi => hostMemWrite_outside v fun hb => ⟨hn hb, hi hb⟩⟩
  rw [hostMemRead_exact (s := hostMemWrite a v s) hn, hostMemWrite_mem, Memory.read_write_same hm]

/-- Settles O33: the read of a need-range byte is a draw, and the record grows by the address written or not at all. -/
theorem hostAccessToRunningBuffers : Obligations.HostAccessToRunningBuffers := by
  intro s a v hm hb
  refine ⟨hostMemRead_needRange hb, fun hn => ?_, fun hn => ?_, fun hi => ?_, fun hi => ?_, Memory.read_write_same hm,
    fun b hne => Memory.read_write_other hm hne, rfl⟩
  · rw [hostMemWrite_outDisturbed v hb, if_pos hn]
    exact ⟨fun _ => mem_insertAddress, insertAddress_rising⟩
  · rw [hostMemWrite_outDisturbed v hb, hn]; rfl
  · rw [hostMemWrite_srcDisturbed v hb, hi, Bool.or_true]
  · rw [hostMemWrite_srcDisturbed v hb, hi, Bool.or_false]

/-! ### A command whose input the host wrote -/

section
variable {s t : State} {i : Instr}

theorem encodeDisturbed_mem (s : State) : (encodeDisturbed s).mem = (scrambleNeed .encode s).mem := by
  rcases encodeDisturbed_cases s with ⟨hc, e⟩ | ⟨c, k, _, e | ⟨_, e⟩⟩ <;> rw [e]
  · rw [scrambleNeed_of_contract hc]; rfl
  · rfl
  · rfl

theorem decodeDisturbed_mem (s : State) : (decodeDisturbed s).mem = (scrambleNeed .decode s).mem := by
  obtain ⟨k, ⟨c, _, e⟩ | ⟨_, _, e⟩ | ⟨r, _, e⟩ | ⟨c, pos, _, _, e⟩⟩ := decodeDisturbed_cases s <;> rw [e] <;> rfl

/-- Memory after a command whose input the host wrote: the need range is free where it exists, and nothing else changes
(20_memory.md R73). -/
theorem disturbed_effect (hm : s.mem.wf = true) (ht : t.mem = (scrambleNeed i s).mem) :
    rangeFree ((needRangeOf i s).within s.params.memSize) s.draws t ∧ keepsMemoryOutside (needRangeOf i s) s t := by
  simpa only [rangeFree, keepsMemoryOutside, ht] using scrambleNeed_effect i hm

/-- The same when the contract holds, where the whole need range exists (60_exceptions.md R207). -/
theorem disturbed_effect_of_contract (hm : s.mem.wf = true) (hc : contractHolds i s)
    (ht : t.mem = (scrambleNeed i s).mem) :
    rangeFree (needRangeOf i s) s.draws t ∧ keepsMemoryOutside (needRangeOf i s) s t := by
  rw [scrambleNeed_of_contract hc] at ht
  exact ⟨fun j hj => by rw [ht]; exact read_fill_inside hm _ _ hj,
    fun a ha => by rw [ht]; exact read_fill_outside hm _ _ ha⟩

theorem resultN_endWithError (c : ErrCause) (pos : Nat) (u : State) : (endWithError c pos u).resultN = 0 :=
  resultN_of_parts (by decide) rfl rfl

theorem resultN_raiseContractFault (c : FaultCause) (u : State) : (raiseContractFault c u).resultN = 0 :=
  resultN_of_parts (by decide) rfl rfl

theorem encodeLen_lt_two_words (s : State) : encodeLen s.lenN < 2 ^ 64 := by
  have := lenN_lt s
  unfold encodeLen; omega

/-- With the contract met, ENCODE of an input the host wrote finishes (20_memory.md R73). -/
theorem encodeDisturbed_of_contract (hc : contractHolds .encode s) :
    encodeDisturbed s = finish (encodeLen s.lenN) (scramble (needRangeOf .encode s) s) := by
  rcases encodeDisturbed_cases s with ⟨_, e⟩ | ⟨c, _, hf, _⟩
  · exact e
  · rw [hc] at hf; cases hf

/-- The outcomes 20_memory.md R73 lists for a DECODE whose input the host wrote: DONE with a result in
`[0, decode_len(n)]`, or ERR of BAD_CHAR, BAD_PAD or NONCANON at a position in `[0, n)`. -/
def freeDecodeEnd (s t : State) : Prop :=
  (t.status = { s.status with busy := false, done := true } ∧ t.resultN ≤ decodeLen s.lenN) ∨
  (∃ c, t.status = { s.status with errCause := c, busy := false, err := true } ∧
    (c = .badChar ∨ c = .badPad ∨ c = .nonCanon) ∧ t.resultN = 0 ∧ t.errPos.toNat < s.lenN)

theorem freeDecodeEnd_finish {u : State} {r : Nat} (hu : u.status = s.status) (hr : r ≤ decodeLen s.lenN) :
    freeDecodeEnd s (finish r u) := by
  have := decodeLen_lt_word s
  refine .inl ⟨by rw [finish_status, hu]; rfl, ?_⟩
  rwa [resultN_finish (by omega)]

theorem freeDecodeEnd_endWithError {u : State} {c : ErrCause} {pos : Nat} (hu : u.status = s.status)
    (hc : c = .badChar ∨ c = .badPad ∨ c = .nonCanon) (hp : pos < s.lenN) : freeDecodeEnd s (endWithError c pos u) := by
  have := lenN_lt s
  refine .inr ⟨c, by rw [endWithError_status, hu]; rfl, hc, resultN_endWithError c pos u, ?_⟩
  rw [endWithError_errPos, BitVec.toNat_ofNat, Nat.mod_eq_of_lt (by omega)]
  exact hp

/-- How a DECODE of an input that is not empty ends when the host wrote that input: in the contract's fault, in LENGTH if
the contract holds, or in an outcome of R73 (log entry 8). -/
theorem decodeDisturbed_outcome (h0 : 0 < s.lenN) :
    (∃ c, contractOf .decode s = some c ∧
      (decodeDisturbed s).status = { s.status with faultCause := c, busy := false, fault := true } ∧
      (decodeDisturbed s).resultN = 0) ∨
    ((contractHolds .decode s ∧ s.lenN % 4 ≠ 0) ∧
      (decodeDisturbed s).status = { s.status with errCause := .length, busy := false, err := true } ∧
      (decodeDisturbed s).resultN = 0 ∧ (decodeDisturbed s).errPos = 0#32) ∨
    freeDecodeEnd s (decodeDisturbed s) := by
  obtain ⟨k, ⟨c, hc, e⟩ | ⟨hc, hn, e⟩ | ⟨r, hr, e⟩ | ⟨c, pos, hc, hp, e⟩⟩ := decodeDisturbed_cases s <;> rw [e]
  · exact .inl ⟨c, hc, rfl, resultN_raiseContractFault c _⟩
  · exact .inr (.inl ⟨⟨hc, hn⟩, rfl, resultN_endWithError .length 0 _, rfl⟩)
  · exact .inr (.inr (freeDecodeEnd_finish rfl hr))
  · exact .inr (.inr (freeDecodeEnd_endWithError rfl hc (hp h0)))

end

/-- Settles O28: with the contract met, the disturbed ENCODE only finishes. -/
theorem disturbedEncodeInput : Obligations.DisturbedEncodeInput := by
  intro s hm hc hd
  have hmem := disturbed_effect_of_contract hm hc (encodeDisturbed_mem s)
  rw [encodeDisturbed_of_contract hc] at hmem
  exact ⟨_, (execEncode_disturbed hd).trans (congrArg _ (encodeDisturbed_of_contract hc)), rfl,
    resultN_finish (encodeLen_lt_two_words s) _, hmem⟩

/-- Settles O29: the fault and LENGTH ask for a check that fails. -/
theorem disturbedDecodeInput : Obligations.DisturbedDecodeInput := by
  intro s hm hc hn h0 hd
  refine ⟨_, s.draws, execDecode_disturbed hd, ?_, disturbed_effect_of_contract hm hc (decodeDisturbed_mem s)⟩
  rcases decodeDisturbed_outcome h0 with ⟨c, hf, _⟩ | ⟨⟨_, hl⟩, _⟩ | h
  · rw [hc] at hf; cases hf
  · exact absurd hn hl
  · exact h

/-- Settles O30: the outcomes are the cases of the two disturbed commands, and all of them scramble the need range. -/
theorem disturbedInputBeforeChecks : Obligations.DisturbedInputBeforeChecks := by
  intro s hm hd h0
  refine ⟨fun hnc => ⟨_, s.draws, execEncode_disturbed hd, ?_, disturbed_effect hm (encodeDisturbed_mem s)⟩,
    fun _ => ⟨_, s.draws, execDecode_disturbed hd, ?_, disturbed_effect hm (decodeDisturbed_mem s)⟩⟩
  · rcases encodeDisturbed_cases s with ⟨hc, _⟩ | ⟨c, k, hc, e | ⟨hr, e⟩⟩
    · exact absurd hc hnc
    · exact .inl ⟨c, hc, by rw [e]; exact ⟨rfl, resultN_raiseContractFault c _⟩⟩
    · refine .inr ?_
      rw [e]
      refine ⟨rfl, resultN_finish (encodeLen_lt_two_words s) _, ?_⟩
      rw [finish_resultHi, Nat.div_eq_of_lt hr]
  · rcases decodeDisturbed_outcome h0 with h | ⟨⟨hc, _⟩, h⟩ | h
    · exact .inl h
    · exact .inr (.inl ⟨hc, h⟩)
    · exact .inr (.inr h)

/-! ### A command whose output bytes the host wrote -/

section
variable {s : State} {i : Instr} {m : Memory}

/-- A command's writes and the redraw stay inside its need range (20_memory.md R64, R73). -/
theorem redrawDisturbed_setMem_outside (hw : m.wf = true) (hd : disturbedInside i s)
    (ho : ∀ a, (needRangeOf i s).has a = false → m.read a = s.mem.read a) :
    keepsMemoryOutside (needRangeOf i s) s (redrawDisturbed (s.setMem m)) := fun a ha =>
  (redrawDisturbed_outside (s := s.setMem m) hw hd a ha).trans (ho a ha)

/-- A contract that fails ends the command in its fault, if the host did not write its input (60_exceptions.md R207). -/
theorem exec_fault {c : FaultCause} (hi : i = .encode ∨ i = .decode) (hc : contractOf i s = some c)
    (hd : s.srcDisturbed = false) : exec i s = .next (raiseContractFault c (redrawDisturbed s)) := by
  rcases hi with rfl | rfl
  · exact execEncode_fault hc hd
  · exact execDecode_fault hc hd

/-- DECODE of an input whose groups are all accepted succeeds (42_decoder.md R169). -/
theorem decodeGroupsExact_accepted (hm : s.mem.wf = true) (hc : contractHolds .decode s) (hn : s.lenN % 4 = 0)
    (hok : allGroupsAccepted s) :
    ∃ total m, m.wf = true ∧ decodeGroupsExact s = finish total (redrawDisturbed (s.setMem m)) := by
  have hdis := decode_buffers_disjoint hc hn
  have hlen : 4 * decodeGroups s.lenN = s.lenN := by unfold decodeGroups; omega
  obtain ⟨total, m, e, hw, _⟩ := decodeLoop_all_ok (p := s.params) (src := s.srcN) (n := s.lenN) (dst := s.dstN)
    (Nat.le_of_eq hlen) (by omega) (g := 0) (total := 0) hm (Nat.zero_add _) rfl
    (fun j hj => by rw [Nat.zero_add]; exact hok j hj)
  exact ⟨total, m, hw, by rw [decodeGroupsExact, e]⟩

end

/-- Settles O31: a success, a contract fault and LENGTH each redraw the bytes the host wrote, as the last thing they do to
memory. -/
theorem disturbedOutputBytesAreFree : Obligations.DisturbedOutputBytesAreFree := by
  intro s hm hnd hd
  obtain ⟨hfree, hother⟩ := redrawDisturbed_effect hm
  have hsuccess {m : Memory} (hw : m.wf = true) := (redrawDisturbed_effect (s := s.setMem m) hw).1 hnd
  refine ⟨fun hc => ⟨_, execEncode_exact hc hd, rfl, hsuccess (encodeLoop_wf hm)⟩, fun hc hn hok => ?_,
    fun i hi hnc => ?_, fun hc hn => ⟨_, execDecode_length hc hn hd, rfl, hfree hnd, hother⟩⟩
  · obtain ⟨total, m, hw, e⟩ := decodeGroupsExact_accepted hm hc hn hok
    exact ⟨_, (execDecode_exact hc hn hd).trans (congrArg _ e), rfl, hsuccess hw⟩
  · obtain ⟨c, hc⟩ := Option.ne_none_iff_exists'.1 hnc
    exact ⟨_, exec_fault hi hc hd, rfl, hfree hnd, hother⟩

/-! ### What a command writes -/

section
variable {s t : State} {i : Instr}

theorem execEncode_outside (hm : s.mem.wf = true) (hd : disturbedInside .encode s) (ht : exec .encode s = .next t) :
    keepsMemoryOutside (needRangeOf .encode s) s t := by
  rcases execEncode_cases s with ⟨_, e⟩ | ⟨c, _, _, e⟩ | ⟨_, _, e⟩ <;> obtain rfl := next_inj (e.symm.trans ht)
  · exact (disturbed_effect hm (encodeDisturbed_mem s)).2
  · exact redrawDisturbed_outside hm hd
  · refine redrawDisturbed_setMem_outside (encodeLoop_wf hm) hd fun a ha => ?_
    rw [needRangeOf_encode, Range.has_false_iff, encodeLen_eq] at ha
    exact read_encodeLoop_other hm (by simpa using ha)

theorem execDecode_outside (hm : s.mem.wf = true) (hd : disturbedInside .decode s) (ht : exec .decode s = .next t) :
    keepsMemoryOutside (needRangeOf .decode s) s t := by
  rcases execDecode_cases s with ⟨_, e⟩ | ⟨c, _, _, e⟩ | ⟨_, _, _, e⟩ | ⟨_, _, _, e⟩ <;>
    obtain rfl := next_inj (e.symm.trans ht)
  · exact (disturbed_effect hm (decodeDisturbed_mem s)).2
  · exact redrawDisturbed_outside hm hd
  · exact redrawDisturbed_outside hm hd
  · rcases decodeGroupsExact_cases hm with ⟨c, pos, _, _, e⟩ | ⟨total, m, _, hw, ho, _, e⟩ <;> rw [e]
    · exact fun a ha => read_fill_outside hm _ _ ha
    · exact redrawDisturbed_setMem_outside hw hd fun a ha => ho a (Range.has_false_iff.1 ha)

/-- No command writes a byte outside its need range (20_memory.md R64). -/
theorem exec_outside (hm : s.mem.wf = true) (hd : disturbedInside i s) (ht : exec i s = .next t) :
    keepsMemoryOutside (needRangeOf i s) s t := by
  cases i with
  | encode => exact execEncode_outside hm hd ht
  | decode => exact execDecode_outside hm hd ht
  | encodeLen => obtain rfl := next_inj ht; exact fun _ _ => rfl
  | decodeLen => obtain rfl := next_inj ht; exact fun _ _ => rfl

/-- A success of a running command is neither a fault nor LENGTH (60_exceptions.md R203). -/
theorem finish_passes_checks {u : State} {r : Nat} (hs : s.status.consistent) (hb : s.status.busy = true)
    (hu : u.status = s.status) : ¬ ((finish r u).status.fault = true ∨ (finish r u).status.errCause = .length) := by
  rw [finish_status, hu, Status.consistent_busy hs hb]; decide

/-- An error in a character is neither a fault nor LENGTH (60_exceptions.md R204). -/
theorem endWithError_passes_checks {u : State} {c : ErrCause} {pos : Nat} (hs : s.status.consistent)
    (hb : s.status.busy = true) (hu : u.status = s.status) (hc : c = .badChar ∨ c = .badPad ∨ c = .nonCanon) :
    ¬ ((endWithError c pos u).status.fault = true ∨ (endWithError c pos u).status.errCause = .length) := by
  rw [endWithError_status, hu, Status.consistent_busy hs hb]
  rcases hc with rfl | rfl | rfl <;> decide

/-- A check that fails leaves memory as it was, if the host touched no buffer (60_exceptions.md R209). -/
theorem exec_failed_check_mem (hs : s.status.consistent) (hb : s.status.busy = true) (hu : s.undisturbed)
    (ht : exec i s = .next t) (hstop : t.status.fault = true ∨ t.status.errCause = .length) : t.mem = s.mem := by
  obtain ⟨hsrc, hout⟩ := hu
  have hredraw : (redrawDisturbed s).mem = s.mem := by rw [redrawDisturbed_undisturbed hout]
  cases i with
  | encodeLen => obtain rfl := next_inj ht; rfl
  | decodeLen => obtain rfl := next_inj ht; rfl
  | encode =>
    rcases execEncode_cases s with ⟨h, _⟩ | ⟨c, _, _, e⟩ | ⟨_, _, e⟩
    · rw [hsrc] at h; cases h
    · obtain rfl := next_inj (e.symm.trans ht); exact hredraw
    · obtain rfl := next_inj (e.symm.trans ht); exact absurd hstop (finish_passes_checks hs hb rfl)
  | decode =>
    rcases execDecode_cases s with ⟨h, _⟩ | ⟨c, _, _, e⟩ | ⟨_, _, _, e⟩ | ⟨_, _, _, e⟩
    · rw [hsrc] at h; cases h
    · obtain rfl := next_inj (e.symm.trans ht); exact hredraw
    · obtain rfl := next_inj (e.symm.trans ht); exact hredraw
    · obtain rfl := next_inj (e.symm.trans ht)
      rcases decodeGroupsExact_ends s with ⟨c, pos, hc, e⟩ | ⟨total, m, e⟩ <;> rw [e] at hstop
      · exact absurd hstop (endWithError_passes_checks hs hb rfl hc)
      · exact absurd hstop (finish_passes_checks hs hb rfl)

end

/-- Settles O27: the writes stay in the need range, which the contract keeps apart from the input. -/
theorem onlyNeedRangeWritten : Obligations.OnlyNeedRangeWritten := fun _ _ _ hm hd hs hb ht =>
  have hout := exec_outside hm hd ht
  ⟨hout, fun hc a ha => hout a (input_outside_need hc ha), fun hu => exec_failed_check_mem hs hb hu ht⟩

end Sys2Proof.Machine

/-! ## The command word (30_encoding.md R90 to R94) -/

namespace Sys2Proof

section
variable {w : Word} {i : Instr} {opc : BitVec 4}

/-- The two fields are the whole word (30_encoding.md R90). -/
theorem rsvdField_append_opcField (w : Word) : rsvdField w ++ opcField w = w :=
  BitVec.extractLsb'_append_extractLsb'_eq_extractLsb' rfl |>.trans BitVec.extractLsb'_eq_self

theorem commandOfOpc_eq_some_iff : commandOfOpc opc = some i ↔ opc = opcOf i := by
  cases i <;> revert opc <;> decide

theorem commandOfOpc_eq_none_iff : commandOfOpc opc = none ↔ opc = 0#4 ∨ 5 ≤ opc.toNat := by
  revert opc; decide

theorem rsvdField_encode (i : Instr) : rsvdField (encode i) = 0#28 := by cases i <;> rfl

theorem opcField_encode (i : Instr) : opcField (encode i) = opcOf i := by cases i <;> rfl

theorem decode_eq_some_iff : decode w = some i ↔ w = encode i := by
  constructor
  · intro h
    by_cases hr : rsvdField w = 0#28
    · rw [decode, if_pos hr, commandOfOpc_eq_some_iff] at h
      calc w = rsvdField w ++ opcField w := (rsvdField_append_opcField w).symm
        _ = encode i := by rw [hr, h, encode]
    · rw [decode, if_neg hr] at h; cases h
  · rintro rfl
    rw [decode, if_pos (rsvdField_encode i), opcField_encode, commandOfOpc_eq_some_iff]

theorem decode_eq_none_iff : decode w = none ↔ rsvdField w ≠ 0#28 ∨ opcField w = 0#4 ∨ 5 ≤ (opcField w).toNat := by
  by_cases hr : rsvdField w = 0#28
  · rw [decode, if_pos hr, commandOfOpc_eq_none_iff]; simp [hr]
  · rw [decode, if_neg hr]; simp [hr]

end

/-- Settles O2: a word decodes to a command exactly when it is the command's encoding. -/
theorem decodeEncodeAgree : Obligations.DecodeEncodeAgree := fun _ _ =>
  ⟨decode_eq_some_iff.2 rfl, fun _ => decode_eq_some_iff.1⟩

/-- Settles O3: the decoder rejects a word for its RSVD, or for its OPC. -/
theorem illegalWordsNameNoCommand : Obligations.IllegalWordsNameNoCommand := fun _ => decode_eq_none_iff

/-- Settles O1: the nine words are computed. -/
theorem commandWordsDecode : Obligations.CommandWordsDecode := by
  unfold Obligations.CommandWordsDecode; decide

end Sys2Proof

namespace Sys2Proof.Machine

/-- Settles O4: the latched word is the encoding of its command, or of none. -/
theorem dispatchOnWholeWord : Obligations.DispatchOnWholeWord := by
  intro s
  cases h : s.command with
  | some i =>
    have hw : s.cmd = encode i := decode_eq_some_iff.1 h
    rw [execute_command h, hw]
    cases i <;> rfl
  | none =>
    have hne (i : Instr) : s.cmd ≠ encode i := fun he => by
      have hi : s.command = some i := decode_eq_some_iff.2 he
      rw [h] at hi; cases hi
    have h1 : s.cmd ≠ 0x00000001#32 := hne .encode
    have h2 : s.cmd ≠ 0x00000002#32 := hne .decode
    have h3 : s.cmd ≠ 0x00000003#32 := hne .encodeLen
    have h4 : s.cmd ≠ 0x00000004#32 := hne .decodeLen
    rw [execute_illegal h, if_neg h1, if_neg h2, if_neg h3, if_neg h4]

/-- Settles O5: an illegal word names no command, so the completion step raises IllegalCommand. -/
theorem illegalCommandEndsInError : Obligations.IllegalCommandEndsInError := fun _ h =>
  execute_illegal (decode_eq_none_iff.2 h)

end Sys2Proof.Machine

/-! ## Host programs (30_encoding.md R96, R97) -/

namespace Sys2Proof.Machine

/-- Settles O42: the pseudo-instructions are these lists, with each register's offset written out. -/
theorem pseudoInstructionLines : Obligations.PseudoInstructionLines := fun _ _ _ _ _ _ _ _ =>
  ⟨rfl, rfl, rfl, rfl, rfl, rfl⟩

/-! ### The lines that move bytes -/

section
variable {s : State} {e bs k : HostExpr}

/-- A byte of an `MW` that goes to an address that exists (20_memory.md R60). -/
theorem hostMw_inside (h : hostByteAddress e s < s.params.memSize)
    (hp : s.host.progress < (bs.byteList s.host).length) :
    hostMw e bs s = .next
      ((hostMemWrite (hostByteAddress e s) (bs.byteList s.host)[s.host.progress] s).setHost
        (if s.host.progress + 1 < (bs.byteList s.host).length then { s.host with progress := s.host.progress + 1 }
         else s.host.advance)) := by
  simp [hostMw, List.getElem?_eq_getElem hp, h]

/-- A byte of an `MR` that comes from an address that exists (20_memory.md R60). -/
theorem hostMr_inside (x : Nat) (h : hostByteAddress e s < s.params.memSize)
    (hp : s.host.progress < (k.word s.host).toNat) :
    hostMr e k x s = .next
      ((hostMemRead (hostByteAddress e s) s).2.setHost
        (if s.host.progress + 1 < (k.word s.host).toNat then
           { s.host with
             progress := s.host.progress + 1,
             gathered := s.host.gathered ++ [(hostMemRead (hostByteAddress e s) s).1] }
         else s.host.assign x (.bytes (s.host.gathered ++ [(hostMemRead (hostByteAddress e s) s).1])))) := by
  rw [hostMr, if_pos hp, if_pos h]

end

/-- Settles O43: the line's next byte is one that exists. -/
theorem hostMemoryLines : Obligations.HostMemoryLines := fun _ _ _ _ x h =>
  ⟨fun hp hl => (hostTurn_line hl).trans (hostMw_inside h hp),
    fun hp hl => (hostTurn_line hl).trans (hostMr_inside x h hp)⟩

/-! ### Labels and branches -/

section
variable {s : State} {c : HostCond} {l j : Nat}

/-- The search for a label is the library's search for its line. -/
theorem findLabel_eq_findIdx? (l : Nat) (p : List Line) (n : Nat) :
    findLabel l p n = (p.findIdx? (fun ln => decide (ln = .label l))).map (· + n) := by
  induction p generalizing n with
  | nil => rfl
  | cons ln p ih =>
    have hcons : findLabel l (ln :: p) n = if ln = .label l then some n else findLabel l p (n + 1) := by
      cases ln <;> simp [findLabel]
    rw [hcons, ih, List.findIdx?_cons]
    by_cases hl : ln = .label l
    · simp [hl]
    · simp [hl, Function.comp_def, Nat.add_assoc, Nat.add_comm 1]

theorem findLabel_first {p : List Line} (hj : p[j]? = some (.label l)) (hfirst : ∀ i, i < j → p[i]? ≠ some (.label l)) :
    findLabel l p 0 = some j := by
  obtain ⟨hlt, hj⟩ := List.getElem?_eq_some_iff.1 hj
  have hidx : p.findIdx? (fun ln => decide (ln = .label l)) = some j := by
    rw [List.findIdx?_eq_some_iff_getElem]
    refine ⟨hlt, decide_eq_true hj, fun i hi he => hfirst i hi ?_⟩
    rw [List.getElem?_eq_getElem (hi.trans hlt), of_decide_eq_true he]
  rw [findLabel_eq_findIdx?, hidx]; rfl

theorem findLabel_missing {p : List Line} (h : ∀ i : Nat, p[i]? ≠ some (.label l)) : findLabel l p 0 = none := by
  have hidx : p.findIdx? (fun ln => decide (ln = .label l)) = none := by
    rw [List.findIdx?_eq_none_iff]
    intro ln hln
    obtain ⟨i, hi⟩ := List.getElem?_of_mem hln
    refine decide_eq_false fun he => h i ?_
    rw [hi, he]
  rw [findLabel_eq_findIdx?, hidx]; rfl

theorem hostBranch_not_taken (hc : c.eval s.host = false) : hostBranch c l s = .next (s.setHost s.host.advance) := by
  rw [hostBranch, hc]; rfl

theorem hostBranch_taken (hc : c.eval s.host = true) (hj : findLabel l s.host.program 0 = some j) :
    hostBranch c l s = .next (s.setHost { s.host.advance with pc := j }) := by
  rw [hostBranch, if_pos hc, hj]

theorem hostBranch_label_missing (hc : c.eval s.host = true) (hj : findLabel l s.host.program 0 = none) :
    hostBranch c l s = .refused (.hostLabelMissing l) := by
  rw [hostBranch, if_pos hc, hj]

end

/-- Settles O44: a label goes on, and a branch does what the search for its label answers. -/
theorem hostBranchLines : Obligations.HostBranchLines := fun _ _ =>
  ⟨fun hl => hostTurn_line hl, fun _ hl =>
    ⟨fun hc => (hostTurn_line hl).trans (hostBranch_not_taken hc),
      fun _ hc hj hfirst => (hostTurn_line hl).trans (hostBranch_taken hc (findLabel_first hj hfirst)),
      fun hc hmissing => (hostTurn_line hl).trans (hostBranch_label_missing hc (findLabel_missing hmissing))⟩⟩

/-! ### Variables and conditions -/

theorem getVar_putVar_same (vars : List (Nat × HostValue)) (x : Nat) (v : HostValue) :
    getVar (putVar vars x v) x = some v := by
  induction vars with
  | nil => simp [putVar, getVar]
  | cons kv rest ih =>
    obtain ⟨k, u⟩ := kv
    rcases lt_trichotomy x k with hlt | rfl | hgt
    · simp [putVar, getVar, hlt, hlt.ne]
    · simp [putVar, getVar]
    · simp [putVar, getVar, hgt.ne', hgt.not_gt, ih]

theorem getVar_putVar_other (vars : List (Nat × HostValue)) {x y : Nat} (v : HostValue) (hy : y ≠ x) :
    getVar (putVar vars x v) y = getVar vars y := by
  induction vars with
  | nil => simp [putVar, getVar, hy]
  | cons kv rest ih =>
    obtain ⟨k, u⟩ := kv
    rcases lt_trichotomy x k with hlt | rfl | hgt
    · simp [putVar, getVar, hlt, hlt.ne, hy]
    · simp [putVar, getVar, hy]
    · simp [putVar, getVar, hgt.ne', hgt.not_gt, ih]

section
variable {h : HostAgent} {a b : HostExpr} {c d : HostCond} {x : Nat} {u v : HostValue}

@[simp] theorem HostExpr.value_imm (w : Word) : (HostExpr.imm w).value h = .word w := rfl
@[simp] theorem HostExpr.value_bytes (bs : List Byte) : (HostExpr.bytes bs).value h = .bytes bs := rfl

theorem HostExpr.value_var (hx : getVar h.vars x = some v) : (HostExpr.var x).value h = v := by
  rw [HostExpr.value, hx]; rfl

@[simp] theorem HostValue.toWord_word (w : Word) : (HostValue.word w).toWord = w := rfl

/-- A single byte stands for its number (log entry 12). -/
@[simp] theorem HostValue.toNat_toWord_byte (y : Byte) : (HostValue.bytes [y]).toWord.toNat = y.toNat := by
  rw [HostValue.toWord, BitVec.toNat_setWidth_of_le (by decide)]

@[simp] theorem HostValue.same_bytes (bs cs : List Byte) : (HostValue.bytes bs).same (.bytes cs) = true ↔ bs = cs :=
  decide_eq_true_iff

/-- A comparison with a word is of numbers. -/
@[simp] theorem HostValue.same_word (w : Word) : u.same (.word w) = true ↔ u.toWord.toNat = w.toNat := by
  have hsame : u.same (.word w) = decide (u.toWord = w) := by cases u <;> rfl
  rw [hsame, decide_eq_true_iff, BitVec.toNat_inj]

@[simp] theorem HostCond.eval_eq : (HostCond.eq a b).eval h = true ↔ (a.value h).same (b.value h) = true := Iff.rfl
@[simp] theorem HostCond.eval_lt :
    (HostCond.lt a b).eval h = true ↔ (a.value h).toWord.toNat < (b.value h).toWord.toNat := decide_eq_true_iff
@[simp] theorem HostCond.eval_bit (i : Nat) :
    (HostCond.bit a i).eval h = true ↔ (a.value h).toWord.getLsbD i = true := Iff.rfl
@[simp] theorem HostCond.eval_not : (HostCond.not c).eval h = true ↔ c.eval h = false := by
  rw [HostCond.eval, Bool.not_eq_true']
@[simp] theorem HostCond.eval_and : (HostCond.and c d).eval h = true ↔ c.eval h = true ∧ d.eval h = true :=
  Bool.and_eq_true_iff

end

/-- Settles O45: each condition is of the values its variables hold. -/
theorem hostVariablesAndConditions : Obligations.HostVariablesAndConditions := by
  refine ⟨fun vars x v => ⟨getVar_putVar_same vars x v, fun y => getVar_putVar_other vars v⟩, ?_⟩
  intro h x y z u w b bs cs i c d hx hy hz
  have hu := HostExpr.value_var hx
  have hb := HostExpr.value_var hy
  have hbs := HostExpr.value_var hz
  have heq : (HostCond.eq (.var x) (.imm w)).eval h = true ↔ u = w := by simp [hu, BitVec.toNat_inj]
  refine ⟨heq, ?_, by simp [hu], by simp [hu], by simp [hu, hb], by simp [hb], by simp [hbs], HostCond.eval_not,
    HostCond.eval_and⟩
  rw [HostCond.eval_not, ← Bool.not_eq_true, heq]

end Sys2Proof.Machine

/-! ## The length calculators (40_length.md R110 to R114) -/

namespace Sys2Proof.Machine

/-! ### The length functions -/

section
variable {n m k : Nat}

/-- The number of groups is the least whose bytes hold the input (41_encoder.md R130): the one fact about rounding up. -/
theorem encodeGroups_le_iff : encodeGroups n ≤ k ↔ n ≤ 3 * k := by
  unfold encodeGroups; omega

theorem le_three_mul_encodeGroups (n : Nat) : n ≤ 3 * encodeGroups n := encodeGroups_le_iff.1 le_rfl

theorem three_mul_encodeGroups_le (n : Nat) : 3 * encodeGroups n ≤ n + 2 := Nat.mul_div_le (n + 2) 3

theorem encodeLen_le_iff : encodeLen n ≤ 4 * k ↔ n ≤ 3 * k := by
  rw [encodeLen_eq, Nat.mul_le_mul_left_iff (by decide), encodeGroups_le_iff]

theorem encodeLen_mono (h : n ≤ m) : encodeLen n ≤ encodeLen m := by
  rw [encodeLen_eq m, encodeLen_le_iff]
  exact h.trans (le_three_mul_encodeGroups m)

/-- Every started group of three bytes takes a fourth character (40_length.md R114 (b)). -/
theorem lt_encodeLen (h : 1 ≤ n) : n + 1 ≤ encodeLen n := by
  have hn := le_three_mul_encodeGroups n
  rw [encodeLen_eq]; omega

theorem decodeLen_encodeLen (n : Nat) : decodeLen (encodeLen n) = 3 * encodeGroups n := by
  rw [encodeLen_eq, decodeLen, Nat.mul_div_cancel_left _ (by decide), Nat.mul_comm]

theorem four_mul_decodeLen_le (n : Nat) : 4 * decodeLen n ≤ 3 * n := by
  have hn := Nat.mul_div_le n 4
  unfold decodeLen; omega

/-- The result of ENCODE_LEN on a 32-bit length needs 33 bits (40_length.md R110). -/
theorem encodeLen_le_of_word (h : n < 2 ^ 32) : encodeLen n ≤ 0x155555554 :=
  encodeLen_le_iff (k := 0x55555555).2 (by omega)

/-- The result of DECODE_LEN on a 32-bit length fits 32 bits (40_length.md R111). -/
theorem decodeLen_le_of_word (h : n < 2 ^ 32) : decodeLen n ≤ 0xBFFFFFFD := by
  unfold decodeLen; omega

/-- The corner of 40_length.md R112: `0xBFFF_FFFD` is the largest length whose `encode_len` fits 32 bits. -/
theorem encodeLen_fits_word_iff : encodeLen n < 2 ^ 32 ↔ n ≤ 0xBFFFFFFD := by
  have hmul : encodeLen n < 2 ^ 32 ↔ encodeLen n ≤ 4 * 0x3FFFFFFF := by
    rw [encodeLen_eq]; omega
  exact hmul.trans encodeLen_le_iff

end

/-- Settles O9: the laws of `encode_len` are those of the least number of groups, and `decode_len` undoes the factor. -/
theorem lengthLaws : Obligations.LengthLaws := by
  intro n
  have hgroups := decodeLen_encodeLen n
  refine ⟨rfl, rfl, fun _ => encodeLen_le_iff.symm, fun h => ⟨encodeLen_le_of_word h, decodeLen_le_of_word h⟩,
    Nat.mul_mod_left _ _, fun _ => encodeLen_mono, lt_encodeLen, hgroups, ?_, ?_, four_mul_decodeLen_le n⟩
  · rw [hgroups]; exact le_three_mul_encodeGroups n
  · rw [hgroups]; exact three_mul_encodeGroups_le n

/-! ### The two commands -/

section
variable {r : Nat}

theorem exec_encodeLen (s : State) : exec .encodeLen s = .next (finish (encodeLen s.lenN) s) := rfl

theorem exec_decodeLen (s : State) : exec .decodeLen s = .next (finish (decodeLen s.lenN) s) := rfl

/-- `Finish` of a number of 64 bits leaves RESULT_HI 0 exactly when the number fits RESULT_LO (60_exceptions.md R203). -/
theorem finish_resultHi_eq_zero_iff (h : r < 2 ^ 64) (s : State) : (finish r s).resultHi = 0#32 ↔ r < 2 ^ 32 := by
  rw [finish_resultHi, ← BitVec.toNat_inj, BitVec.toNat_ofNat, BitVec.toNat_ofNat]
  omega

/-- `Finish` of a number of 32 bits, as one update (60_exceptions.md R203). -/
theorem finish_eq_of_lt_word (h : r < 2 ^ 32) (s : State) : finish r s =
    { s with resultLo := BitVec.ofNat 32 r, resultHi := 0#32, status := s.status.finish,
             srcDisturbed := false, outDisturbed := [] } := by
  rw [finish_eq, Nat.div_eq_of_lt h]

end

/-- Settles O8: `Finish` keeps the 64 bits of a result, ENCODE_LEN's needs at most 33 of them and DECODE_LEN's 32. -/
theorem lengthResultsAreExact : Obligations.LengthResultsAreExact := by
  intro s
  constructor
  · have h64 := encodeLen_lt_two_words s
    have h33 := encodeLen_le_of_word (lenN_lt s)
    refine ⟨_, exec_encodeLen s, ?_, ?_, ?_⟩
    · rw [resultN_finish h64]; exact encodeLen_eq s.lenN
    · rw [resultN_finish h64]; omega
    · rw [Ne, finish_resultHi_eq_zero_iff h64, encodeLen_fits_word_iff]; exact Nat.not_le
  · have h32 := decodeLen_lt_word s
    have h64 : decodeLen s.lenN < 2 ^ 64 := h32.trans (by decide)
    refine ⟨_, exec_decodeLen s, ?_, (finish_resultHi_eq_zero_iff h64 s).2 h32⟩
    rw [resultN_finish h64]; exact Nat.mul_comm _ _

/-- Settles O6: the command only finishes, with `encode_len(n)`. -/
theorem encodeLenCompletes : Obligations.EncodeLenCompletes :=
  ⟨decode_eq_some_iff.2 rfl, exec_encodeLen⟩

/-- Settles O7: the command only finishes, with a `decode_len(n)` that fits RESULT_LO. -/
theorem decodeLenCompletes : Obligations.DecodeLenCompletes :=
  ⟨decode_eq_some_iff.2 rfl, fun s =>
    (exec_decodeLen s).trans (congrArg _ (finish_eq_of_lt_word (decodeLen_lt_word s) s))⟩

end Sys2Proof.Machine

/-! ## The encoder (41_encoder.md R130 to R137) -/

namespace Sys2Proof.Machine

/-! ### The group function -/

/-- The sextets as bit fields of the bytes (41_encoder.md R131). -/
theorem splitSextets_packBytes (b0 b1 b2 : Byte) : splitSextets (packBytes b0 b1 b2) =
    { s0 := b0.extractLsb' 2 6, s1 := b0.extractLsb' 0 2 ++ b1.extractLsb' 4 4,
      s2 := b1.extractLsb' 0 4 ++ b2.extractLsb' 6 2, s3 := b2.extractLsb' 0 6 } := by
  simp only [splitSextets, packBytes, Sextets.mk.injEq]
  refine ⟨?_, ?_, ?_, ?_⟩ <;>
  · apply BitVec.eq_of_getLsbD_eq
    intro i hi
    simp only [BitVec.getLsbD_append, BitVec.getLsbD_extractLsb']
    interval_cases i <;> simp

/-- Settles O12: the bytes that the group lacks are 0 in the bit fields. -/
theorem encodeGroupBits : Obligations.EncodeGroupBits := by
  intro p b0 b1 b2
  refine ⟨?_, ?_, ?_⟩ <;> simp [encGroup, splitSextets_packBytes, Config.padChar]

section
variable {k j n g : Nat}

/-- The group function reads no byte that the group lacks (41_encoder.md R134). -/
theorem encGroup_absent (p : Params) (b0 b1 b2 : Byte) (hk : k ≤ 3) :
    encGroup p b0 (if k ≥ 2 then b1 else 0#8) (if k = 3 then b2 else 0#8) k = encGroup p b0 b1 b2 k := by
  interval_cases k <;> rfl

/-- The first `k + 1` characters of a group are data (41_encoder.md R133). -/
theorem encGroup_data (p : Params) (b0 b1 b2 : Byte) (hj : j ≤ k) (hk : k ≤ 3) :
    ∃ v, (encGroup p b0 b1 b2 k)[j]? = some (alphabet p v) := by
  interval_cases k <;> interval_cases j <;> exact ⟨_, rfl⟩

/-- The last `3 - k` characters of a group are the pad (41_encoder.md R133). -/
theorem encGroup_pad (p : Params) (b0 b1 b2 : Byte) (hk : 1 ≤ k) (hkj : k < j) (hj : j < 4) :
    (encGroup p b0 b1 b2 k)[j]? = some Config.padChar := by
  interval_cases j <;> interval_cases k <;> rfl

theorem groupBytes_le_three (n g : Nat) : groupBytes n g ≤ 3 := Nat.min_le_left _ _

/-- No group is empty (41_encoder.md R130). -/
theorem one_le_groupBytes (hg : g < encodeGroups n) : 1 ≤ groupBytes n g := by
  have hn := group_lt hg
  unfold groupBytes; omega

theorem encodedGroup_eq_encGroup (p : Params) (m : Memory) (src n g : Nat) : encodedGroup p m src n g =
    encGroup p (m.read (src + 3 * g)) (m.read (src + 3 * g + 1)) (m.read (src + 3 * g + 2)) (groupBytes n g) :=
  encGroup_absent p _ _ _ (groupBytes_le_three n g)

/-- Where the pads of the output stand (41_encoder.md R137): only the final group has fewer than three bytes. -/
theorem groupBytes_lt_iff (hj : j < encodeLen n) : groupBytes n (j / 4) < j % 4 ↔
    (n % 3 = 1 ∧ encodeLen n ≤ j + 2) ∨ (n % 3 = 2 ∧ encodeLen n ≤ j + 1) := by
  unfold groupBytes encodeLen at *; omega

end

/-! ### The command -/

section
variable {s t : State} {g j : Nat}

/-- ENCODE leaves each group's characters at `dst + 4g`, but for bytes that the host wrote (41_encoder.md R135, 20_memory.md
R73). -/
theorem execEncode_group (hm : s.mem.wf = true) (hc : contractHolds .encode s) (hd : s.srcDisturbed = false)
    (ht : exec .encode s = .next t) (hg : g < encodeGroups s.lenN) (hj : j < 4)
    (ha : s.dstN + 4 * g + j ∉ s.outDisturbed) :
    (encodedGroup s.params s.mem s.srcN s.lenN g)[j]? = some (t.mem.read (s.dstN + 4 * g + j)) := by
  obtain rfl := next_inj ((execEncode_exact hc hd).symm.trans ht)
  obtain ⟨_, _, _, hdis⟩ := contractHolds_encode hc
  have hloop := read_encodeLoop (p := s.params) (g := 0) (i := g) hm (Nat.zero_add _).le (by simpa using hdis) hg hj
  rw [Nat.zero_add] at hloop
  rw [finish_mem, (redrawDisturbed_effect (s := s.setMem _) (encodeLoop_wf hm)).2 _ ha, State.setMem_mem, hloop,
    List.getElem?_eq_getElem]

/-- Output byte `j` of an undisturbed ENCODE is character `j % 4` of group `j / 4` (41_encoder.md R130, R133). -/
theorem execEncode_char (hm : s.mem.wf = true) (hc : contractHolds .encode s) (hu : s.undisturbed)
    (ht : exec .encode s = .next t) (hj : j < encodeLen s.lenN) :
    if groupBytes s.lenN (j / 4) < j % 4 then t.mem.read (s.dstN + j) = Config.padChar
    else ∃ v, t.mem.read (s.dstN + j) = alphabet s.params v := by
  obtain ⟨hsrc, hout⟩ := hu
  have hg : j / 4 < encodeGroups s.lenN := Nat.div_lt_of_lt_mul (encodeLen_eq s.lenN ▸ hj)
  have hj4 : j % 4 < 4 := Nat.mod_lt j (by decide)
  have hchar := execEncode_group hm hc hsrc ht hg hj4 (by simp [hout])
  rw [encodedGroup_eq_encGroup, Nat.add_assoc s.dstN, Nat.div_add_mod] at hchar
  split
  · next hpad =>
    rw [encGroup_pad _ _ _ _ (one_le_groupBytes hg) hpad hj4] at hchar
    exact (Option.some.inj hchar).symm
  · next hdata =>
    obtain ⟨v, hv⟩ := encGroup_data s.params (s.mem.read (s.srcN + 3 * (j / 4)))
      (s.mem.read (s.srcN + 3 * (j / 4) + 1)) (s.mem.read (s.srcN + 3 * (j / 4) + 2))
      (Nat.le_of_not_lt hdata) (groupBytes_le_three _ _)
    exact ⟨v, Option.some.inj (hchar.symm.trans hv)⟩

end

/-- Settles O15: a contract that holds leaves ENCODE the loop and `Finish`, and `encode_len(n)` fits DST_CAP, so one word. -/
theorem encodeCompletes : Obligations.EncodeCompletes := by
  intro s hm hc hd hin
  have ht := execEncode_exact hc hd
  obtain ⟨_, _, hcap, _⟩ := contractHolds_encode hc
  have h64 := encodeLen_lt_two_words s
  obtain ⟨hops, hsur⟩ := execEncode_keeps ht
  refine ⟨_, ht, rfl, resultN_finish h64 _, (finish_resultHi_eq_zero_iff h64 _).2 (hcap.trans_lt (capN_lt s)), rfl,
    fun g j hg hj ha => ?_, execEncode_outside hm hin ht, hops, hsur⟩
  have hgroup := execEncode_group hm hc hd ht hg hj ha
  rwa [encodedGroup_eq_encGroup] at hgroup

/-- Settles O16: a byte that is data is no pad, and the pads are counted by the bytes of the final group. -/
theorem encodeOutputShape : Obligations.EncodeOutputShape := by
  intro s hp hm hc hu
  obtain ⟨t, ht, _, hresult, _⟩ := encodeCompletes s hm hc hu.1 (by simp [disturbedInside, hu.2])
  refine ⟨t, ht, hresult, by rw [hresult]; exact Nat.mul_mod_left _ _, fun j hj => ?_⟩
  rw [hresult] at hj ⊢
  have hchar := execEncode_char hm hc hu ht hj
  rw [← groupBytes_lt_iff hj]
  split at hchar
  · next hpad => exact ⟨iff_of_true hchar hpad, fun hne => absurd hchar hne⟩
  · next hdata =>
    obtain ⟨v, hv⟩ := hchar
    exact ⟨iff_of_false (hv ▸ alphabet_ne_pad hp v) hdata, fun _ => ⟨v, hv⟩⟩

end Sys2Proof.Machine

/-! ## The decoder (42_decoder.md R160 to R171) -/

namespace Sys2Proof.Machine

/-! ### The group function -/

/-- The packed bytes as bit fields of the sextets (42_decoder.md R166). -/
theorem packedByte_fields (v0 v1 v2 v3 : Sextet) :
    packedByte ⟨v0, v1, v2, v3⟩ 0 = v0 ++ v1.extractLsb' 4 2 ∧
      packedByte ⟨v0, v1, v2, v3⟩ 1 = v1.extractLsb' 0 4 ++ v2.extractLsb' 2 4 ∧
      packedByte ⟨v0, v1, v2, v3⟩ 2 = v2.extractLsb' 0 2 ++ v3 := by
  simp only [packedByte, packSextets]
  refine ⟨?_, ?_, ?_⟩ <;>
  · apply BitVec.eq_of_getLsbD_eq
    intro i hi
    simp only [BitVec.getLsbD_append, BitVec.getLsbD_extractLsb']
    interval_cases i <;> simp

/-- Settles O13: a group scans to the error of its first character out of place, or to DONE, where it packs its sextets. -/
theorem decodeGroupFunction : Obligations.DecodeGroupFunction := by
  intro p c0 c1 c2 c3 final v0 v1 v2 v3
  refine ⟨fun h => ?_, fun h => ?_, fun h0 => ⟨fun h => ?_, fun h => ?_, fun h1 =>
    ⟨fun h hf => ?_, fun h => ?_, fun h2 => ⟨fun h hf => ?_, fun h => ?_⟩, fun h2 hf => ⟨fun h => ?_, fun h => ?_⟩⟩⟩,
    fun h0 h1 => ⟨fun h2 h3 => ?_, fun h2 h3 => ?_, fun h2 h3 => ?_⟩⟩
  · simp [decGroup_char1, h]
  · simp [decGroup_char1, h]
  · simp [decGroup_char2 h0, h]
  · simp [decGroup_char2 h0, h]
  · simp [decGroup_char3 h0 h1, h, hf]
  · simp [decGroup_char3 h0 h1, h]
  · simp [decGroup_char4 h0 h1 h2, h, hf]
  · simp [decGroup_char4 h0 h1 h2, h]
  · simp [decGroup_afterPad h0 h1 h2, h, hf]
  · simp [decGroup_afterPad h0 h1 h2, h, hf]
  · rw [decGroup_full h0 h1 h2 h3, closeGroup_full]; simp [packedByte_fields]
  · rw [decGroup_onePad h0 h1 h2 h3, closeGroup_onePad]; split <;> simp [packedByte_fields]
  · rw [decGroup_twoPads h0 h1 h2 h3, closeGroup_twoPads]; split <;> simp [packedByte_fields]

/-! ### The ends of the command -/

/-- What DECODE leaves when it accepts every group (42_decoder.md R169): each group's bytes at `dst + 3g`, and a RESULT that
counts them. RESULT is said in the encoder's terms (41_encoder.md R130): as many bytes as make the groups that were read, each
of its own count. -/
structure AcceptedEnd (s t : State) : Prop where
  status : t.status = { s.status with busy := false, done := true }
  resultHi : t.resultHi = 0#32
  errPos : t.errPos = s.errPos
  memCanonical : t.mem.wf = true
  groups : encodeGroups t.resultN = s.lenN / 4
  group : ∀ {g o0 o1 o2 cnt}, g < s.lenN / 4 →
    decodedGroup s.params s.mem s.srcN (s.lenN / 4) g = .ok o0 o1 o2 cnt → groupBytes t.resultN g = cnt
  byte : ∀ {g o0 o1 o2 cnt k}, g < s.lenN / 4 →
    decodedGroup s.params s.mem s.srcN (s.lenN / 4) g = .ok o0 o1 o2 cnt → k < cnt →
    s.dstN + 3 * g + k ∉ s.outDisturbed → [o0, o1, o2][k]? = some (t.mem.read (s.dstN + 3 * g + k))
  frame : ∀ a, a < s.dstN ∨ s.dstN + t.resultN ≤ a → a ∉ s.outDisturbed → t.mem.read a = s.mem.read a

section
variable {s t : State} {g i cnt n m : Nat} {o0 o1 o2 : Byte}

/-- Only the final group has fewer than three bytes (41_encoder.md R130). -/
theorem groupBytes_eq_three (hg : g + 1 < encodeGroups n) : groupBytes n g = 3 := by
  unfold groupBytes encodeGroups at *; omega

/-- A number of bytes is three for each group before the final one, and the final one's. -/
theorem eq_of_final_groupBytes (h : encodeGroups n = g + 1) : n = 3 * g + groupBytes n g := by
  unfold groupBytes encodeGroups at *; omega

/-- The bytes that the loop can write are apart from its input (20_memory.md R64). -/
theorem decode_loop_disjoint (hc : contractHolds .decode s) (hn : s.lenN % 4 = 0) :
    s.srcN + s.lenN ≤ s.dstN ∨ s.dstN + 3 * (s.lenN / 4) ≤ s.srcN := by
  have h := decode_buffers_disjoint hc hn
  unfold decodeGroups at h; omega

/-- The loop of DECODE over an input whose groups are all accepted (42_decoder.md R169), its total in the encoder's terms. -/
theorem decodeGroupsExact_of_accepted (hm : s.mem.wf = true) (hc : contractHolds .decode s) (hn : s.lenN % 4 = 0)
    (hok : allGroupsAccepted s) :
    ∃ total m, decodeGroupsExact s = finish total (redrawDisturbed (s.setMem m)) ∧ m.wf = true ∧
      encodeGroups total = s.lenN / 4 ∧ (∀ a, a < s.dstN ∨ s.dstN + total ≤ a → m.read a = s.mem.read a) ∧
      ∀ g o0 o1 o2 cnt, g < s.lenN / 4 → decodedGroup s.params s.mem s.srcN (s.lenN / 4) g = .ok o0 o1 o2 cnt →
        groupBytes total g = cnt ∧ ∀ k, k < cnt → [o0, o1, o2][k]? = some (m.read (s.dstN + 3 * g + k)) := by
  obtain ⟨total, m, e, hw, hnone, hcount, hother, hbytes⟩ := decodeLoop_all_ok (p := s.params) (n := s.lenN)
    (Nat.mul_div_le _ 4) (decode_loop_disjoint hc hn) (g := 0) (total := 0) hm (Nat.zero_add _) rfl
    (fun j hj => by rw [Nat.zero_add]; exact hok j hj)
  have hgroups : encodeGroups total = s.lenN / 4 := by
    rcases Nat.eq_zero_or_pos (s.lenN / 4) with h | h
    · rw [hnone h, h]; rfl
    · obtain ⟨o0, o1, o2, cnt, hg⟩ := hok (s.lenN / 4 - 1) (Nat.sub_lt h Nat.one_pos)
      have hcnt := decodedGroup_count hg
      have htotal := hcount o0 o1 o2 cnt h hg
      unfold encodeGroups; omega
  refine ⟨total, m, by rw [decodeGroupsExact, decodeGroups, e], hw, hgroups, hother, fun g o0 o1 o2 cnt hlt hg => ?_⟩
  obtain ⟨_, hle, hinner⟩ := decodedGroup_count hg
  constructor
  · by_cases hlast : g = s.lenN / 4 - 1
    · have htotal := hcount o0 o1 o2 cnt (by omega) (hlast ▸ hg)
      unfold groupBytes; omega
    · rw [hinner hlast, groupBytes_eq_three (by omega)]
  · intro k hk
    have hbyte := hbytes g o0 o1 o2 cnt hlt (by rwa [Nat.zero_add]) k (by simp; omega)
    rw [← Nat.zero_add g, hbyte, List.getElem_take, List.getElem?_eq_getElem]

/-- DECODE of an input that stood still, with its checks passed and every group accepted (42_decoder.md R169). -/
theorem execDecode_accepted (hm : s.mem.wf = true) (hc : contractHolds .decode s) (hn : s.lenN % 4 = 0)
    (hd : s.srcDisturbed = false) (hok : allGroupsAccepted s) : ∃ t, exec .decode s = .next t ∧ AcceptedEnd s t := by
  obtain ⟨total, m, e, hw, hgroups, hother, hgroup⟩ := decodeGroupsExact_of_accepted hm hc hn hok
  have hword : total < 2 ^ 32 := by
    have h3 := le_three_mul_encodeGroups total
    have h32 := lenN_lt s
    omega
  have hresult : (finish total (redrawDisturbed (s.setMem m))).resultN = total := resultN_finish (by omega) _
  have hmem := (redrawDisturbed_effect (s := s.setMem m) hw).2
  refine ⟨_, (execDecode_exact hc hn hd).trans (congrArg _ e),
    { status := rfl, errPos := rfl, memCanonical := Memory.fillAt_wf hw
      resultHi := (finish_resultHi_eq_zero_iff (by omega) _).2 hword
      groups := by rw [hresult]; exact hgroups
      group := fun hlt hg => by rw [hresult]; exact (hgroup _ _ _ _ _ hlt hg).1
      byte := fun hlt hg hk ha => by rw [finish_mem, hmem _ ha]; exact (hgroup _ _ _ _ _ hlt hg).2 _ hk
      frame := fun a ha hout => by rw [hresult] at ha; rw [finish_mem, hmem a hout]; exact hother a ha }⟩

/-- RESULT is three for each group before the final one, and the final group's count (42_decoder.md R169). -/
theorem AcceptedEnd.resultN_eq (h : AcceptedEnd s t) (h0 : 0 < s.lenN / 4)
    (hg : decodedGroup s.params s.mem s.srcN (s.lenN / 4) (s.lenN / 4 - 1) = .ok o0 o1 o2 cnt) :
    t.resultN = 3 * (s.lenN / 4 - 1) + cnt := by
  have hgroups : encodeGroups t.resultN = s.lenN / 4 - 1 + 1 := h.groups.trans (Nat.sub_add_cancel h0).symm
  rw [eq_of_final_groupBytes hgroups, h.group (Nat.sub_lt h0 Nat.one_pos) hg]

/-- A length that is no multiple of 4, when the host touched no buffer (42_decoder.md R161). -/
theorem execDecode_length_undisturbed (hc : contractHolds .decode s) (hn : s.lenN % 4 ≠ 0) (hu : s.undisturbed) :
    exec .decode s = .next (endWithError .length 0 s) := by
  rw [execDecode_length hc hn hu.1, redrawDisturbed_undisturbed hu.2]

/-- The first group at an error, of an input that stood still, ends DECODE (42_decoder.md R165). -/
theorem execDecode_first_error {cause : ErrCause} {pos : Nat} (hm : s.mem.wf = true) (hc : contractHolds .decode s)
    (hn : s.lenN % 4 = 0) (hd : s.srcDisturbed = false) (hlt : g < s.lenN / 4)
    (hok : ∀ g', g' < g → ∃ o0 o1 o2 cnt, decodedGroup s.params s.mem s.srcN (s.lenN / 4) g' = .ok o0 o1 o2 cnt)
    (he : decodedGroup s.params s.mem s.srcN (s.lenN / 4) g = .err cause pos) :
    exec .decode s = .next (endWithError cause (4 * g + pos) (scramble (needRangeOf .decode s) s)) := by
  have hloop := decodeLoop_first_error (p := s.params) (n := s.lenN) (g := 0) (total := 0) (i := g) hm (Nat.zero_add _)
    (Nat.mul_div_le _ 4) (decode_loop_disjoint hc hn) hlt (by simpa only [Nat.zero_add] using hok) (by rwa [Nat.zero_add])
  have hne : cause ≠ .length := by rcases (decodedGroup_err he).2 with rfl | rfl | rfl <;> decide
  rw [execDecode_exact hc hn hd, decodeGroupsExact, decodeGroups, hloop]
  simp only [Nat.zero_add, raiseDecodeError_content hne, needRangeOf_decode]

end

/-- Settles O17: an accepted DECODE ends as `AcceptedEnd` says, and its count is the final group's on top of the others. -/
theorem decodeCompletes : Obligations.DecodeCompletes := by
  intro s hm hc hn hd _ hok
  obtain ⟨t, ht, hend⟩ := execDecode_accepted hm hc hn hd hok
  refine ⟨t, ht, hend.status, hend.resultHi, hend.errPos, fun h0 => ?_,
    fun o0 o1 o2 cnt h0 => hend.resultN_eq (by omega), fun g o0 o1 o2 cnt k hlt hg => hend.byte hlt hg, hend.frame,
    execDecode_keeps ht⟩
  have hle := le_three_mul_encodeGroups t.resultN
  rw [hend.groups] at hle; omega

/-- Settles O18: the check of the length comes before any character, and there is no host write to redraw. -/
theorem decodeLengthError : Obligations.DecodeLengthError := fun _ hc hn hu =>
  execDecode_length_undisturbed hc hn hu

/-- Settles O19: the loop stops at the group, and the error leaves the need range free. -/
theorem decodeFirstErrorEnds : Obligations.DecodeFirstErrorEnds := by
  intro s g pos cause hm hc hn hd hlt hok he
  obtain ⟨hpos, hcause⟩ := decodedGroup_err he
  have ht := execDecode_first_error hm hc hn hd hlt hok he
  have hword := lenN_lt s
  refine ⟨_, ht, rfl, hcause, ?_, by omega, rfl, rfl, fun _ hi => read_fill_inside hm _ _ hi,
    fun _ ha => read_fill_outside hm _ _ ha, execDecode_keeps ht⟩
  rw [endWithError_errPos, BitVec.toNat_ofNat, Nat.mod_eq_of_lt (by omega)]

/-- Settles O20: the pads at the end are what the final group's count lacks of three. -/
theorem decodeCountAgainstPads : Obligations.DecodeCountAgainstPads := by
  intro s hp hm hc hn hu hok h0
  have hpos : 0 < s.lenN / 4 := by omega
  obtain ⟨t, ht, hend⟩ := execDecode_accepted hm hc hn hu.1 hok
  obtain ⟨o0, o1, o2, cnt, hg⟩ := hok (s.lenN / 4 - 1) (Nat.sub_lt hpos Nat.one_pos)
  obtain ⟨hpads, hfull⟩ := finalGroup_pads hp h0 hn hg
  have hresult : t.resultN + (3 - cnt) = decodeLen s.lenN := by
    have hcnt := decodedGroup_count hg
    rw [hend.resultN_eq hpos hg, decodeLen]; omega
  have hdone : t.status.done = true := by rw [hend.status]
  refine ⟨t, ht, hdone, hresult ▸ Nat.le_add_right _ _, ?_, ?_⟩
  · change cnt + (if s.mem.read (s.srcN + s.lenN - 1) = 0x3D#8 then 1 else 0) +
      (if s.mem.read (s.srcN + s.lenN - 2) = 0x3D#8 then 1 else 0) = 3 at hpads
    omega
  · rw [← show cnt = 3 ↔ s.mem.read (s.srcN + s.lenN - 1) ≠ 0x3D#8 from hfull]
    have hcnt := decodedGroup_count hg
    omega

/-! ### The outcome is a function of the input (42_decoder.md R171 (d)) -/

section
variable {p q : Params} {s s' t t' : State} {g i n m cnt : Nat} {o0 o1 o2 : Byte}

theorem mod_three_lt_groupBytes (hi : i < n) : i % 3 < groupBytes n (i / 3) := by
  unfold groupBytes; omega

theorem div_three_lt_encodeGroups (hi : i < n) : i / 3 < encodeGroups n := by
  unfold encodeGroups; omega

/-- The groups and the bytes of each make the number (41_encoder.md R130). -/
theorem eq_of_groupBytes (h : encodeGroups n = encodeGroups m)
    (hg : ∀ g, g < encodeGroups n → groupBytes n g = groupBytes m g) : n = m := by
  cases he : encodeGroups n with
  | zero => unfold encodeGroups at h he; omega
  | succ g =>
    calc n = 3 * g + groupBytes n g := eq_of_final_groupBytes he
      _ = 3 * g + groupBytes m g := by rw [hg g (he ▸ Nat.lt_succ_self g)]
      _ = m := (eq_of_final_groupBytes (h ▸ he)).symm

/-- Byte `i` of the output of an accepted DECODE is byte `i % 3` of group `i / 3` (42_decoder.md R169). -/
theorem AcceptedEnd.read (h : AcceptedEnd s t) (ho : s.outDisturbed = []) (hi : i < t.resultN)
    (hg : decodedGroup s.params s.mem s.srcN (s.lenN / 4) (i / 3) = .ok o0 o1 o2 cnt) :
    [o0, o1, o2][i % 3]? = some (t.mem.read (s.dstN + i)) := by
  have hlt : i / 3 < s.lenN / 4 := h.groups ▸ div_three_lt_encodeGroups hi
  have hk : i % 3 < cnt := h.group hlt hg ▸ mod_three_lt_groupBytes hi
  have hbyte := h.byte hlt hg hk (by simp [ho])
  rwa [Nat.add_assoc, Nat.div_add_mod] at hbyte

theorem reverse_congr (h62 : p.alpha62 = q.alpha62) (h63 : p.alpha63 = q.alpha63) (c : Byte) :
    reverse p c = reverse q c := by
  unfold reverse; rw [h62, h63]

theorem closeGroup_congr (hs : p.strictUnusedBits = q.strictUnusedBits) (r : Sextets) (cnt : Nat) :
    closeGroup p r cnt = closeGroup q r cnt := by
  unfold closeGroup; rw [hs]

/-- The scan reads the parameters through `Rv` and the unused-bits check alone (42_decoder.md R164, R167). -/
theorem decScan_congr (hs : p.strictUnusedBits = q.strictUnusedBits) (hr : ∀ c, reverse p c = reverse q c) (final : Bool)
    (cs : List Byte) (pos : Nat) (st : DecState) (r : Sextets) :
    decScan p final cs pos st r = decScan q final cs pos st r := by
  induction cs generalizing pos st r with
  | nil => cases st <;> simp only [decScan, closeGroup_congr hs]
  | cons c cs ih => simp only [decScan, hr, ih]

/-- What the outcome of DECODE is a function of (42_decoder.md R171 (d)): the length, the input's bytes, wherever they stand,
and the parameters of the decoder. -/
structure SameDecodeInput (s s' : State) : Prop where
  len : s.lenN = s'.lenN
  strict : s.params.strictUnusedBits = s'.params.strictUnusedBits
  alpha62 : s.params.alpha62 = s'.params.alpha62
  alpha63 : s.params.alpha63 = s'.params.alpha63
  bytes : ∀ i, i < s.lenN → s.mem.read (s.srcN + i) = s'.mem.read (s'.srcN + i)

theorem SameDecodeInput.group (h : SameDecodeInput s s') (hg : g < s.lenN / 4) :
    decodedGroup s.params s.mem s.srcN (s.lenN / 4) g = decodedGroup s'.params s'.mem s'.srcN (s'.lenN / 4) g := by
  have hb (j : Nat) (hj : j < 4) : s.mem.read (s.srcN + 4 * g + j) = s'.mem.read (s'.srcN + 4 * g + j) := by
    simpa only [Nat.add_assoc] using h.bytes (4 * g + j) (by omega)
  have h0 : s.mem.read (s.srcN + 4 * g) = s'.mem.read (s'.srcN + 4 * g) := hb 0 (by decide)
  unfold decodedGroup decGroup
  rw [h0, hb 1 (by decide), hb 2 (by decide), hb 3 (by decide), h.len,
    decScan_congr h.strict (reverse_congr h.alpha62 h.alpha63)]

theorem SameDecodeInput.accepted (h : SameDecodeInput s s') (hok : allGroupsAccepted s) : allGroupsAccepted s' :=
  fun g hg => by
    have hlt : g < s.lenN / 4 := by rw [h.len]; exact hg
    obtain ⟨o0, o1, o2, cnt, ho⟩ := hok g hlt
    exact ⟨o0, o1, o2, cnt, (h.group hlt).symm.trans ho⟩

/-- Two accepted DECODEs of one input write the same bytes. -/
theorem SameDecodeInput.output (h : SameDecodeInput s s') (hok : allGroupsAccepted s) (hend : AcceptedEnd s t)
    (hend' : AcceptedEnd s' t') (hu : s.undisturbed) (hu' : s'.undisturbed) :
    t.resultN = t'.resultN ∧ ∀ i, i < t.resultN → t.mem.read (s.dstN + i) = t'.mem.read (s'.dstN + i) := by
  have hresult : t.resultN = t'.resultN := by
    refine eq_of_groupBytes (by rw [hend.groups, hend'.groups, h.len]) fun g hg => ?_
    rw [hend.groups] at hg
    obtain ⟨o0, o1, o2, cnt, ho⟩ := hok g hg
    rw [hend.group hg ho, hend'.group (h.len ▸ hg) ((h.group hg).symm.trans ho)]
  refine ⟨hresult, fun i hi => ?_⟩
  have hg : i / 3 < s.lenN / 4 := hend.groups ▸ div_three_lt_encodeGroups hi
  obtain ⟨o0, o1, o2, cnt, ho⟩ := hok _ hg
  exact Option.some.inj
    ((hend.read hu.2 hi ho).symm.trans (hend'.read hu'.2 (hresult ▸ hi) ((h.group hg).symm.trans ho)))

end

/-- Settles O21: equal groups give equal answers, so the two runs are both in LENGTH, both at the same first error, or both
accepted with the same bytes. -/
theorem decodeIsDeterminedByInput : Obligations.DecodeIsDeterminedByInput := by
  intro s s' hm hm' hc hc' hu hu' hcons hbusy hstatus hlen hstrict h62 h63 hbytes
  have hin : SameDecodeInput s s' := ⟨congrArg BitVec.toNat hlen, hstrict, h62, h63, hbytes⟩
  obtain ⟨hdone, herr, _⟩ := hcons.1.1 hbusy
  have notDone {u : State} (hd : u.status.done = s.status.done) (h : u.status.done = true) : False := by
    rw [hd, hdone] at h; cases h
  by_cases hn : s.lenN % 4 = 0
  · have hn' : s'.lenN % 4 = 0 := hin.len ▸ hn
    rcases accepted_or_first_error s.params s.mem s.srcN (s.lenN / 4) (s.lenN / 4) with
      hok | ⟨g, cause, pos, hlt, hok, he⟩
    · obtain ⟨t, ht, hend⟩ := execDecode_accepted hm hc hn hu.1 hok
      obtain ⟨t', ht', hend'⟩ := execDecode_accepted hm' hc' hn' hu'.1 (hin.accepted hok)
      obtain ⟨hresult, hout⟩ := hin.output hok hend hend' hu hu'
      refine ⟨t, t', ht, ht', by rw [hend.status, hend'.status, hstatus], hresult, fun h => ?_, fun _ => hout⟩
      rw [hend.status, herr] at h; cases h
    · have hok' (g' : Nat) (hg' : g' < g) :
          ∃ o0 o1 o2 cnt, decodedGroup s'.params s'.mem s'.srcN (s'.lenN / 4) g' = .ok o0 o1 o2 cnt := by
        rw [← hin.group (hg'.trans hlt)]; exact hok g' hg'
      exact ⟨_, _, execDecode_first_error hm hc hn hu.1 hlt hok he,
        execDecode_first_error hm' hc' hn' hu'.1 (hin.len ▸ hlt) hok' ((hin.group hlt).symm.trans he),
        congrArg (Status.raiseError · cause) hstatus, rfl, fun _ => rfl, fun h => (notDone rfl h).elim⟩
  · exact ⟨_, _, execDecode_length_undisturbed hc hn hu, execDecode_length_undisturbed hc' (hin.len ▸ hn) hu',
      congrArg (Status.raiseError · .length) hstatus, rfl, fun _ => rfl, fun h => (notDone rfl h).elim⟩

/-! ### DECODE after ENCODE (42_decoder.md R171 (a)) -/

/-- The four bytes from an address on. -/
def Memory.bytes4 (m : Memory) (a : Nat) : List Byte := [m.read a, m.read (a + 1), m.read (a + 2), m.read (a + 3)]

theorem Memory.bytes4_getElem? {m : Memory} {a j : Nat} (hj : j < 4) : (m.bytes4 a)[j]? = some (m.read (a + j)) := by
  interval_cases j <;> rfl

theorem Memory.bytes3_getElem? {m : Memory} {a j : Nat} (hj : j < 3) :
    [m.read a, m.read (a + 1), m.read (a + 2)][j]? = some (m.read (a + j)) := by
  interval_cases j <;> rfl

/-! The characters of a group, by how many bytes it has (41_encoder.md R133). -/

theorem encGroup_three (p : Params) (b0 b1 b2 : Byte) : encGroup p b0 b1 b2 3 =
    [alphabet p (splitSextets (packBytes b0 b1 b2)).s0, alphabet p (splitSextets (packBytes b0 b1 b2)).s1,
      alphabet p (splitSextets (packBytes b0 b1 b2)).s2, alphabet p (splitSextets (packBytes b0 b1 b2)).s3] := rfl

theorem encGroup_two (p : Params) (b0 b1 b2 : Byte) : encGroup p b0 b1 b2 2 =
    [alphabet p (splitSextets (packBytes b0 b1 0#8)).s0, alphabet p (splitSextets (packBytes b0 b1 0#8)).s1,
      alphabet p (splitSextets (packBytes b0 b1 0#8)).s2, Config.padChar] := rfl

theorem encGroup_one (p : Params) (b0 b1 b2 : Byte) : encGroup p b0 b1 b2 1 =
    [alphabet p (splitSextets (packBytes b0 0#8 0#8)).s0, alphabet p (splitSextets (packBytes b0 0#8 0#8)).s1,
      Config.padChar, Config.padChar] := rfl

section
variable {p : Params} {s t u : State} {b0 b1 b2 c0 c1 c2 c3 : Byte} {k g : Nat} {final : Bool}

/-- The decoder accepts every group that the encoder makes, with zero unused bits (41_encoder.md R131, R133). -/
theorem accepts_of_encGroup (hp : p.wellFormed = true) (h1 : 1 ≤ k) (h3 : k ≤ 3) (hf : k < 3 → final = true)
    (he : encGroup p b0 b1 b2 k = [c0, c1, c2, c3]) :
    Accepts p c0 c1 c2 c3 final
      (splitSextets (packBytes b0 (if k < 2 then 0#8 else b1) (if k < 3 then 0#8 else b2))) k := by
  have hdata := reverse_alphabet hp
  have hpad := reverse_pad hp
  obtain rfl | rfl | rfl : k = 1 ∨ k = 2 ∨ k = 3 := by omega
  · obtain ⟨hbits, hs2, hs3⟩ := unused_four b0
    change Accepts p c0 c1 c2 c3 final (splitSextets (packBytes b0 0#8 0#8)) 1
    rw [encGroup_one] at he
    generalize splitSextets (packBytes b0 0#8 0#8) = r at *
    obtain ⟨v0, v1, v2, v3⟩ := r
    subst hs2 hs3
    cases he
    exact .twoPads (hdata v0) (hdata v1) hpad hpad (hf (by decide)) fun _ => hbits
  · obtain ⟨hbits, hs3⟩ := unused_two b0 b1
    change Accepts p c0 c1 c2 c3 final (splitSextets (packBytes b0 b1 0#8)) 2
    rw [encGroup_two] at he
    generalize splitSextets (packBytes b0 b1 0#8) = r at *
    obtain ⟨v0, v1, v2, v3⟩ := r
    subst hs3
    cases he
    exact .onePad (hdata v0) (hdata v1) (hdata v2) hpad (hf (by decide)) fun _ => hbits
  · rw [encGroup_three] at he
    cases he
    exact .full (hdata _) (hdata _) (hdata _) (hdata _)

/-- The group function undoes the encoder's, on the bytes that the group has (42_decoder.md R171 (a)). -/
theorem decGroup_of_encGroup (hp : p.wellFormed = true) (h1 : 1 ≤ k) (h3 : k ≤ 3) (hf : k < 3 → final = true)
    (he : encGroup p b0 b1 b2 k = [c0, c1, c2, c3]) :
    decGroup p c0 c1 c2 c3 final = .ok b0 (if k < 2 then 0#8 else b1) (if k < 3 then 0#8 else b2) k := by
  obtain ⟨e0, e1, e2⟩ := packedByte_split b0 (if k < 2 then 0#8 else b1) (if k < 3 then 0#8 else b2)
  rw [decGroup_ok_of_accepts (accepts_of_encGroup hp h1 h3 hf he), e0, e1, e2]

/-- The four characters that an undisturbed ENCODE leaves of a group (41_encoder.md R135). -/
theorem execEncode_chars (hm : s.mem.wf = true) (hc : contractHolds .encode s) (hu : s.undisturbed)
    (ht : exec .encode s = .next t) (hg : g < encodeGroups s.lenN) :
    encGroup s.params (s.mem.read (s.srcN + 3 * g)) (s.mem.read (s.srcN + 3 * g + 1)) (s.mem.read (s.srcN + 3 * g + 2))
        (groupBytes s.lenN g) =
      t.mem.bytes4 (s.dstN + 4 * g) := by
  refine List.ext_getElem? fun j => ?_
  by_cases hj : j < 4
  · have hchar := execEncode_group hm hc hu.1 ht hg hj (by simp [hu.2])
    rw [encodedGroup_eq_encGroup] at hchar
    rw [hchar, Memory.bytes4_getElem? hj]
  · simp [Memory.bytes4, Nat.le_of_not_lt hj]

/-- DECODE accepts each group of the output of ENCODE, and yields the bytes it was made of (42_decoder.md R171 (a)). -/
theorem decodedGroup_of_execEncode (hp : s.params.wellFormed = true) (hm : s.mem.wf = true)
    (hc : contractHolds .encode s) (hu : s.undisturbed) (ht : exec .encode s = .next t) (hg : g < encodeGroups s.lenN) :
    decodedGroup s.params t.mem s.dstN (encodeGroups s.lenN) g =
      .ok (s.mem.read (s.srcN + 3 * g)) (if groupBytes s.lenN g < 2 then 0#8 else s.mem.read (s.srcN + 3 * g + 1))
        (if groupBytes s.lenN g < 3 then 0#8 else s.mem.read (s.srcN + 3 * g + 2)) (groupBytes s.lenN g) := by
  refine decGroup_of_encGroup hp (one_le_groupBytes hg) (groupBytes_le_three _ _) (fun h => ?_)
    (execEncode_chars hm hc hu ht hg)
  refine decide_eq_true (Classical.byContradiction fun hne => ?_)
  rw [groupBytes_eq_three (by omega)] at h
  exact absurd h (by decide)

/-- The bytes that a group has are not the zeros of the padding (41_encoder.md R131). -/
theorem maskedBytes_getElem? (b0 b1 b2 : Byte) {j : Nat} (hj : j < k) (hk : k ≤ 3) :
    [b0, if k < 2 then 0#8 else b1, if k < 3 then 0#8 else b2][j]? = [b0, b1, b2][j]? := by
  interval_cases k <;> interval_cases j <;> rfl

theorem execEncode_exact_mem_wf (hm : s.mem.wf = true) (hc : contractHolds .encode s) (hd : s.srcDisturbed = false)
    (ht : exec .encode s = .next t) : t.mem.wf = true := by
  obtain rfl := next_inj ((execEncode_exact hc hd).symm.trans ht)
  exact Memory.fillAt_wf (encodeLoop_wf hm)

end

/-- Settles O22: the groups of the two commands are the same, each with its bytes. -/
theorem decodeInvertsEncode : Obligations.DecodeInvertsEncode := by
  intro s t u hp hm hc hu ht hparams hmem hsrc hlen hcu huu
  have hgroups : u.lenN / 4 = encodeGroups s.lenN := by
    rw [hlen, encodeLen_eq, Nat.mul_div_cancel_left _ (by decide)]
  have hn : u.lenN % 4 = 0 := by rw [hlen]; exact Nat.mul_mod_left _ _
  have hsrcN : u.srcN = s.dstN := congrArg BitVec.toNat hsrc
  have hsame : u.params = s.params := hparams.trans (execEncode_keeps ht).2.1
  have hgroup {g} (hg : g < u.lenN / 4) := decodedGroup_of_execEncode hp hm hc hu ht (hgroups ▸ hg)
  rw [← hgroups, ← hsrcN, ← hmem, ← hsame] at hgroup
  obtain ⟨v, hv, hend⟩ := execDecode_accepted (hmem ▸ execEncode_exact_mem_wf hm hc hu.1 ht) hcu hn huu.1
    fun _ hg => ⟨_, _, _, _, hgroup hg⟩
  have hresult : v.resultN = s.lenN := eq_of_groupBytes (hend.groups.trans hgroups) fun g hg =>
    have hg' : g < u.lenN / 4 := hend.groups ▸ hg
    hend.group hg' (hgroup hg')
  refine ⟨v, hv, hend.status, hresult, fun i hi => ?_⟩
  have hread := hend.read huu.2 (hresult ▸ hi) (hgroup (hgroups ▸ div_three_lt_encodeGroups hi))
  rw [maskedBytes_getElem? _ _ _ (mod_three_lt_groupBytes hi) (groupBytes_le_three _ _),
    Memory.bytes3_getElem? (Nat.mod_lt i (by decide)), Nat.add_assoc, Nat.div_add_mod] at hread
  exact (Option.some.inj hread).symm

/-! ### ENCODE after DECODE (42_decoder.md R171 (b), (c)) -/

/-- What ENCODE makes of the bytes of a group that DECODE accepted (42_decoder.md R171 (b), (c)): its characters, or, of a
padded group whose unused bits are not checked, characters that differ in those bits of the last data character. -/
inductive Reencodes (p : Params) (final : Bool) : List Byte → List Byte → Prop where
  | same (cs : List Byte) : Reencodes p final cs cs
  | onePad {c0 c1 : Byte} {a b : Sextet} (hl : p.strictUnusedBits = false) (hf : final = true)
      (hab : a.extractLsb' 2 4 = b.extractLsb' 2 4) :
      Reencodes p final [c0, c1, alphabet p a, Config.padChar] [c0, c1, alphabet p b, Config.padChar]
  | twoPads {c0 : Byte} {a b : Sextet} (hl : p.strictUnusedBits = false) (hf : final = true)
      (hab : a.extractLsb' 4 2 = b.extractLsb' 4 2) :
      Reencodes p final [c0, alphabet p a, Config.padChar, Config.padChar]
        [c0, alphabet p b, Config.padChar, Config.padChar]

section
variable {p : Params} {s t u : State} {b0 b1 b2 d0 d1 d2 c0 c1 c2 c3 : Byte} {cs ds : List Byte} {k g j cnt : Nat}
  {final : Bool} {r : Sextets}

theorem Reencodes.eq_of_strict (h : Reencodes p final cs ds) (hs : p.strictUnusedBits = true) : cs = ds := by
  cases h with
  | same => rfl
  | onePad hl => rw [hs] at hl; cases hl
  | twoPads hl => rw [hs] at hl; cases hl

/-- The one character that can differ stands before the pads of the final group. -/
theorem Reencodes.char (h : Reencodes p final cs ds) (hj : j < 4) :
    cs[j]? = ds[j]? ∨ ∃ a b, cs[j]? = some (alphabet p a) ∧ ds[j]? = some (alphabet p b) ∧ final = true ∧
      cs[j + 1]? = some Config.padChar ∧
      ((j = 2 ∧ a.extractLsb' 2 4 = b.extractLsb' 2 4) ∨ (j = 1 ∧ a.extractLsb' 4 2 = b.extractLsb' 4 2)) := by
  cases h with
  | same => exact .inl rfl
  | onePad _ hf hab =>
    obtain rfl | rfl | rfl | rfl : j = 0 ∨ j = 1 ∨ j = 2 ∨ j = 3 := by omega
    · exact .inl rfl
    · exact .inl rfl
    · exact .inr ⟨_, _, rfl, rfl, hf, rfl, .inl ⟨rfl, hab⟩⟩
    · exact .inl rfl
  | twoPads _ hf hab =>
    obtain rfl | rfl | rfl | rfl : j = 0 ∨ j = 1 ∨ j = 2 ∨ j = 3 := by omega
    · exact .inl rfl
    · exact .inr ⟨_, _, rfl, rfl, hf, rfl, .inr ⟨rfl, hab⟩⟩
    · exact .inl rfl
    · exact .inl rfl

/-- Sextets with zero unused bits come back whole from the two bytes of a group with one pad. -/
theorem splitSextets_two_of_unused (h2 : r.s2.extractLsb' 0 2 = 0#2) (h3 : r.s3 = 0#6) :
    splitSextets (packBytes (packedByte r 0) (packedByte r 1) 0#8) = r := by
  rw [← packedByte_zero_of_unused_two h2 h3, packBytes_packedByte, splitSextets_packSextets]

/-- Sextets with zero unused bits come back whole from the one byte of a group with two pads. -/
theorem splitSextets_one_of_unused (h1 : r.s1.extractLsb' 0 4 = 0#4) (h2 : r.s2 = 0#6) (h3 : r.s3 = 0#6) :
    splitSextets (packBytes (packedByte r 0) 0#8 0#8) = r := by
  obtain ⟨e1, e2⟩ := packedByte_zero_of_unused_four h1 h2 h3
  calc splitSextets (packBytes (packedByte r 0) 0#8 0#8)
      = splitSextets (packBytes (packedByte r 0) (packedByte r 1) (packedByte r 2)) := by rw [e1, e2]
    _ = r := by rw [packBytes_packedByte, splitSextets_packSextets]

/-- The encoder undoes the group function, up to unused bits that are not checked (42_decoder.md R171 (b), (c)). -/
theorem reencodes_of_accepts (ha : Accepts p c0 c1 c2 c3 final r cnt) :
    Reencodes p final [c0, c1, c2, c3] (encGroup p (packedByte r 0) (packedByte r 1) (packedByte r 2) cnt) := by
  cases ha with
  | @full v0 v1 v2 v3 h0 h1 h2 h3 =>
    obtain rfl := alphabet_of_reverse h0
    obtain rfl := alphabet_of_reverse h1
    obtain rfl := alphabet_of_reverse h2
    obtain rfl := alphabet_of_reverse h3
    rw [encGroup_three, packBytes_packedByte, splitSextets_packSextets]
    exact .same _
  | @onePad v0 v1 v2 h0 h1 h2 h3 hf hu =>
    obtain rfl := alphabet_of_reverse h0
    obtain rfl := alphabet_of_reverse h1
    obtain rfl := alphabet_of_reverse h2
    obtain rfl := eq_pad_of_reverse h3
    rw [encGroup_two]
    cases hs : p.strictUnusedBits with
    | true =>
      rw [splitSextets_two_of_unused (hu hs) rfl]
      exact .same _
    | false =>
      obtain ⟨e0, e1, hbits⟩ := splitSextets_two ⟨v0, v1, v2, 0#6⟩
      rw [e0, e1]
      exact .onePad hs hf hbits
  | @twoPads v0 v1 h0 h1 h2 h3 hf hu =>
    obtain rfl := alphabet_of_reverse h0
    obtain rfl := alphabet_of_reverse h1
    obtain rfl := eq_pad_of_reverse h2
    obtain rfl := eq_pad_of_reverse h3
    rw [encGroup_one]
    cases hs : p.strictUnusedBits with
    | true =>
      rw [splitSextets_one_of_unused (hu hs) rfl rfl]
      exact .same _
    | false =>
      obtain ⟨e0, hbits⟩ := splitSextets_one ⟨v0, v1, 0#6, 0#6⟩
      rw [e0]
      exact .twoPads hs hf hbits

/-- The encoder reads no byte that a group lacks (41_encoder.md R134). -/
theorem encGroup_congr (h1 : 1 ≤ k) (h3 : k ≤ 3) (h : ∀ j, j < k → [b0, b1, b2][j]? = [d0, d1, d2][j]?) :
    encGroup p b0 b1 b2 k = encGroup p d0 d1 d2 k := by
  obtain rfl : b0 = d0 := by simpa using h 0 h1
  obtain rfl | rfl | rfl : k = 1 ∨ k = 2 ∨ k = 3 := by omega
  · rfl
  · obtain rfl : b1 = d1 := by simpa using h 1 (by decide)
    rfl
  · obtain rfl : b1 = d1 := by simpa using h 1 (by decide)
    obtain rfl : b2 = d2 := by simpa using h 2 (by decide)
    rfl

/-- A DECODE that succeeds had a length that is a multiple of 4, and accepted every group (42_decoder.md R169). -/
theorem acceptedEnd_of_done (hm : s.mem.wf = true) (hc : contractHolds .decode s) (hu : s.undisturbed)
    (hidle : s.status.done = false) (ht : exec .decode s = .next t) (hdone : t.status.done = true) :
    s.lenN % 4 = 0 ∧ allGroupsAccepted s ∧ AcceptedEnd s t := by
  have noError {c pos u} (e : exec .decode s = .next (endWithError c pos u)) (hs : u.status = s.status) : False := by
    obtain rfl := next_inj (e.symm.trans ht)
    rw [endWithError_status, hs] at hdone
    exact absurd (hidle.symm.trans hdone) (by decide)
  by_cases hn : s.lenN % 4 = 0
  · rcases accepted_or_first_error s.params s.mem s.srcN (s.lenN / 4) (s.lenN / 4) with
      hok | ⟨g, cause, pos, hlt, hok, he⟩
    · obtain ⟨t', ht', hend⟩ := execDecode_accepted hm hc hn hu.1 hok
      exact ⟨hn, hok, next_inj (ht'.symm.trans ht) ▸ hend⟩
    · exact (noError (execDecode_first_error hm hc hn hu.1 hlt hok he) rfl).elim
  · exact (noError (execDecode_length_undisturbed hc hn hu) rfl).elim

/-- ENCODE of what an accepted DECODE wrote: as many characters as DECODE read, group by group (42_decoder.md R171 (b),
(c)). -/
theorem execEncode_of_decoded (hok : allGroupsAccepted s) (hn : s.lenN % 4 = 0) (hend : AcceptedEnd s t)
    (hu : s.outDisturbed = []) (hparams : u.params = s.params) (hmem : u.mem = t.mem) (hsrc : u.srcN = s.dstN)
    (hlen : u.lenN = t.resultN) (hcu : contractHolds .encode u) (huu : u.undisturbed) :
    ∃ v, exec .encode u = .next v ∧ v.status = { u.status with busy := false, done := true } ∧ v.resultN = s.lenN ∧
      ∀ g, g < s.lenN / 4 → Reencodes s.params (decide (g = s.lenN / 4 - 1)) (s.mem.bytes4 (s.srcN + 4 * g))
        (v.mem.bytes4 (u.dstN + 4 * g)) := by
  have hm : u.mem.wf = true := hmem ▸ hend.memCanonical
  have hgroups : encodeGroups u.lenN = s.lenN / 4 := hlen ▸ hend.groups
  obtain ⟨v, hv, hstatus, hresult, _⟩ := encodeCompletes u hm hcu huu.1 (by simp [disturbedInside, huu.2])
  refine ⟨v, hv, hstatus, ?_, fun g hg => ?_⟩
  · rw [hresult, encodeLen_eq, hgroups]; omega
  · obtain ⟨o0, o1, o2, cnt, ho⟩ := hok g hg
    obtain ⟨r, ha, rfl, rfl, rfl⟩ := accepts_of_decGroup_ok ho
    obtain ⟨h1, h3, _⟩ := decodedGroup_count ho
    have hchars : encGroup s.params (packedByte r 0) (packedByte r 1) (packedByte r 2) cnt =
        v.mem.bytes4 (u.dstN + 4 * g) := by
      have hv4 := execEncode_chars hm hcu huu hv (hgroups ▸ hg)
      rw [hlen, hend.group hg ho, hparams, hmem, hsrc] at hv4
      refine (encGroup_congr h1 h3 fun j hj => ?_).trans hv4
      rw [Memory.bytes3_getElem? (by omega)]
      exact hend.byte hg ho hj (by simp [hu])
    rw [← hchars]
    exact reencodes_of_accepts ha

end

/-- Settles O23: with the unused bits checked, the encoder gives every group back. -/
theorem encodeInvertsStrictDecode : Obligations.EncodeInvertsStrictDecode := by
  intro s t u _ hstrict hm hc hu hidle ht hdone hparams hmem hsrc hlen hcu huu
  obtain ⟨hn, hok, hend⟩ := acceptedEnd_of_done hm hc hu hidle ht hdone
  obtain ⟨v, hv, hstatus, hresult, hgroup⟩ := execEncode_of_decoded hok hn hend hu.2
    (hparams.trans (execDecode_keeps ht).2.1) hmem (congrArg BitVec.toNat hsrc) hlen hcu huu
  refine ⟨v, hv, hstatus, hresult, fun i hi => ?_⟩
  have hsame := congrArg (·[i % 4]?) ((hgroup (i / 4) (by omega)).eq_of_strict hstrict)
  simp only [Memory.bytes4_getElem? (Nat.mod_lt i (by decide)), Nat.add_assoc, Nat.div_add_mod] at hsame
  exact (Option.some.inj hsame).symm

/-- Settles O24: only the character before the pads of the final group can differ, in the unused bits of its sextet. -/
theorem encodeInvertsLenientDecode : Obligations.EncodeInvertsLenientDecode := by
  intro s t u _ _ hm hc hu hidle ht hdone hparams hmem hsrc hlen hcu huu
  obtain ⟨hn, hok, hend⟩ := acceptedEnd_of_done hm hc hu hidle ht hdone
  obtain ⟨v, hv, hstatus, hresult, hgroup⟩ := execEncode_of_decoded hok hn hend hu.2
    (hparams.trans (execDecode_keeps ht).2.1) hmem (congrArg BitVec.toNat hsrc) hlen hcu huu
  refine ⟨v, hv, hstatus, hresult, fun i hi => ?_⟩
  have hj : i % 4 < 4 := Nat.mod_lt i (by decide)
  have hchar := (hgroup (i / 4) (by omega)).char hj
  simp only [Memory.bytes4_getElem? hj, Nat.add_assoc, Nat.div_add_mod, Option.some.injEq, decide_eq_true_eq] at hchar
  rcases hchar with h | ⟨a, b, ha, hb, hfinal, hpad, hbits⟩
  · exact .inl h.symm
  · have hnext : s.mem.read (s.srcN + i + 1) = Config.padChar := by
      have hj' : i % 4 + 1 < 4 := by omega
      rw [Memory.bytes4_getElem? hj'] at hpad
      rw [← Option.some.inj hpad]; congr 1; omega
    refine .inr ⟨a, b, ha, hb, ?_⟩
    rcases hbits with ⟨h, hab⟩ | ⟨h, hab⟩
    · exact .inl ⟨by omega, hnext, hab⟩
    · exact .inr ⟨by omega, hnext, hab⟩

end Sys2Proof.Machine

/-! ## The ends of a command, and whose turn it is (60_exceptions.md R202, R207, R209, R220) -/

namespace Sys2Proof.Machine

/-! ### The contract check -/

/-- The arithmetic of OVERLAP says that the buffers share an address (60_exceptions.md R207). -/
theorem exists_shared_address_iff {src n dst cap : Nat} :
    (∃ a, (src ≤ a ∧ a < src + n) ∧ dst ≤ a ∧ a < dst + cap) ↔ n > 0 ∧ cap > 0 ∧ src < dst + cap ∧ dst < src + n := by
  constructor
  · rintro ⟨a, _, _⟩; omega
  · intro _; exact ⟨max src dst, by omega⟩

/-- A contract that fails ends the command in its fault, with no memory touched (60_exceptions.md R206, R207). -/
theorem exec_fault_undisturbed {s : State} {i : Instr} {c : FaultCause} (hi : i = .encode ∨ i = .decode)
    (hc : contractOf i s = some c) (hu : s.undisturbed) : exec i s = .next (raiseContractFault c s) := by
  rw [exec_fault hi hc hu.1, redrawDisturbed_undisturbed hu.2]

/-- Settles O14: each branch of the check is one of the five regions of the operands, and its fault ends the command before
anything else. -/
theorem contractCheck : Obligations.ContractCheck := by
  refine ⟨fun p src n dst cap need => ?_, fun s c hu => ⟨fun hc => ?_, fun hc => ?_⟩⟩
  · simp only [exists_shared_address_iff, checkContract]
    split_ifs <;> simp only [reduceCtorEq, Option.some.injEq, true_iff, false_iff] <;> omega
  · exact exec_fault_undisturbed (.inl rfl) hc hu
  · exact exec_fault_undisturbed (.inr rfl) hc hu

/-! ### The outcomes of a command -/

/-- The flags from `st` after an outcome of the command's row (60_exceptions.md R202). -/
inductive RowOutcome (i : Instr) (st : Status) : Status → Prop where
  | success : RowOutcome i st st.finish
  | fault (hi : i = .encode ∨ i = .decode) {c : FaultCause} (hc : c ≠ .none) : RowOutcome i st (st.raiseFault c)
  | error (hi : i = .decode) {c : ErrCause} (hc : c = .length ∨ c = .badChar ∨ c = .badPad ∨ c = .nonCanon) :
      RowOutcome i st (st.raiseError c)

section
variable {s : State} {i : Instr} {st st' : Status}

theorem RowOutcome.contractFault {c : FaultCause} (hi : i = .encode ∨ i = .decode) (hc : contractOf i s = some c) :
    RowOutcome i st (st.raiseFault c) := .fault hi (contractOf_ne_none hc)

theorem execEncode_outcome (s : State) : ∃ t, exec .encode s = .next t ∧ RowOutcome .encode s.status t.status := by
  rcases execEncode_cases s with ⟨_, e⟩ | ⟨c, hc, _, e⟩ | ⟨_, _, e⟩ <;> refine ⟨_, e, ?_⟩
  · rcases encodeDisturbed_cases s with ⟨_, e⟩ | ⟨c, k, hc, e | ⟨_, e⟩⟩ <;> rw [e]
    · exact .success
    · exact .contractFault (.inl rfl) hc
    · exact .success
  · exact .contractFault (.inl rfl) hc
  · exact .success

theorem execDecode_outcome (s : State) : ∃ t, exec .decode s = .next t ∧ RowOutcome .decode s.status t.status := by
  rcases execDecode_cases s with ⟨_, e⟩ | ⟨c, hc, _, e⟩ | ⟨_, _, _, e⟩ | ⟨_, _, _, e⟩ <;> refine ⟨_, e, ?_⟩
  · obtain ⟨k, ⟨c, hc, e⟩ | ⟨_, _, e⟩ | ⟨r, _, e⟩ | ⟨c, pos, hc, _, e⟩⟩ := decodeDisturbed_cases s <;> rw [e]
    · exact .contractFault (.inr rfl) hc
    · exact .error rfl (.inl rfl)
    · exact .success
    · exact .error rfl (.inr hc)
  · exact .contractFault (.inr rfl) hc
  · exact .error rfl (.inl rfl)
  · rcases decodeGroupsExact_ends s with ⟨c, pos, hc, e⟩ | ⟨total, m, e⟩ <;> rw [e]
    · exact .error rfl (.inr hc)
    · exact .success

/-- Every command answers a next state with an outcome of its row (60_exceptions.md R202). -/
theorem exec_outcome (i : Instr) (s : State) : ∃ t, exec i s = .next t ∧ RowOutcome i s.status t.status := by
  cases i with
  | encode => exact execEncode_outcome s
  | decode => exact execDecode_outcome s
  | encodeLen => exact ⟨_, rfl, .success⟩
  | decodeLen => exact ⟨_, rfl, .success⟩

/-- An outcome of a running command leaves BUSY 0 and meets the rules about STATUS (10_state.md R27). -/
theorem RowOutcome.consistent (h : RowOutcome i st st') (hs : st.consistent) (hb : st.busy = true) :
    st'.consistent ∧ st'.busy = false := by
  obtain rfl := Status.consistent_busy hs hb
  cases h with
  | success => simp [Status.finish, Status.consistent, Status.idle]
  | fault _ hc => simpa [Status.raiseFault, Status.consistent, Status.idle] using hc
  | @error _ c hc =>
    have hne : c ≠ .none := by rcases hc with rfl | rfl | rfl | rfl <;> decide
    simpa [Status.raiseError, Status.consistent, Status.idle] using hne

end

/-- Settles O25: each way a command ends sets the flag of its row. -/
theorem commandOutcomes : Obligations.CommandOutcomes := by
  intro i s hs hb
  obtain ⟨t, ht, ho⟩ := exec_outcome i s
  obtain ⟨hcons, hidle⟩ := ho.consistent hs hb
  refine ⟨t, ht, hcons, hidle, ?_⟩
  generalize t.status = st at ho
  cases ho with
  | success => exact .inl rfl
  | fault hi _ => exact .inr (.inl ⟨rfl, hi⟩)
  | error hi hc => exact .inr (.inr ⟨rfl, hi, hc⟩)

/-- Settles O26: no case of a command writes CMD, an operand register or anything outside the CORE and memory. -/
theorem outcomesKeepOperands : Obligations.OutcomesKeepOperands := fun _ _ _ => exec_keeps

/-! ### Whose turn it is -/

section
variable {s : State} {turn : Turn} {ts : List Turn}

theorem step_scheduled (h : s.schedule = turn :: ts) : step s = runTurn turn (s.setSchedule ts) := by
  rw [step, nextTurn, h]

theorem step_past_schedule (h : s.schedule = []) : step s = runTurn (defaultTurn s) s := by
  rw [step, nextTurn, h]

/-- Past the schedule the core moves while a command runs (log entry 5). -/
theorem step_past_schedule_busy (h : s.schedule = []) (hb : s.status.busy = true) : step s = coreTurn s := by
  rw [step_past_schedule h, defaultTurn, if_pos hb, runTurn]

/-- Past the schedule the host moves while no command runs (log entry 5). -/
theorem step_past_schedule_idle (h : s.schedule = []) (hb : s.status.busy = false) : step s = hostTurn s := by
  rw [step_past_schedule h, defaultTurn, hb]; rfl

/-- A host that has executed its last line does nothing (70_reset_and_hazards.md R252). -/
theorem hostTurn_ended (h : s.hostEnded = true) : hostTurn s = .next s := by
  rw [hostTurn, List.getElem?_eq_none (of_decide_eq_true h)]

/-- A placed word is the next that the core completes (log entry 6). -/
theorem step_placeCommand (w : Word) (s : State) :
    step (placeCommand w s) = execute ((placeCommand w s).setSchedule s.schedule) :=
  (step_scheduled (turn := .core) rfl).trans (coreTurn_running rfl rfl)

theorem decodeTableWord_eq {w : Nat} (n : Nat) (h : w < 2 ^ 32) : decodeTableWord n w = decode (BitVec.ofNat 32 w) :=
  if_pos h

/-- The completion step by the decoder's answer for the word in CMD (30_encoding.md R92, R94). -/
theorem execute_decode (s : State) : (∀ i, decode s.cmd = some i → execute s = exec i s) ∧
    (decode s.cmd = none → execute s = .next (raiseIllegalCommand s)) :=
  ⟨fun _ => execute_command, execute_illegal⟩

end

/-- Settles O51: the step takes its turn off the schedule, and the core's turn decodes the word in CMD. -/
theorem stepRunsDecodedCommand : Obligations.StepRunsDecodedCommand := by
  refine ⟨fun s rest h => ⟨fun hb hr => ?_, fun hidle => ?_⟩, fun _ _ => step_scheduled, fun _ _ _ => step_scheduled,
    fun s h => ⟨fun hb hr => ?_, fun hb hr => ?_, step_past_schedule_idle h⟩, execute_decode, fun s w hw => ?_⟩
  · have hstep : step s = execute { s with schedule := rest } := (step_scheduled h).trans (coreTurn_running hb hr)
    exact ⟨hstep, fun i hi => hstep.trans ((execute_decode _).1 i hi)⟩
  · exact (step_scheduled h).trans (coreTurn_idle hidle)
  · have hstep : step s = execute s := (step_past_schedule_busy h hb).trans (coreTurn_running hb hr)
    exact ⟨hstep, fun i hi => hstep.trans ((execute_decode s).1 i hi)⟩
  · exact (step_past_schedule_busy h hb).trans (coreTurn_idle (.inr hr))
  · rw [decodeTableWord_eq 32 hw]
    have hstep := step_placeCommand (BitVec.ofNat 32 w) s
    exact ⟨fun i hi => hstep.trans ((execute_decode _).1 i hi), fun hn => hstep.trans ((execute_decode _).2 hn),
      rfl, rfl, rfl, rfl, rfl, rfl, rfl, rfl⟩

/-- Settles O52: an ended run has an idle core, so past the schedule it is the turn of a host with no line left. -/
theorem idleCoreHasNoStep : Obligations.IdleCoreHasNoStep := fun _ =>
  ⟨fun hb => coreTurn_idle (.inl hb),
    fun ⟨hended, hb⟩ hsched => (step_past_schedule_idle hsched hb).trans (hostTurn_ended hended)⟩

/-! ### BUSY ends within the schedule -/

section
variable {s t : State} {turn : Turn}

theorem writeRegister_schedule (off : Offset) (v : Word) (s : State) : (writeRegister off v s).schedule = s.schedule := by
  obtain ⟨_, _, _, hreset⟩ := abortRunning_surroundings s
  rcases writeRegister_cases off v s with e | ⟨_, _, _, e⟩ | ⟨_, _, _, _, e⟩ | ⟨_, _, e | e | e | e⟩ <;> rw [e]
  · exact hreset
  all_goals rfl

theorem hostTurn_schedule (ht : hostTurn s = .next t) : t.schedule = s.schedule := by
  rcases hostTurn_cases ht with rfl | ⟨h', rfl⟩ | ⟨off, e, h', _, rfl⟩ | ⟨a, v, h', _, rfl⟩ | ⟨a, h', _, rfl⟩
  · rfl
  · rfl
  · exact writeRegister_schedule off _ s
  · rfl
  · rw [State.setHost_schedule]
    rcases hostMemRead_state a s with e | e <;> rw [e]
    rfl

theorem coreTurn_schedule (ht : coreTurn s = .next t) : t.schedule = s.schedule := by
  rcases coreTurn_cases s with e | ⟨_, _, i, _, e⟩ | ⟨_, _, _, e⟩
  · obtain rfl := next_inj (e.symm.trans ht); rfl
  · obtain ⟨_, _, _, _, hsched⟩ := exec_keeps (e.symm.trans ht); exact hsched
  · obtain rfl := next_inj (e.symm.trans ht); rfl

/-- No turn changes whose turns are still to come (20_memory.md R70). -/
theorem runTurn_schedule (ht : runTurn turn s = .next t) : t.schedule = s.schedule := by
  cases turn with
  | core => exact coreTurn_schedule ht
  | host => exact hostTurn_schedule ht
  | rst b =>
    obtain rfl := next_inj ht
    cases b with
    | true => obtain ⟨_, _, _, hsched⟩ := abortRunning_surroundings s; exact hsched
    | false => rfl

/-- While a command runs, `rst` is low: an asserted `rst` holds the CORE in reset (10_state.md R41). -/
theorem State.Inv.rst_low_of_busy (h : s.Inv) (hb : s.status.busy = true) : s.rst = false := by
  cases hr : s.rst with
  | false => rfl
  | true =>
    obtain ⟨_, hidle, _⟩ := h.rstHeld hr
    rw [hidle] at hb; cases hb

/-- The core's turn ends a running command (60_exceptions.md R220). -/
theorem coreTurn_completes (h : s.Inv) (hb : s.status.busy = true) : ∃ t, coreTurn s = .next t ∧ t.status.busy = false := by
  rw [coreTurn_running hb (h.rst_low_of_busy hb)]
  cases hc : s.command with
  | some i => rw [execute_command hc]; exact exec_ends i s
  | none => exact ⟨_, execute_illegal hc, rfl⟩

theorem run_of_step_next (h : step s = .next t) (k : Nat) : Host.Core.run core (k + 1) s = Host.Core.run core k t := by
  simp only [Host.Core.run, core, h]

theorem run_of_step_stops (h : ∀ u, step s ≠ .next u) (t : State) : Host.Core.run core 1 s ≠ .next t := by
  intro ht
  simp only [Host.Core.run, core] at ht
  cases hstep : step s with
  | next u => exact h u hstep
  | fault r => rw [hstep] at ht; cases ht
  | refused r => rw [hstep] at ht; cases ht

end

/-- Settles O53, by induction on the schedule: each turn on it is one step, and past it the core completes the command. -/
theorem busyEndsWithinSchedule : Obligations.BusyEndsWithinSchedule := by
  intro s hinv
  induction hsched : s.schedule generalizing s with
  | nil =>
    cases hb : s.status.busy with
    | false => exact ⟨0, Nat.zero_le _, .inl ⟨s, rfl, hb⟩⟩
    | true =>
      obtain ⟨t, ht, hidle⟩ := coreTurn_completes hinv hb
      exact ⟨1, le_rfl, .inl ⟨t, run_of_step_next ((step_past_schedule_busy hsched hb).trans ht) 0, hidle⟩⟩
  | cons turn ts ih =>
    by_cases hgoes : ∃ t, step s = .next t
    · obtain ⟨t, ht⟩ := hgoes
      have hrest : t.schedule = ts := runTurn_schedule ((step_scheduled hsched).symm.trans ht)
      obtain ⟨k, hk, hend⟩ := ih t (stepKeepsInvariant s t hinv ht) hrest
      exact ⟨k + 1, Nat.succ_le_succ hk, by simpa only [run_of_step_next ht] using hend⟩
    · exact ⟨1, Nat.le_add_left 1 _, .inr (run_of_step_stops fun u hu => hgoes ⟨u, hu⟩)⟩

end Sys2Proof.Machine

/-! ## Reset and hazards (70_reset_and_hazards.md R240 to R248) -/

namespace Sys2Proof.Machine

section
variable {s : State} {i : Instr}

/-! ### What a reset leaves of memory (70_reset_and_hazards.md R242, R243) -/

theorem abortRunning_contract (hb : s.status.busy = true) (hcmd : s.command = some i) (hc : contractHolds i s) :
    abortRunning s = scramble (needRangeOf i s) s := by
  rw [abortRunning, if_pos hb, hcmd]
  exact if_pos hc

theorem abortRunning_contract_fails (hcmd : s.command = some i) (hc : ¬ contractHolds i s) : abortRunning s = s := by
  have hn : contractOf i s ≠ none := hc
  simp only [abortRunning, hcmd, if_neg hn, ite_self]

theorem abortRunning_illegal (hcmd : s.command = none) : abortRunning s = s := by
  simp only [abortRunning, hcmd, ite_self]

theorem abortRunning_idle (hb : s.status.busy = false) : abortRunning s = s :=
  if_neg (by rw [hb]; decide)

theorem resetCore_mem (s : State) : (resetCore s).mem = (abortRunning s).mem := rfl

theorem resetCore_mem_of_abort (h : abortRunning s = s) : (resetCore s).mem = s.mem := by rw [resetCore_mem, h]

/-- The contract of a command with no buffers always holds, and its need range, which the abort frees, is empty
(60_exceptions.md R207, 20_memory.md R73). -/
theorem resetCore_mem_no_buffers (hb : s.status.busy = true) (hcmd : s.command = some i)
    (hi : usesBuffers i = false) : (resetCore s).mem = s.mem := by
  have hc : contractHolds i s := if_neg (by rw [hi]; decide)
  have hr : needRangeOf i s = Range.none := if_neg (by rw [hi]; decide)
  rw [resetCore_mem, abortRunning_contract hb hcmd hc, hr]
  rfl

/-- The bytes an abort frees are those that a write to the input of the running command would free (20_memory.md R73). -/
theorem resetCore_mem_contract (hb : s.status.busy = true) (hcmd : s.command = some i) (hc : contractHolds i s) :
    (resetCore s).mem = (scrambleNeed i s).mem := by
  rw [resetCore_mem, abortRunning_contract hb hcmd hc, scrambleNeed_of_contract hc]

/-! ### What a reset leaves besides memory (70_reset_and_hazards.md R240) -/

theorem resetCore_surroundings (s : State) : keepsSurroundings s (resetCore s) := abortRunning_surroundings s

theorem resetCore_undisturbed (s : State) : (resetCore s).undisturbed := ⟨rfl, rfl⟩

theorem runTurn_rst_asserted (s : State) : runTurn (.rst true) s = .next ((resetCore s).setRst true) := rfl

/-! ### The register port in and after reset (70_reset_and_hazards.md R241, R244) -/

/-- A register whose value is its reset value reads as that, whether `rst` is asserted or not. -/
theorem readRegister_at_reset_value {r : RegName} (h : registerValue s r = registerResetValue r) :
    readRegister s r.offset = registerResetValue r := by
  rw [readRegister, regAt_offset]
  simp only [h, ite_self]

theorem readRegister_id (s : State) : readRegister s 0x00#8 = 0x42363401#32 := readRegister_at_reset_value (r := .id) rfl

theorem readRegister_ctrl (s : State) : readRegister s 0x04#8 = 0#32 := readRegister_at_reset_value (r := .ctrl) rfl

/-- ID is the one register whose reset value is not 0 (10_state.md R21). -/
theorem registerResetValue_eq (r : RegName) :
    registerResetValue r = if r.offset = 0x00#8 then 0x42363401#32 else 0#32 := by cases r <;> rfl

/-- While `rst` is asserted, reads return the reset values, and a reserved offset reads 0. -/
theorem readRegister_rst_asserted (hr : s.rst = true) (off : Offset) :
    readRegister s off = if off = 0x00#8 then 0x42363401#32 else 0#32 := by
  cases hoff : regAt off with
  | none =>
    have hid : off ≠ 0x00#8 := by rintro rfl; cases hoff
    rw [readRegister, hoff, if_neg hid]
  | some r =>
    rw [readRegister, hoff, regAt_eq_some hoff, ← registerResetValue_eq]
    exact if_pos hr

theorem writeRegister_rst_asserted (hr : s.rst = true) (off : Offset) (v : Word) : writeRegister off v s = s :=
  if_pos hr

/-- With its registers at their reset values and `rst` low, the CORE accepts every command word, legal or not
(70_reset_and_hazards.md R241, 10_state.md R25). -/
theorem writeRegister_cmd_accepted (hr : s.rst = false) (hreset : s.registersAtReset) (v : Word) :
    writeRegister 0x08#8 v s = acceptCommand v s := by
  obtain ⟨_, hidle, _⟩ := hreset
  rw [writeRegister_cmd v hr, hidle]
  exact if_neg (by decide)

theorem registersAtReset_resetOn (p : Params) (m : Memory) : (State.resetOn p m).registersAtReset :=
  ⟨rfl, rfl, rfl, rfl, rfl, rfl, rfl, rfl, rfl⟩

end

/-- Settles O49, by the command that runs: its contract holds, fails, is none to check, or the word is illegal. -/
theorem abortLeavesNeedRangeFree : Obligations.AbortLeavesNeedRangeFree := by
  intro s hm hb
  refine ⟨registersAtReset_resetCore s, fun i _ hcmd hc => ?_, fun i hcmd hc => ?_, ?_, fun v => writeRegister_ctrl_reset,
    runTurn_rst_asserted s⟩
  · exact disturbed_effect_of_contract hm hc (resetCore_mem_contract hb hcmd hc)
  · exact resetCore_mem_of_abort (abortRunning_contract_fails hcmd hc)
  · rintro (hcmd | hcmd | hcmd)
    · exact resetCore_mem_no_buffers hb hcmd rfl
    · exact resetCore_mem_no_buffers hb hcmd rfl
    · exact resetCore_mem_of_abort (abortRunning_illegal hcmd)

/-- Settles O46: the registers of `State.resetOn` are the reset values, with which the CORE accepts a command. -/
theorem resetState : Obligations.ResetState := by
  refine ⟨fun p m => ⟨registersAtReset_resetOn p m, ⟨rfl, rfl⟩, rfl, readRegister_id _, fun v => ?_⟩, _, _, rfl⟩
  rw [writeRegister_cmd_accepted rfl (registersAtReset_resetOn p m)]
  exact ⟨rfl, rfl⟩

/-- Settles O47: both sources are `resetCore`, and the assertion of `rst` raises the input after it. -/
theorem resetClearsRegisters : Obligations.ResetClearsRegisters := by
  intro s
  have hmem : s.status.busy = false → (resetCore s).mem = s.mem := fun hb => resetCore_mem_of_abort (abortRunning_idle hb)
  obtain ⟨hparams, _, hhost, hsched⟩ := resetCore_surroundings s
  refine ⟨fun v hr hv => ?_, (resetCore s).setRst true, runTurn_rst_asserted s, registersAtReset_resetCore s,
    resetCore_undisturbed s, readRegister_id _, hparams, hhost, hsched, rfl, hmem⟩
  rw [writeRegister_ctrl_reset hr hv]
  exact ⟨registersAtReset_resetCore s, resetCore_undisturbed s, readRegister_id _, resetCore_surroundings s, hmem⟩

/-- Settles O48: the registers that the invariant holds at their reset values under `rst` are still there when it is low. -/
theorem deassertedRstReleasesTheCore : Obligations.DeassertedRstReleasesTheCore := by
  intro s
  refine ⟨rfl, fun hinv hr => ?_⟩
  have hreset : (s.setRst false).registersAtReset := hinv.rstHeld hr
  refine ⟨hreset, fun v => ?_⟩
  change (writeRegister 0x08#8 v (s.setRst false)).cmd = v ∧ (writeRegister 0x08#8 v (s.setRst false)).status.busy = true
  rw [writeRegister_cmd_accepted rfl hreset]
  exact ⟨rfl, rfl⟩

/-- Settles O50: the port and the core's turn each test `rst` first, and CTRL holds nothing. -/
theorem assertedRstHoldsTheCore : Obligations.AssertedRstHoldsTheCore := by
  intro s
  refine ⟨fun v hr hv => ?_, fun hr => ?_, readRegister_ctrl s⟩
  · rw [writeRegister_ctrl_reset hr hv]
    exact registersAtReset_resetCore s
  · exact ⟨writeRegister_rst_asserted hr, readRegister_rst_asserted hr, coreTurn_idle (.inr hr)⟩

/-- Settles O59: BUSY excludes every other flag and cause, and without them the outcome that the invariant allows is 0. -/
theorem resultsReadZeroWhileBusy : Obligations.ResultsReadZeroWhileBusy := by
  intro s hinv hb
  have hr := hinv.rst_low_of_busy hb
  have hst := Status.consistent_busy hinv.status hb
  obtain ⟨hlo, hhi⟩ := hinv.outcome.result (by rw [hst]; rfl)
  have hpos : s.errPos = 0#32 := by
    by_contra hne
    have hcause := hinv.outcome.errPos hne
    rw [hst] at hcause
    exact absurd hcause (by decide)
  exact ⟨(readRegister_named .resultLo hr).trans hlo, (readRegister_named .resultHi hr).trans hhi,
    (readRegister_named .errPos hr).trans hpos,
    (readRegister_named .status hr).trans ((congrArg Status.toWord hst).trans (by decide))⟩

end Sys2Proof.Machine
